-- ==== Sys2Proof/Word.lean ====
section
/-! DEFINITION. Words, the value types of the spec's notation (00_scope.md R8, R9) and the names the block's
rules use for segments, peripherals, widths and directions. Nothing here computes. -/

namespace Sys2Proof

/-- A 32-bit field of a request or a response: a cycle count, an address, a data word. -/
abbrev Word := BitVec 32
/-- A byte (R8). -/
abbrev Byte := BitVec 8
/-- A halfword (R8). -/
abbrev Half := BitVec 16
/-- A masked address (R51). -/
abbrev Addr := BitVec 27
/-- A request word (R81). -/
abbrev Request := BitVec 104
/-- A byte buffer, sparse: the listed cells, every other index reads zero (assumption 5). -/
abbrev Memory := List Host.Cell

/-- R9: `None` ("no pending event") or `Fin(t)`, `t` a signed 32-bit number. -/
inductive Time where
  | none
  | fin (t : Word)
deriving DecidableEq, Repr, Inhabited

/-- The peripheral classes that have an event register (R30, R83). -/
inductive EvClass where
  | video | timer | input
deriving DecidableEq, Repr, Inhabited

/-- The four external peripherals (R3, R11). -/
inductive Periph where
  | video | timer | input | audio
deriving DecidableEq, Repr, Inhabited

/-- The two access widths (R57): one byte, two bytes. -/
inductive Width where
  | byte | half
deriving DecidableEq, Repr, Inhabited

/-- Direction of a bus access, as a diagnostic record names it (R127). -/
inductive Dir where
  | read | write
deriving DecidableEq, Repr, Inhabited

/-- The eight segments in index order 0 to 7 (R53). -/
inductive Segment where
  | video | audio | hwControl | unused3 | unused4 | workRam | cartRam | cartRom
deriving DecidableEq, Repr, Inhabited

/-- What an offset of the HWControl segment selects (R112). -/
inductive HwKind where
  | timer | input | wcr | none
deriving DecidableEq, Repr, Inhabited

/-- The two exported regions (R83, R191). -/
inductive Region where
  | wram | cram
deriving DecidableEq, Repr, Inhabited

/-- The aggregate interrupt level: the highest asserted index, or none (R172). -/
abbrev Level := Option (Fin 5)

end Sys2Proof
end

