-- ==== Sys2Proof/Syntax.lean ====
section
/-! DEFINITION. The operation set (30_encoding.md R80): one constructor per row of spec/opcode_table.json, carrying the
operand fields of R86. A field an operation ignores is no operand. -/

namespace Sys2Proof

/-- The nineteen operations of R80 with the operands of R86. `c` is the request's cycle count, `a` its address. -/
inductive Instr where
  /-- RDB, op 0x00 (R103). -/
  | rdb (c a : Word)
  /-- RDH, op 0x01 (R104). -/
  | rdh (c a : Word)
  /-- WRB, op 0x02 (R105): `d[7:0]`. -/
  | wrb (c a : Word) (d : Byte)
  /-- WRH, op 0x03 (R106): `d[15:0]`. -/
  | wrh (c a : Word) (d : Half)
  /-- SETEV, op 0x10 (R141): `a[1:0]` the class, `{a[2], d}` the time. -/
  | setev (cls : BitVec 2) (t : Time)
  /-- NEXTB, op 0x11 (R142). -/
  | nextb
  /-- STEP, op 0x12 (R144). -/
  | step (c : Word)
  /-- FUPD, op 0x13 (R148). -/
  | fupd (c : Word)
  /-- REBASE, op 0x14 (R151). -/
  | rebase (c : Word)
  /-- FIXNE, op 0x15 (R155). -/
  | fixne
  /-- FREND, op 0x16 (R159). -/
  | frend (c : Word)
  /-- ACARRY, op 0x17 (R158). -/
  | acarry (c : Word)
  /-- IRQA, op 0x20 (R171): `a[2:0]` the source, `d[0]` on. -/
  | irqa (src : BitVec 3) (on : Bool)
  /-- PWR, op 0x30 (R181). -/
  | pwr
  /-- LDIMG, op 0x31 (R183): `a` the image length. -/
  | ldimg (len : Word)
  /-- SVSZ, op 0x32 (R186). -/
  | svsz
  /-- SAVE, op 0x33 (R187): `a` the capacity. -/
  | save (cap : Word)
  /-- RSTR, op 0x34 (R188): `c` the restored cycle, `a` the snapshot length. -/
  | rstr (c len : Word)
  /-- EXPT, op 0x35 (R191): `a[0]` the region. -/
  | expt (region : Region)
deriving DecidableEq, Repr, Inhabited

end Sys2Proof
end

