-- ==== Sys2Proof/WellFormed.lean ====
section
/-! DEFINITION. Well-formed requests: no reserved operand value (30_encoding.md R83, R87 test 5). -/

namespace Sys2Proof

/-- R83: peripheral class 3 is reserved. -/
def classOk (cls : BitVec 2) : Bool := decide (cls ≠ 3)

/-- R83: interrupt sources 5 to 7 are reserved. -/
def sourceOk (src : BitVec 3) : Bool := decide (src.toNat < 5)

/-- R87 test (5): reserved operand values are absent. -/
def Instr.wellFormed : Instr → Bool
  | .setev cls _ => classOk cls
  | .irqa src _ => sourceOk src
  | .rdb _ _ | .rdh _ _ | .wrb _ _ _ | .wrh _ _ _ => true
  | .nextb | .step _ | .fupd _ | .rebase _ | .fixne | .frend _ | .acarry _ => true
  | .pwr | .ldimg _ | .svsz | .save _ | .rstr _ _ | .expt _ => true

end Sys2Proof
end

