-- ==== Sys2Proof/Decode.lean ====
section
/-! DEFINITION. Decoding a request word (30_encoding.md R80 to R86, R88), and the encoder written from the same tables.
Reserved operand values decode: they are refused later, by test (5) of R87, after the tests that come before it. -/

namespace Sys2Proof

/-- Why a word is no operation. -/
inductive DecodeError where
  /-- R88: the opcode byte is none of the nineteen. -/
  | reservedOpcode (op : BitVec 8)
deriving DecidableEq, Repr, Inhabited

/-- R81: bits 103:96. -/
def fieldOp (w : Request) : BitVec 8 := w.extractLsb' 96 8
/-- R81: bits 95:64. -/
def fieldC (w : Request) : Word := w.extractLsb' 64 32
/-- R81: bits 63:32. -/
def fieldA (w : Request) : Word := w.extractLsb' 32 32
/-- R81: bits 31:0. -/
def fieldD (w : Request) : Word := w.extractLsb' 0 32

/-- R82: a Time operand from its tag and its 32 bits; the bits are ignored when the tag is 1. -/
def timeOfWire (none : Bool) (t : Word) : Time := if none then .none else .fin t

/-- R82: the `none` bit of a Time on the wire. -/
def Time.tag : Time → Bool
  | .none => true
  | .fin _ => false

/-- R82: the 32 bits of a Time on the wire; 0 for `None`. -/
def Time.bits : Time → Word
  | .none => 0
  | .fin t => t

/-- R83: the region bit. -/
def regionOfWire (b : Bool) : Region := if b then .cram else .wram

/-- R83: the region bit, back. -/
def Region.bit : Region → Bool
  | .wram => false
  | .cram => true

/-- R80, R86: the operation a request word asks for, or the reserved opcode that makes it none (R88). -/
def decode (w : Request) : Except DecodeError Instr :=
  let c := fieldC w
  let a := fieldA w
  let d := fieldD w
  match (fieldOp w).toNat with
  | 0x00 => .ok (.rdb c a)
  | 0x01 => .ok (.rdh c a)
  | 0x02 => .ok (.wrb c a (d.extractLsb' 0 8))
  | 0x03 => .ok (.wrh c a (d.extractLsb' 0 16))
  | 0x10 => .ok (.setev (a.extractLsb' 0 2) (timeOfWire (a.getLsbD 2) d))
  | 0x11 => .ok .nextb
  | 0x12 => .ok (.step c)
  | 0x13 => .ok (.fupd c)
  | 0x14 => .ok (.rebase c)
  | 0x15 => .ok .fixne
  | 0x16 => .ok (.frend c)
  | 0x17 => .ok (.acarry c)
  | 0x20 => .ok (.irqa (a.extractLsb' 0 3) (d.getLsbD 0))
  | 0x30 => .ok .pwr
  | 0x31 => .ok (.ldimg a)
  | 0x32 => .ok .svsz
  | 0x33 => .ok (.save a)
  | 0x34 => .ok (.rstr c a)
  | 0x35 => .ok (.expt (regionOfWire (a.getLsbD 0)))
  | _ => .error (.reservedOpcode (fieldOp w))

/-- The opcode byte of each operation (R80). -/
def Instr.opcode : Instr → BitVec 8
  | .rdb _ _ => 0x00
  | .rdh _ _ => 0x01
  | .wrb _ _ _ => 0x02
  | .wrh _ _ _ => 0x03
  | .setev _ _ => 0x10
  | .nextb => 0x11
  | .step _ => 0x12
  | .fupd _ => 0x13
  | .rebase _ => 0x14
  | .fixne => 0x15
  | .frend _ => 0x16
  | .acarry _ => 0x17
  | .irqa _ _ => 0x20
  | .pwr => 0x30
  | .ldimg _ => 0x31
  | .svsz => 0x32
  | .save _ => 0x33
  | .rstr _ _ => 0x34
  | .expt _ => 0x35

/-- R81: the four fields side by side, most significant first. -/
def pack (op : BitVec 8) (c a d : Word) : Request := op ++ c ++ a ++ d

/-- The request word of an operation, unused fields zero (R81, R86). -/
def encode (i : Instr) : Request :=
  match i with
  | .rdb c a => pack i.opcode c a 0
  | .rdh c a => pack i.opcode c a 0
  | .wrb c a d => pack i.opcode c a (d.setWidth 32)
  | .wrh c a d => pack i.opcode c a (d.setWidth 32)
  | .setev cls t => pack i.opcode 0 ((BitVec.ofBool t.tag ++ cls).setWidth 32) t.bits
  | .nextb => pack i.opcode 0 0 0
  | .step c => pack i.opcode c 0 0
  | .fupd c => pack i.opcode c 0 0
  | .rebase c => pack i.opcode c 0 0
  | .fixne => pack i.opcode 0 0 0
  | .frend c => pack i.opcode c 0 0
  | .acarry c => pack i.opcode c 0 0
  | .irqa src on => pack i.opcode 0 (src.setWidth 32) ((BitVec.ofBool on).setWidth 32)
  | .pwr => pack i.opcode 0 0 0
  | .ldimg len => pack i.opcode 0 len 0
  | .svsz => pack i.opcode 0 0 0
  | .save cap => pack i.opcode 0 cap 0
  | .rstr c len => pack i.opcode c len 0
  | .expt r => pack i.opcode 0 ((BitVec.ofBool r.bit).setWidth 32) 0

/-- A request word from the opcode table's numbering (bit 0 the least significant), bits above `nbits` zero. -/
def requestOfTable (nbits w : Nat) : Request := BitVec.ofNat 104 (w % 2 ^ nbits)

/-- The operation the decoder reads from a word of the opcode table, none where it rejects it. -/
def decodeTableWord (nbits w : Nat) : Option Instr :=
  match decode (requestOfTable nbits w) with
  | .ok i => some i
  | .error _ => none

end Sys2Proof
end

