-- ==== Sys2Proof/Config.lean ====
section
/-! DEFINITION. What the spec leaves to the implementation (00_scope.md R7, 92_eei_decisions.md) and the peripheral
oracle's interface (R11). A `Config` is plain data, one per instance of the block; every statement holds for every one.
The opaque constants are the free values: the environment's answers where no answer has been written down. -/

namespace Sys2Proof

/-- R11: what a peripheral may do to the block while it answers a contract call. -/
inductive Callback where
  /-- `SetEvent(p, T)`, the operation of R141. -/
  | setEvent (p : EvClass) (t : Time)
  /-- `Assert(s, on)`, the operation of R171. -/
  | assert (src : Fin 5) (on : Bool)
deriving DecidableEq, Repr, Inhabited

/-- R11: the contract calls that may change a peripheral, with the arguments the block passes (R107). Cycle counts
are the exact integers of R8. -/
inductive Call where
  | power (p : Periph)
  | update (p : EvClass) (c : Int)
  | readRegister (p : Periph) (c : Int) (a : Addr) (n : Width)
  | writeRegister (p : Periph) (c : Int) (a : Addr) (n : Width) (v : Half)
  | deserializeState (p : Periph) (data : List Byte)
deriving DecidableEq, Repr, Inhabited

/-- The answer to a `Call`: the due time of an Update, the value of a ReadRegister (its low `8n` bits are used), the
callbacks in order. A call takes the parts its contract names. -/
structure Answer where
  time : Time
  value : Half
  callbacks : List Callback
deriving DecidableEq, Repr, Inhabited

/-- R11: the pure contract calls, which change no peripheral. -/
inductive Query where
  | serializeState (p : Periph)
  | validateState (p : Periph) (data : List Byte)
deriving DecidableEq, Repr, Inhabited

/-- The answer to a `Query`: the block of a SerializeState, the verdict of a ValidateState. -/
structure Reply where
  bytes : List Byte
  ok : Bool
deriving DecidableEq, Repr, Inhabited

/-- R7: the open parameters of one instance of the block, fixed for its life (R238). -/
structure Config where
  /-- HWMAP (D7): the recognised low address bytes; the first pair of a byte counts, a byte not listed is NONE. -/
  hwmap : List (Byte × HwKind)
  /-- WCR_READ_OR (D8). -/
  wcrReadOr : Byte
  /-- FAR_THRESHOLD (D11). -/
  farThreshold : Int
  /-- RAM_SIZE (D22): none is 0, `some k` is `2^(k+1)`, so exactly the sizes 2^1 to 2^24. -/
  ramBits : Option (Fin 24)
  /-- RAM_INIT (D22): the bytes of CartRAM when LDIMG creates it. -/
  ramInit : Memory
  /-- LOG_ENABLE (D27). -/
  logEnable : Bool
deriving DecidableEq, Repr, Inhabited

/-- R7: the default of each open parameter (assumption 2). -/
def Config.default : Config where
  hwmap := [(0x10, .input), (0x14, .input), (0x28, .input), (0x18, .timer), (0x1C, .timer), (0x20, .timer), (0x24, .wcr)]
  wcrReadOr := 0xFC
  farThreshold := 1073741824
  ramBits := some 15
  ramInit := []
  logEnable := false

/-- FREE VALUE: a peripheral's answer to a contract call, given which environment the block is joined to and every
earlier call, newest first. No body: nothing is known of it (R11, assumption 3). -/
opaque Config.freeAnswer : Nat → List Call → Call → Answer

/-- FREE VALUE: a peripheral's answer to a pure contract call (R11, assumption 3). -/
opaque Config.freeReply : Nat → List Call → Query → Reply

/-- FREE VALUE: a payload byte the host has not put on the stream yet (R85, assumption 8). -/
opaque Config.freeByte : Nat → Nat → Byte

/-- FREE VALUE: the value SVSZ reports for a total of 2^32 or more (R166 (l), assumption 9). -/
opaque Config.freeSize : Nat → Nat → Word

end Sys2Proof
end

