-- ==== Sys2Proof/Machine/State.lean ====
section
/-! DEFINITION. The state of the machine: the ten items of 10_state.md R20 (structure Block), and beside them the
interface the block is reached through (requests, payload streams, response, the driven interrupt levels, the contract
calls, the diagnostic log), the instance's parameters, and the environment's answers. All of it is plain data. -/

namespace Sys2Proof.Machine

/-- R84, R200: the status of a response. -/
inductive Status where
  | ok | refused | loadError | schedViolation | serMismatch
deriving DecidableEq, Repr, Inhabited

/-- R84: one response. -/
structure Response where
  ua : Bool
  st : Status
  none : Bool
  v : Word
deriving DecidableEq, Repr, Inhabited

/-- R188, R190: the first requirement of phase 1 that a snapshot fails, in the rule's order. -/
inductive Mismatch where
  | records | busregLength | wramLength | cramLength | busregRange | block (p : Periph)
deriving DecidableEq, Repr, Inhabited

/-- R127, R202: what goes to the diagnostic log when LOG_ENABLE. -/
inductive LogRecord where
  | unmappedAccess (dir : Dir) (a : Addr)
  | loadError (len : Word)
  | schedViolation (c : Int) (video timer input : Time)
  | serMismatch (why : Mismatch)
deriving DecidableEq, Repr, Inhabited

/-- R24: CartROM, held as the image it mirrors: `ROM[i] = image[i mod len]` (assumption 6). -/
structure Rom where
  image : Memory
  len : Nat
deriving DecidableEq, Repr, Inhabited

/-- R20: the complete state of the block. EV[Video], EV[Timer], EV[Input] are three fields. -/
structure Block where
  /-- R23 WorkRAM, 65536 bytes. -/
  wram : Memory
  /-- R24 CartROM. -/
  rom : Rom
  /-- R25 CartRAM, RAM_SIZE bytes. -/
  ram : Memory
  /-- R26 wait control. -/
  wcr : BitVec 2
  /-- R27 the asserted interrupt sources. -/
  irq : BitVec 5
  /-- R29 the audio correction accumulator. -/
  acf : BitVec 2
  /-- R30 EV[Video]. -/
  evVideo : Time
  /-- R30 EV[Timer]. -/
  evTimer : Time
  /-- R30 EV[Input]. -/
  evInput : Time
  /-- R32 the CPU's armed halt point. -/
  halt : Time
  /-- R33 the sticky fault latch. -/
  halted : Bool
  /-- R34 an image has been accepted. -/
  loaded : Bool
deriving DecidableEq, Repr, Inhabited

/-- The environment's side of the oracle (R11): written-down answers, each with how many calls were made before it; a
call with no entry takes the free answer. `seed` says which environment; `drawn` counts the free values taken. -/
structure Env where
  seed : Nat
  drawn : Nat
  answers : List (Nat × Call × Answer)
  replies : List (Nat × Query × Reply)
deriving DecidableEq, Repr, Inhabited

/-- The block, its interface, its parameters and its environment. -/
structure State extends Block where
  /-- R7: the instance's parameters; no step changes them. -/
  cfg : Config
  /-- R13, R81: the requests that have arrived, oldest first. -/
  requests : List Request
  /-- R85: the payload stream into the block (images, snapshots). -/
  payloadIn : List Byte
  /-- R85: the payload stream out of the block (snapshots, regions), oldest byte first. -/
  payloadOut : List Byte
  /-- R84: the response to the latest request, none before the first. -/
  response : Option Response
  /-- R173, R234: the levels driven to the CPU, newest first. -/
  levels : List Level
  /-- R234: the state-changing contract calls made, newest first. -/
  calls : List Call
  /-- R234: the pure contract calls made, newest first, each with how many state-changing calls came before it, so that
  with `calls` this is the whole sequence. No answer depends on it. -/
  queries : List (Nat × Query)
  /-- R127: the diagnostic log, newest first; no rule reads it. -/
  log : List LogRecord
  /-- R11: the environment. -/
  env : Env
deriving DecidableEq, Repr, Inhabited

/-- No request ends the machine with a fault. The spec's one fatal condition, SchedulingInvariantViolation, is a next
state with the HALTED latch set (R206); the other errors leave the state as it was (R184, R190). -/
inductive Fault where
deriving DecidableEq, Repr

/-- R12 (c), R205: a refused request has no step. Every one of these is safe: nothing is claimed of such a run. -/
inductive Refusal where
  /-- Raised by exec's arm of an instruction that has no meaning yet. Safe. -/
  | notModelled (mnemonic : String)
  /-- R87 test (1), R88: raised by step on a reserved opcode. Safe. -/
  | reservedOpcode (op : BitVec 8)
  /-- R87 test (2), R207: raised by every operation but LDIMG while LOADED = 0. Safe. -/
  | notLoaded
  /-- R87 test (3), R206: raised by every operation but PWR, LDIMG and EXPT while HALTED = 1. Safe. -/
  | halted
  /-- R87 test (4), R22: raised by an operation that reads a negative `c`. Safe. -/
  | negativeCycle
  /-- R87 test (5): raised by SETEV on class 3 and by IRQA on a source above 4. Safe. -/
  | reservedOperand
  /-- R187: raised by SAVE on a capacity below the snapshot's size. Safe. -/
  | bufferTooSmall
deriving DecidableEq, Repr

/-- R40, column "cold": LOADED = 0 and HALTED = 0, no buffer exists. The fields the column calls unspecified hold zero or
`None` (assumption 1); the parameters are the defaults of R7; nothing has been asked, answered or driven. -/
def State.reset : State where
  wram := []
  rom := ⟨[], 0⟩
  ram := []
  wcr := 0
  irq := 0
  acf := 0
  evVideo := .none
  evTimer := .none
  evInput := .none
  halt := .none
  halted := false
  loaded := false
  cfg := Config.default
  requests := []
  payloadIn := []
  payloadOut := []
  response := Option.none
  levels := []
  calls := []
  queries := []
  log := []
  env := ⟨0, 0, [], []⟩

end Sys2Proof.Machine
end

