-- ==== Sys2Proof/Machine/Operands.lean ====
section
/-! DEFINITION. Operand forms: the order on Time (00_scope.md R9), the address decode (20_memory.md R51, R52, R56), the
index masks (10_state.md R24, R25), the HWControl decode (R112), and which operand tests each operation has (R86, R87). -/

namespace Sys2Proof

/-- R9: `T ≤ c`; false for `None`. -/
def Time.dueBy (T : Time) (c : Int) : Bool :=
  match T with
  | .none => false
  | .fin t => decide (t.toInt ≤ c)

/-- R9: `T > c`; true for `None`. -/
def Time.after (T : Time) (c : Int) : Bool :=
  match T with
  | .none => true
  | .fin t => decide (c < t.toInt)

/-- R9: `T < U`: finite times in signed order, every finite time before `None`. -/
def Time.before (T U : Time) : Bool :=
  match T, U with
  | .fin a, .fin b => decide (a.toInt < b.toInt)
  | .fin _, .none => true
  | .none, _ => false

/-- R9: the smaller of two times. -/
def Time.minT (T U : Time) : Time := if U.before T then U else T

/-- R151: `Fin(t)` becomes `Fin(t - c)`, exact under the precondition `t > c ≥ 0`; `None` stays `None`. -/
def Time.rebase (c : Int) (T : Time) : Time :=
  match T with
  | .none => .none
  | .fin t => .fin (BitVec.ofInt 32 (t.toInt - c))

/-- R155: `Fin(t)` with `t ≥ FAR_THRESHOLD` becomes `None`. -/
def Time.fixNonEvent (far : Int) (T : Time) : Time :=
  match T with
  | .none => .none
  | .fin t => if far ≤ t.toInt then .none else .fin t

/-- The peripheral behind an event register. -/
def EvClass.periph (p : EvClass) : Periph :=
  match p with
  | .video => .video
  | .timer => .timer
  | .input => .input

/-- R83: peripheral classes 0, 1, 2; class 3 is reserved and gives none. -/
def evClassOf (cls : BitVec 2) : Option EvClass :=
  match cls.toNat with
  | 0 => some .video
  | 1 => some .timer
  | 2 => some .input
  | _ => none

/-- R83: interrupt sources 0 to 4; 5 to 7 are reserved and give none. -/
def sourceOf (src : BitVec 3) : Option (Fin 5) :=
  if h : src.toNat < 5 then some ⟨src.toNat, h⟩ else none

/-- R57: the number of bytes of a width. -/
def Width.bytes (n : Width) : Nat :=
  match n with
  | .byte => 1
  | .half => 2

/-- R51: the 27-bit mask. -/
def mask27 (A : Word) : Addr := A.extractLsb' 0 27

/-- R56: a halfword access clears address bit 0. -/
def alignTo (n : Width) (a : Addr) : Addr :=
  match n with
  | .byte => a
  | .half => a &&& ~~~1#27

/-- R100 steps (2), (3): the address an access acts on. -/
def busAddr (n : Width) (A : Word) : Addr := alignTo n (mask27 A)

/-- R52, R53: the segment, `a[26:24]`. -/
def segmentOf (a : Addr) : Segment :=
  match (a.extractLsb' 24 3).toNat with
  | 0 => .video
  | 1 => .audio
  | 2 => .hwControl
  | 3 => .unused3
  | 4 => .unused4
  | 5 => .workRam
  | 6 => .cartRam
  | _ => .cartRom

/-- R120: the WorkRAM index, `a[15:0]`. -/
def wramIndex (a : Addr) : Nat := (a.extractLsb' 0 16).toNat

/-- R24, R25: `a & (size - 1)`. -/
def maskIndex (size : Nat) (a : Addr) : Nat := a.toNat &&& (size - 1)

/-- R112: HWMAP applied to `a[7:0]`. -/
def hwKindOf (hwmap : List (Byte × HwKind)) (a : Addr) : HwKind :=
  match hwmap.find? (fun e => e.1 == a.extractLsb' 0 8) with
  | some e => e.2
  | none => .none

/-- R25: RAM_SIZE. -/
def Config.ramSize (cfg : Config) : Nat :=
  match cfg.ramBits with
  | none => 0
  | some k => 2 ^ (k.val + 1)

/-- R8: the value of an access of width `n`, its low `8n` bits, in a halfword. -/
def Width.low (n : Width) (v : Half) : Half :=
  match n with
  | .byte => (v.extractLsb' 0 8).setWidth 16
  | .half => v

/-- R111: the audio timestamp `(c + ACF) >> 2`, exact. -/
def audioTime (c : Int) (acf : BitVec 2) : Int := (c + acf.toNat) / 4

/-- R158: `(c + ACF)[1:0]`, of the exact sum. -/
def acfCarry (c : Int) (acf : BitVec 2) : BitVec 2 := BitVec.ofInt 2 (c + acf.toNat)

/-- R183: `L = 2^k` for some `k`, and `256 ≤ L ≤ 16777216`. -/
def imageLengthOk (L : Nat) : Bool := decide (L = 2 ^ L.log2 ∧ 256 ≤ L ∧ L ≤ 16777216)

/-- R86, R87 test (4): the `c` field, for the operations that read it. -/
def Instr.cycle (i : Instr) : Option Word :=
  match i with
  | .rdb c _ => some c
  | .rdh c _ => some c
  | .wrb c _ _ => some c
  | .wrh c _ _ => some c
  | .setev _ _ => none
  | .nextb => none
  | .step c => some c
  | .fupd c => some c
  | .rebase c => some c
  | .fixne => none
  | .frend c => some c
  | .acarry c => some c
  | .irqa _ _ => none
  | .pwr => none
  | .ldimg _ => none
  | .svsz => none
  | .save _ => none
  | .rstr c _ => some c
  | .expt _ => none

/-- R87 test (2): the one operation admitted while LOADED = 0. -/
def Instr.allowedUnloaded (i : Instr) : Bool :=
  match i with
  | .ldimg _ => true
  | .rdb _ _ | .rdh _ _ | .wrb _ _ _ | .wrh _ _ _ | .setev _ _ | .nextb | .step _ | .fupd _ | .rebase _ | .fixne
  | .frend _ | .acarry _ | .irqa _ _ | .pwr | .svsz | .save _ | .rstr _ _ | .expt _ => false

/-- R87 test (3): the operations admitted while HALTED = 1. -/
def Instr.allowedHalted (i : Instr) : Bool :=
  match i with
  | .pwr => true
  | .ldimg _ => true
  | .expt _ => true
  | .rdb _ _ | .rdh _ _ | .wrb _ _ _ | .wrh _ _ _ | .setev _ _ | .nextb | .step _ | .fupd _ | .rebase _ | .fixne
  | .frend _ | .acarry _ | .irqa _ _ | .svsz | .save _ | .rstr _ _ => false

end Sys2Proof
end

