-- ==== Sys2Proof/Machine/Flags.lean ====
section
/-! DEFINITION. Flag and status computations: the aggregate interrupt level (42_interrupt.md R172, R173), the asserted
set's update (R171), the response word (30_encoding.md R84), and the admission tests (R87). -/

namespace Sys2Proof.Machine

/-- R172: the priority scan from the highest index down. -/
def level (irq : BitVec 5) : Level :=
  if irq.getLsbD 4 then some 4
  else if irq.getLsbD 3 then some 3
  else if irq.getLsbD 2 then some 2
  else if irq.getLsbD 1 then some 1
  else if irq.getLsbD 0 then some 0
  else none

/-- R28: ILEVEL, a function of the state and no field of it. -/
def State.ilevel (s : State) : Level := level s.irq

/-- R173: the four wires `{irq_none, irq_level[2:0]}`. -/
def levelWires (l : Level) : BitVec 4 :=
  match l with
  | none => 0b1000
  | some k => BitVec.ofNat 4 k.val

/-- The mask of one interrupt source. -/
def sourceMask (src : Fin 5) : BitVec 5 := 1#5 <<< src.val

/-- R171: `IRQ[s] <- on`, the other four bits unchanged. -/
def irqAssert (irq : BitVec 5) (src : Fin 5) (on : Bool) : BitVec 5 :=
  if on then irq ||| sourceMask src else irq &&& ~~~(sourceMask src)

/-- R84: the code of a status. -/
def Status.code (st : Status) : BitVec 4 :=
  match st with
  | .ok => 0
  | .refused => 1
  | .loadError => 2
  | .schedViolation => 3
  | .serMismatch => 4

/-- R84: the response word `{ua, st, none, v}`. -/
def Response.word (r : Response) : BitVec 38 :=
  BitVec.ofBool r.ua ++ r.st.code ++ BitVec.ofBool r.none ++ r.v

/-- R84: a completed operation's response, with a plain value. -/
def okValue (ua : Bool) (v : Word) : Response := ⟨ua, .ok, false, v⟩

/-- R82, R84: a completed operation's response, with a Time value. -/
def okTime (T : Time) : Response := ⟨false, .ok, T.tag, T.bits⟩

/-- R86: IRQA's response. -/
def okLevel (l : Level) : Response :=
  match l with
  | none => ⟨false, .ok, true, 0⟩
  | some k => ⟨false, .ok, false, BitVec.ofNat 32 k.val⟩

/-- R84: with `st ≠ 0` the other fields are 0. -/
def errorResponse (st : Status) : Response := ⟨false, st, false, 0⟩

/-- R12, R84, R205: what the outside sees of a step: the response a next state holds, or REFUSED. -/
def responseOf (o : Host.Outcome State Fault Refusal) : Option Response :=
  match o with
  | .next s => s.response
  | .refused _ => some (errorResponse .refused)
  | .fault _ => none

/-- R87 test (4): the operation reads `c` and `c` is negative. -/
def negativeCycle (c : Option Word) : Bool :=
  match c with
  | none => false
  | some w => decide (w.toInt < 0)

/-- R87 tests (2) to (5), in order: the first that fails, or none. (Test (1) is the decoder's.) -/
def admission (i : Instr) (s : State) : Option Refusal :=
  if !s.loaded && !i.allowedUnloaded then some .notLoaded
  else if s.halted && !i.allowedHalted then some .halted
  else if negativeCycle i.cycle then some .negativeCycle
  else if !i.wellFormed then some .reservedOperand
  else none

end Sys2Proof.Machine
end

