-- ==== Sys2Proof/Machine/Ops.lean ====
section
/-! DEFINITION. The named operations the meanings share: byte buffers, registers, the peripheral contract (00_scope.md
R11), the sequencer's helpers (41_scheduler.md R142, R143), memory access by address (40_bus_dispatch.md R101, R102), the
snapshot layout (43_host_state.md R185), admission, and raising an error (60_exceptions.md R200, R206). -/

namespace Sys2Proof

/-- A byte of a buffer; an index not listed reads zero. -/
def Memory.read (m : Memory) (i : Nat) : Byte :=
  match m with
  | [] => 0
  | (k, b) :: rest => if k = i then b else Memory.read rest i

/-- Store one byte, keeping the canonical form. -/
def Memory.write (m : Memory) (i : Nat) (v : Byte) : Memory :=
  match m with
  | [] => if v = 0 then [] else [(i, v)]
  | (k, b) :: rest =>
    if i < k then (if v = 0 then (k, b) :: rest else (i, v) :: (k, b) :: rest)
    else if i = k then (if v = 0 then rest else (i, v) :: rest)
    else (k, b) :: Memory.write rest i v

/-- The canonical form: indexes strictly rising, no listed zero. -/
abbrev Memory.wf (m : Memory) : Prop := m.Pairwise (fun x y => x.1 < y.1) ∧ ∀ x ∈ m, x.2 ≠ 0

/-- Every listed index is below `n`. -/
abbrev Memory.below (m : Memory) (n : Nat) : Prop := ∀ x ∈ m, x.1 < n

/-- The buffer that holds the bytes from index `k` on. -/
def Memory.ofBytesFrom (k : Nat) (bs : List Byte) : Memory :=
  match bs with
  | [] => []
  | b :: rest => if b = 0 then Memory.ofBytesFrom (k + 1) rest else (k, b) :: Memory.ofBytesFrom (k + 1) rest

/-- The buffer that holds a byte string. -/
def Memory.ofBytes (bs : List Byte) : Memory := Memory.ofBytesFrom 0 bs

/-- The first `n` bytes of a buffer, index 0 first. -/
def Memory.toBytes (m : Memory) (n : Nat) : List Byte := (List.range n).map (Memory.read m)

/-- R101, R55: `BufRead`, little-endian, the value in the low `8n` bits. -/
def bufRead (f : Nat → Byte) (i : Nat) (n : Width) : Half :=
  match n with
  | .byte => (f i).setWidth 16
  | .half => f (i + 1) ++ f i

/-- R102, R55: `BufWrite`. -/
def bufWrite (m : Memory) (i : Nat) (n : Width) (v : Half) : Memory :=
  match n with
  | .byte => Memory.write m i (v.extractLsb' 0 8)
  | .half => Memory.write (Memory.write m i (v.extractLsb' 0 8)) (i + 1) (v.extractLsb' 8 8)

end Sys2Proof

namespace Sys2Proof.Machine

/-- R24: ROM_SIZE. -/
def Rom.size (r : Rom) : Nat := max r.len 65536

/-- R24: `ROM[i] = image[i mod L]`. -/
def Rom.read (r : Rom) (i : Nat) : Byte := Memory.read r.image (i % r.len)

/-- R30: read an event register. -/
def State.ev (s : State) (p : EvClass) : Time :=
  match p with
  | .video => s.evVideo
  | .timer => s.evTimer
  | .input => s.evInput

/-- R30: write an event register. -/
def setEv (p : EvClass) (T : Time) (s : State) : State :=
  match p with
  | .video => { s with evVideo := T }
  | .timer => { s with evTimer := T }
  | .input => { s with evInput := T }

/-- R32: write HALT. -/
def setHalt (T : Time) (s : State) : State := { s with halt := T }

/-- R27: write IRQ. -/
def setIrq (v : BitVec 5) (s : State) : State := { s with irq := v }

/-- R26: write WCR. -/
def setWcr (v : BitVec 2) (s : State) : State := { s with wcr := v }

/-- R29: write ACF. -/
def setAcf (v : BitVec 2) (s : State) : State := { s with acf := v }

/-- R23: replace WRAM. -/
def setWram (m : Memory) (s : State) : State := { s with wram := m }

/-- R25: replace RAM. -/
def setRam (m : Memory) (s : State) : State := { s with ram := m }

/-- R33: write HALTED. -/
def setHalted (b : Bool) (s : State) : State := { s with halted := b }

/-- R173: drive ILEVEL to the CPU. -/
def pushLevel (s : State) : State := { s with levels := level s.irq :: s.levels }

/-- R234: note a contract call. -/
def recordCall (q : Call) (s : State) : State := { s with calls := q :: s.calls }

/-- R234: note a pure contract call. -/
def recordQuery (q : Query) (s : State) : State := { s with queries := (s.calls.length, q) :: s.queries }

/-- R127: write the diagnostic log when LOG_ENABLE. -/
def writeLog (r : LogRecord) (s : State) : State :=
  { s with log := if s.cfg.logEnable then r :: s.log else s.log }

/-- R84: answer the request. -/
def respond (r : Response) (s : State) : State := { s with response := some r }

/-- R85: put bytes on the outgoing payload stream. -/
def emit (bs : List Byte) (s : State) : State := { s with payloadOut := s.payloadOut ++ bs }

/-- R85: the next `n` bytes of the incoming payload stream; a byte not there yet is free (assumption 8). -/
def payload (n : Nat) (s : State) : List Byte :=
  s.payloadIn.take n ++
    (List.range (n - s.payloadIn.length)).map (fun k => Config.freeByte s.env.seed (s.env.drawn + k))

/-- R85: take those `n` bytes off the stream. -/
def consume (n : Nat) (s : State) : State :=
  { s with
    payloadIn := s.payloadIn.drop n
    env := { s.env with drawn := s.env.drawn + (n - s.payloadIn.length) } }

/-- R141: `SETEV(p, T)`: store the due time, lower the halt point if the time is earlier. -/
def setEvent (p : EvClass) (T : Time) (s : State) : State :=
  let s1 := setEv p T s
  if T.before s1.halt then setHalt T s1 else s1

/-- R171: `IRQA(s, on)`: write the bit, drive the level. -/
def assertSource (src : Fin 5) (on : Bool) (s : State) : State :=
  pushLevel (setIrq (irqAssert s.irq src on) s)

/-- R11: perform one callback. -/
def applyCallback (s : State) (cb : Callback) : State :=
  match cb with
  | .setEvent p T => setEvent p T s
  | .assert src on => assertSource src on s

/-- R11: `apply(cb)`, in list order. -/
def applyCallbacks (cbs : List Callback) (s : State) : State := cbs.foldl applyCallback s

/-- The written-down answer to a call, if there is one. -/
def findAnswer (tbl : List (Nat × Call × Answer)) (n : Nat) (q : Call) : Option Answer :=
  match tbl with
  | [] => none
  | (k, q', r) :: rest => if k = n ∧ q' = q then some r else findAnswer rest n q

/-- The written-down answer to a query, if there is one. -/
def findReply (tbl : List (Nat × Query × Reply)) (n : Nat) (q : Query) : Option Reply :=
  match tbl with
  | [] => none
  | (k, q', r) :: rest => if k = n ∧ q' = q then some r else findReply rest n q

/-- R11: the oracle's answer to a contract call made now. -/
def State.answer (s : State) (q : Call) : Answer :=
  match findAnswer s.env.answers s.calls.length q with
  | some r => r
  | none => Config.freeAnswer s.env.seed s.calls q

/-- R11: the oracle's answer to a pure contract call made now. It changes nothing. -/
def State.reply (s : State) (q : Query) : Reply :=
  match findReply s.env.replies s.calls.length q with
  | some r => r
  | none => Config.freeReply s.env.seed s.calls q

/-- R11, R126: make one contract call and apply its callbacks. -/
def callPeriph (q : Call) (s : State) : State := applyCallbacks (s.answer q).callbacks (recordCall q s)

/-- R142: `minT` of the three event registers. -/
def nextBoundary (s : State) : Time := s.evVideo.minT (s.evTimer.minT s.evInput)

/-- R144, R148: re-arm the halt point to the boundary. -/
def rearm (s : State) : State := setHalt (nextBoundary s) s

/-- R143: bring a peripheral up to cycle `c`; its returned time is stored last. -/
def service (p : EvClass) (c : Int) (s : State) : State :=
  setEv p (s.answer (.update p c)).time (callPeriph (.update p c) s)

/-- R144: service a peripheral that is due. -/
def serviceIfDue (p : EvClass) (c : Int) (s : State) : State :=
  if (s.ev p).dueBy c then service p c s else s

/-- R148: `FUPD(c)`. -/
def forceUpdateAll (c : Int) (s : State) : State :=
  rearm (service .input c (service .timer c (service .video c s)))

/-- R155: `FIXNE()`. -/
def fixNonEvents (s : State) : State :=
  { s with
    evVideo := s.evVideo.fixNonEvent s.cfg.farThreshold
    evTimer := s.evTimer.fixNonEvent s.cfg.farThreshold
    evInput := s.evInput.fixNonEvent s.cfg.farThreshold }

/-- R158: `ACARRY(c)`. -/
def audioCarry (c : Int) (s : State) : State := setAcf (acfCarry c s.acf) s

/-- R151: the precondition of REBASE, every due time strictly after `c`. -/
def rebaseOk (c : Int) (s : State) : Bool := s.evVideo.after c && s.evTimer.after c && s.evInput.after c

/-- R151: the subtraction of REBASE. -/
def rebaseEvents (c : Int) (s : State) : State :=
  { s with
    evVideo := s.evVideo.rebase c
    evTimer := s.evTimer.rebase c
    evInput := s.evInput.rebase c }

/-- R12, R200, R206: raise one of the three fatal errors: latch HALTED for a scheduling violation and for nothing else,
log what the error carries, answer its status. Leaving the halted state is `leaveHalted`. -/
def raiseError (st : Status) (what : LogRecord) (s : State) : State :=
  respond (errorResponse st) (writeLog what (setHalted (s.halted || decide (st = .schedViolation)) s))

/-- R206, R213: the way out of the halted state, part of PWR and LDIMG only. -/
def leaveHalted (s : State) : State := setHalted false s

/-- R151, R152: `raise SchedulingInvariantViolation(c, EV)`. -/
def raiseViolation (c : Int) (s : State) : State :=
  raiseError .schedViolation (.schedViolation c s.evVideo s.evTimer s.evInput) s

/-- R12 (c), R87: run an operation's rule if the request is admitted; a refused request has no step. -/
def runAdmitted (i : Instr) (s t : State) : Host.Outcome State Fault Refusal :=
  match admission i s with
  | some r => .refused r
  | none => .next t

/-- A read's result: the value in the low `8n` bits, the `ua` flag, the state after the callbacks. -/
structure ReadResult where
  value : Half
  ua : Bool
  after : State
deriving DecidableEq, Repr

/-- R204: note an unmapped access in the log. -/
def logUnmapped (dir : Dir) (a : Addr) (s : State) : State := writeLog (.unmappedAccess dir a) s

/-- R108, R114: a read forwarded to a peripheral. -/
def forwardRead (p : Periph) (c : Int) (a : Addr) (n : Width) (s : State) : ReadResult :=
  ⟨n.low (s.answer (.readRegister p c a n)).value, false, callPeriph (.readRegister p c a n) s⟩

/-- R116: the byte a read of WCR returns. -/
def wcrByte (s : State) : Byte := s.cfg.wcrReadOr ||| s.wcr.setWidth 8

/-- R112 to R119: a read in the HWControl segment, one byte wide whatever the operation's width (R113). -/
def hwRead (c : Int) (a : Addr) (s : State) : ReadResult :=
  match hwKindOf s.cfg.hwmap a with
  | .timer => forwardRead .timer c a .byte s
  | .input => forwardRead .input c a .byte s
  | .wcr => ⟨(wcrByte s).setWidth 16, false, s⟩
  | .none => ⟨0, true, logUnmapped .read a s⟩

/-- R122: a read of CartRAM. -/
def cartRamRead (a : Addr) (n : Width) (s : State) : ReadResult :=
  if s.cfg.ramSize = 0 then ⟨0, true, logUnmapped .read a s⟩
  else ⟨bufRead (Memory.read s.ram) (maskIndex s.cfg.ramSize a) n, false, s⟩

/-- R101, R128: `MemRead(A, n, c)`. -/
def memRead (A : Word) (n : Width) (c : Int) (s : State) : ReadResult :=
  let a := busAddr n A
  match segmentOf a with
  | .video => forwardRead .video c a n s
  | .audio => ⟨0, false, s⟩
  | .hwControl => hwRead c a s
  | .unused3 => ⟨0, false, s⟩
  | .unused4 => ⟨0, false, s⟩
  | .workRam => ⟨bufRead (Memory.read s.wram) (wramIndex a) n, false, s⟩
  | .cartRam => cartRamRead a n s
  | .cartRom => ⟨bufRead s.rom.read (maskIndex s.rom.size a) n, false, s⟩

/-- A write's result: the `ua` flag and the state after it. -/
structure WriteResult where
  ua : Bool
  after : State
deriving DecidableEq, Repr

/-- R109, R111, R115: a write forwarded to a peripheral at time `ts`. -/
def forwardWrite (p : Periph) (ts : Int) (a : Addr) (n : Width) (v : Half) (s : State) : WriteResult :=
  ⟨false, callPeriph (.writeRegister p ts a n (n.low v)) s⟩

/-- R112 to R119: a write in the HWControl segment: `v[7:0]` to one byte-wide register (R113). -/
def hwWrite (c : Int) (a : Addr) (v : Half) (s : State) : WriteResult :=
  match hwKindOf s.cfg.hwmap a with
  | .timer => forwardWrite .timer c a .byte v s
  | .input => forwardWrite .input c a .byte v s
  | .wcr => ⟨false, setWcr (v.extractLsb' 0 2) s⟩
  | .none => ⟨true, logUnmapped .write a s⟩

/-- R123: a write of CartRAM. -/
def cartRamWrite (a : Addr) (n : Width) (v : Half) (s : State) : WriteResult :=
  if s.cfg.ramSize = 0 then ⟨true, logUnmapped .write a s⟩
  else ⟨false, setRam (bufWrite s.ram (maskIndex s.cfg.ramSize a) n v) s⟩

/-- R102, R128: `MemWrite(A, n, v, c)`. -/
def memWrite (A : Word) (n : Width) (v : Half) (c : Int) (s : State) : WriteResult :=
  let a := busAddr n A
  match segmentOf a with
  | .video => forwardWrite .video c a n v s
  | .audio => forwardWrite .audio (audioTime c s.acf) a n v s
  | .hwControl => hwWrite c a v s
  | .unused3 => ⟨false, s⟩
  | .unused4 => ⟨false, s⟩
  | .workRam => ⟨false, setWram (bufWrite s.wram (wramIndex a) n v) s⟩
  | .cartRam => cartRamWrite a n v s
  | .cartRom => ⟨false, s⟩

/-- R103, R104: a read operation's rule: the value zero-extended. -/
def busRead (A : Word) (n : Width) (c : Int) (s : State) : State :=
  let r := memRead A n c s
  respond (okValue r.ua (r.value.setWidth 32)) r.after

/-- R105, R106: a write operation's rule. -/
def busWrite (A : Word) (n : Width) (v : Half) (c : Int) (s : State) : State :=
  let r := memWrite A n v c s
  respond (okValue r.ua 0) r.after

/-- R181: the block's own part of power-on, before any peripheral is powered. -/
def clearBlock (s : State) : State :=
  { leaveHalted s with
    wram := []
    wcr := 0
    acf := 0
    irq := 0
    evVideo := .none
    evTimer := .none
    evInput := .none
    halt := .none }

/-- R181: power the four peripherals, Video, Timer, Input, Audio. -/
def powerPeripherals (s : State) : State :=
  callPeriph (.power .audio) (callPeriph (.power .input) (callPeriph (.power .timer) (callPeriph (.power .video) s)))

/-- R181: `PWR()`. -/
def powerOn (s : State) : State := forceUpdateAll 0 (pushLevel (powerPeripherals (clearBlock s)))

/-- R183: install an accepted image: ROM, RAM from RAM_INIT, LOADED. -/
def installImage (image : List Byte) (L : Nat) (s : State) : State :=
  { s with rom := ⟨Memory.ofBytes image, L⟩, ram := s.cfg.ramInit, loaded := true }

/-- R183, R184: `LDIMG(L, image)`. -/
def loadImage (len : Word) (s : State) : State :=
  let L := len.toNat
  let s1 := consume L s
  if imageLengthOk L then
    respond (okValue false (BitVec.ofNat 32 (max L 65536))) (powerOn (installImage (payload L s) L s1))
  else raiseError .loadError (.loadError len) s1

/-- R185: a 32-bit length, little-endian. -/
def le32 (n : Nat) : List Byte :=
  [BitVec.ofNat 8 n, BitVec.ofNat 8 (n / 256), BitVec.ofNat 8 (n / 65536), BitVec.ofNat 8 (n / 16777216)]

/-- R185: the number four little-endian bytes hold. -/
def ofLe32 (bs : List Byte) : Nat :=
  (bs.getD 0 0).toNat + 256 * (bs.getD 1 0).toNat + 65536 * (bs.getD 2 0).toNat + 16777216 * (bs.getD 3 0).toNat

/-- R185: `BUSREG`. -/
def nameBusreg : List Byte := [0x42, 0x55, 0x53, 0x52, 0x45, 0x47, 0x00, 0x00]
/-- R185: `WRAM`. -/
def nameWram : List Byte := [0x57, 0x52, 0x41, 0x4D, 0x00, 0x00, 0x00, 0x00]
/-- R185: `CRAM`. -/
def nameCram : List Byte := [0x43, 0x52, 0x41, 0x4D, 0x00, 0x00, 0x00, 0x00]
/-- R185: `VIDEO`, `TIMER`, `INPUT`, `AUDIO`. -/
def namePeriph (p : Periph) : List Byte :=
  match p with
  | .video => [0x56, 0x49, 0x44, 0x45, 0x4F, 0x00, 0x00, 0x00]
  | .timer => [0x54, 0x49, 0x4D, 0x45, 0x52, 0x00, 0x00, 0x00]
  | .input => [0x49, 0x4E, 0x50, 0x55, 0x54, 0x00, 0x00, 0x00]
  | .audio => [0x41, 0x55, 0x44, 0x49, 0x4F, 0x00, 0x00, 0x00]

/-- R185: one record. -/
def snapRecord (name data : List Byte) : List Byte := name ++ le32 data.length ++ data

/-- R185: the data of record 1. -/
def busregData (s : State) : List Byte := [s.wcr.setWidth 8, s.irq.setWidth 8, s.acf.setWidth 8]

/-- R11, R185: a peripheral's state block. -/
def State.stateBlock (s : State) (p : Periph) : List Byte := (s.reply (.serializeState p)).bytes

/-- R185: the seven records, back to back. -/
def snapshot (s : State) : List Byte :=
  snapRecord nameBusreg (busregData s) ++
    snapRecord nameWram (Memory.toBytes s.wram 65536) ++
    snapRecord nameCram (Memory.toBytes s.ram s.cfg.ramSize) ++
    snapRecord (namePeriph .video) (s.stateBlock .video) ++
    snapRecord (namePeriph .timer) (s.stateBlock .timer) ++
    snapRecord (namePeriph .input) (s.stateBlock .input) ++
    snapRecord (namePeriph .audio) (s.stateBlock .audio)

/-- R185: the total size of a snapshot. -/
def snapshotSize (s : State) : Nat :=
  65623 + s.cfg.ramSize + ((s.stateBlock .video).length + (s.stateBlock .timer).length +
    (s.stateBlock .input).length + (s.stateBlock .audio).length)

/-- R186, R166 (l): the size as the response carries it; a total that 32 bits do not hold is a free value
(assumption 9). -/
def sizeWord (s : State) : Word :=
  if snapshotSize s < 4294967296 then BitVec.ofNat 32 (snapshotSize s) else Config.freeSize s.env.seed s.env.drawn

/-- R180, R234: the four SerializeState calls of one pass, Video, Timer, Input, Audio. They change nothing else. -/
def serializePass (s : State) : State :=
  recordQuery (.serializeState .audio) (recordQuery (.serializeState .input)
    (recordQuery (.serializeState .timer) (recordQuery (.serializeState .video) s)))

/-- Count one free value as taken. -/
def drawOne (s : State) : State := { s with env := { s.env with drawn := s.env.drawn + 1 } }

/-- R186: `SVSZ()`. -/
def querySize (s : State) : State := respond (okValue false (sizeWord s)) (drawOne (serializePass s))

/-- R187: `SAVE`, with a buffer that is large enough: the size query, then the pass that writes (assumption 22). -/
def saveSnapshot (s : State) : State :=
  respond (okValue false (BitVec.ofNat 32 (snapshotSize s))) (emit (snapshot s) (serializePass (serializePass s)))

/-- R188: take one record of the given name off the front; its data and the rest, or none if it is not there whole. -/
def takeRecord (name bs : List Byte) : Option (List Byte × List Byte) :=
  let len := ofLe32 ((bs.drop 8).take 4)
  let body := bs.drop 12
  if 12 ≤ bs.length ∧ bs.take 8 = name ∧ len ≤ body.length then some (body.take len, body.drop len) else none

/-- The data of the seven records of a snapshot. -/
structure Snapshot where
  busreg : List Byte
  wram : List Byte
  cram : List Byte
  video : List Byte
  timer : List Byte
  input : List Byte
  audio : List Byte
deriving DecidableEq, Repr

/-- R188: the seven records, consuming every byte. -/
def parseSnapshot (bs : List Byte) : Option Snapshot := do
  let (busreg, r1) ← takeRecord nameBusreg bs
  let (wram, r2) ← takeRecord nameWram r1
  let (cram, r3) ← takeRecord nameCram r2
  let (video, r4) ← takeRecord (namePeriph .video) r3
  let (timer, r5) ← takeRecord (namePeriph .timer) r4
  let (input, r6) ← takeRecord (namePeriph .input) r5
  let (audio, r7) ← takeRecord (namePeriph .audio) r6
  if r7 = [] then some ⟨busreg, wram, cram, video, timer, input, audio⟩ else none

/-- The state block of a peripheral in a snapshot. -/
def Snapshot.block (q : Snapshot) (p : Periph) : List Byte :=
  match p with
  | .video => q.video
  | .timer => q.timer
  | .input => q.input
  | .audio => q.audio

/-- R188: does a peripheral accept its block? -/
def State.accepts (s : State) (q : Snapshot) (p : Periph) : Bool := (s.reply (.validateState p (q.block p))).ok

/-- R188 phase 1: the first requirement on the block's own records that fails, in the rule's order. -/
def layoutMismatch (q : Snapshot) (s : State) : Option Mismatch :=
  if q.busreg.length ≠ 3 then some .busregLength
  else if q.wram.length ≠ 65536 then some .wramLength
  else if q.cram.length ≠ s.cfg.ramSize then some .cramLength
  else if 3 < (q.busreg.getD 0 0).toNat ∨ 31 < (q.busreg.getD 1 0).toNat ∨ 3 < (q.busreg.getD 2 0).toNat then
    some .busregRange
  else none

/-- R180, R188: the order in which the blocks are checked. -/
def periphOrder : List Periph := [.video, .timer, .input, .audio]

/-- R188 phase 1: the first of the given peripherals that does not accept its block. -/
def blockMismatch (q : Snapshot) (s : State) (ps : List Periph) : Option Mismatch :=
  match ps with
  | [] => none
  | p :: rest => if s.accepts q p then blockMismatch q s rest else some (.block p)

/-- R188 phase 1: the first requirement that fails, in the rule's order. -/
def snapshotMismatch (q : Snapshot) (s : State) : Option Mismatch :=
  match layoutMismatch q s with
  | some why => some why
  | none => blockMismatch q s periphOrder

/-- R188, R234: the ValidateState calls of phase 1, up to the first that is answered with a mismatch (assumption 22). -/
def validateBlocks (q : Snapshot) (ps : List Periph) (s : State) : State :=
  match ps with
  | [] => s
  | p :: rest =>
    let s1 := recordQuery (.validateState p (q.block p)) s
    if s.accepts q p then validateBlocks q rest s1 else s1

/-- R188, R234: the ValidateState calls a payload leads to: none where a record or a length is already wrong. -/
def validatePass (bs : List Byte) (s : State) : State :=
  match parseSnapshot bs with
  | none => s
  | some q =>
    match layoutMismatch q s with
    | some _ => s
    | none => validateBlocks q periphOrder s

/-- R188 phase 2: the block's registers and memories from the records, an empty schedule. -/
def commitBlock (q : Snapshot) (s : State) : State :=
  { s with
    wcr := (q.busreg.getD 0 0).extractLsb' 0 2
    irq := (q.busreg.getD 1 0).extractLsb' 0 5
    acf := (q.busreg.getD 2 0).extractLsb' 0 2
    wram := Memory.ofBytes q.wram
    ram := Memory.ofBytes q.cram }

/-- R188 phase 2: give a peripheral its block. The call has no callbacks (R11). -/
def deserialize (q : Snapshot) (p : Periph) (s : State) : State := recordCall (.deserializeState p (q.block p)) s

/-- R188: an empty schedule. -/
def clearSchedule (s : State) : State :=
  { s with evVideo := .none, evTimer := .none, evInput := .none, halt := .none }

/-- R188 phase 2, whole, with the closing FUPD. -/
def commitSnapshot (q : Snapshot) (c : Int) (s : State) : State :=
  let s1 := commitBlock q s
  let s2 := deserialize q .audio (deserialize q .input (deserialize q .timer (deserialize q .video s1)))
  forceUpdateAll c (pushLevel (clearSchedule s2))

/-- R188 phase 1 on a byte string: its records, or why it is refused. -/
def checkSnapshot (bs : List Byte) (s : State) : Except Mismatch Snapshot :=
  match parseSnapshot bs with
  | none => .error .records
  | some q =>
    match snapshotMismatch q s with
    | some why => .error why
    | none => .ok q

/-- R188, R190: `RSTR(n, bytes, c)`. -/
def restoreSnapshot (c : Int) (len : Word) (s : State) : State :=
  let bs := payload len.toNat s
  let s1 := validatePass bs (consume len.toNat s)
  match checkSnapshot bs s with
  | .ok q => respond (okValue false 0) (commitSnapshot q c s1)
  | .error why => raiseError .serMismatch (.serMismatch why) s1

/-- R191: the bytes of a region. -/
def regionBytes (r : Region) (s : State) : List Byte :=
  match r with
  | .wram => Memory.toBytes s.wram 65536
  | .cram => Memory.toBytes s.ram s.cfg.ramSize

/-- R191: the length of a region. -/
def regionLength (r : Region) (s : State) : Nat :=
  match r with
  | .wram => 65536
  | .cram => s.cfg.ramSize

end Sys2Proof.Machine
end

