-- ==== Sys2Proof/Machine/Bus.lean ====
section
/-! DEFINITION. The four bus operations (40_bus_dispatch.md R103 to R106). -/

namespace Sys2Proof.Machine

/-- RDB (R103). -/
def execRdb (c a : Word) (s : State) : Host.Outcome State Fault Refusal :=
  runAdmitted (.rdb c a) s (busRead a .byte c.toInt s)

/-- RDH (R104). -/
def execRdh (c a : Word) (s : State) : Host.Outcome State Fault Refusal :=
  runAdmitted (.rdh c a) s (busRead a .half c.toInt s)

/-- WRB (R105). -/
def execWrb (c a : Word) (d : Byte) (s : State) : Host.Outcome State Fault Refusal :=
  runAdmitted (.wrb c a d) s (busWrite a .byte (d.setWidth 16) c.toInt s)

/-- WRH (R106). -/
def execWrh (c a : Word) (d : Half) (s : State) : Host.Outcome State Fault Refusal :=
  runAdmitted (.wrh c a d) s (busWrite a .half d c.toInt s)

end Sys2Proof.Machine
end

