-- ==== Sys2Proof/Machine/HostPort.lean ====
section
/-! DEFINITION. The host port's operations (43_host_state.md R181 to R191). -/

namespace Sys2Proof.Machine

/-- PWR (R181). -/
def execPwr (s : State) : Host.Outcome State Fault Refusal :=
  runAdmitted .pwr s (respond (okValue false 0) (powerOn s))

/-- LDIMG (R183, R184). -/
def execLdimg (len : Word) (s : State) : Host.Outcome State Fault Refusal :=
  runAdmitted (.ldimg len) s (loadImage len s)

/-- SVSZ (R186). -/
def execSvsz (s : State) : Host.Outcome State Fault Refusal :=
  runAdmitted .svsz s (querySize s)

/-- SAVE (R187): a capacity below the size is refused, after the admission tests. -/
def execSave (cap : Word) (s : State) : Host.Outcome State Fault Refusal :=
  match admission (.save cap) s with
  | some r => .refused r
  | none => if cap.toNat < snapshotSize s then .refused .bufferTooSmall else .next (saveSnapshot s)

/-- RSTR (R188, R190). -/
def execRstr (c len : Word) (s : State) : Host.Outcome State Fault Refusal :=
  runAdmitted (.rstr c len) s (restoreSnapshot c.toInt len s)

/-- EXPT (R191). -/
def execExpt (r : Region) (s : State) : Host.Outcome State Fault Refusal :=
  runAdmitted (.expt r) s (respond (okValue false (BitVec.ofNat 32 (regionLength r s))) (emit (regionBytes r s) s))

end Sys2Proof.Machine
end

