-- ==== Sys2Proof/Machine/Interrupt.lean ====
section
/-! DEFINITION. The arbiter's operation (42_interrupt.md R171). -/

namespace Sys2Proof.Machine

/-- IRQA's rule (R171): the bit, the driven level, the level as the response. -/
def irqaRule (src : Fin 5) (on : Bool) (s : State) : State :=
  respond (okLevel (level (irqAssert s.irq src on))) (assertSource src on s)

/-- IRQA (R171). Admission has refused sources 5 to 7 by then; the last arm names the same refusal. -/
def execIrqa (src : BitVec 3) (on : Bool) (s : State) : Host.Outcome State Fault Refusal :=
  match admission (.irqa src on) s, sourceOf src with
  | some r, _ => .refused r
  | none, some k => .next (irqaRule k on s)
  | none, none => .refused .reservedOperand

end Sys2Proof.Machine
end

