-- ==== Sys2Proof/Machine/Scheduler.lean ====
section
/-! DEFINITION. The sequencer operations (41_scheduler.md R141 to R159). -/

namespace Sys2Proof.Machine

/-- SETEV (R141). Admission has refused class 3 by then; the last arm names the same refusal. -/
def execSetev (cls : BitVec 2) (t : Time) (s : State) : Host.Outcome State Fault Refusal :=
  match admission (.setev cls t) s, evClassOf cls with
  | some r, _ => .refused r
  | none, some p => .next (respond (okValue false 0) (setEvent p t s))
  | none, none => .refused .reservedOperand

/-- NEXTB (R142). -/
def execNextb (s : State) : Host.Outcome State Fault Refusal :=
  runAdmitted .nextb s (respond (okTime (nextBoundary s)) s)

/-- R144: the three tests one after another, then HALT takes the boundary, which is also the response. -/
def stepEvents (c : Int) (s : State) : State :=
  let s3 := serviceIfDue .input c (serviceIfDue .timer c (serviceIfDue .video c s))
  respond (okTime (nextBoundary s3)) (rearm s3)

/-- STEP (R144). -/
def execStep (c : Word) (s : State) : Host.Outcome State Fault Refusal :=
  runAdmitted (.step c) s (stepEvents c.toInt s)

/-- FUPD (R148). -/
def execFupd (c : Word) (s : State) : Host.Outcome State Fault Refusal :=
  runAdmitted (.fupd c) s (respond (okValue false 0) (forceUpdateAll c.toInt s))

/-- R151: `REBASE(c)`. -/
def rebaseAll (c : Int) (s : State) : State :=
  if rebaseOk c s then respond (okValue false 0) (rebaseEvents c s) else raiseViolation c s

/-- REBASE (R151). -/
def execRebase (c : Word) (s : State) : Host.Outcome State Fault Refusal :=
  runAdmitted (.rebase c) s (rebaseAll c.toInt s)

/-- FIXNE (R155). -/
def execFixne (s : State) : Host.Outcome State Fault Refusal :=
  runAdmitted .fixne s (respond (okValue false 0) (fixNonEvents s))

/-- R159: `FREND(T)`: FIXNE, FUPD, ACARRY, REBASE, re-arm; after a violation the steps already done stay done. -/
def frameEnd (c : Int) (s : State) : State :=
  let s3 := audioCarry c (forceUpdateAll c (fixNonEvents s))
  if rebaseOk c s3 then respond (okValue false 0) (rearm (rebaseEvents c s3)) else raiseViolation c s3

/-- FREND (R159). -/
def execFrend (c : Word) (s : State) : Host.Outcome State Fault Refusal :=
  runAdmitted (.frend c) s (frameEnd c.toInt s)

/-- ACARRY (R158). -/
def execAcarry (c : Word) (s : State) : Host.Outcome State Fault Refusal :=
  runAdmitted (.acarry c) s (respond (okValue false 0) (audioCarry c.toInt s))

end Sys2Proof.Machine
end

