-- ==== Sys2Proof/Machine/Dispatch.lean ====
section
/-! DEFINITION. One arm per operation of the table. -/

namespace Sys2Proof.Machine

def exec (i : Instr) (s : State) : Host.Outcome State Fault Refusal :=
  match i with
  | .rdb c a => Sys2Proof.Machine.execRdb c a s
  | .rdh c a => Sys2Proof.Machine.execRdh c a s
  | .wrb c a d => Sys2Proof.Machine.execWrb c a d s
  | .wrh c a d => Sys2Proof.Machine.execWrh c a d s
  | .setev cls t => Sys2Proof.Machine.execSetev cls t s
  | .nextb => Sys2Proof.Machine.execNextb s
  | .step c => Sys2Proof.Machine.execStep c s
  | .fupd c => Sys2Proof.Machine.execFupd c s
  | .rebase c => Sys2Proof.Machine.execRebase c s
  | .fixne => Sys2Proof.Machine.execFixne s
  | .frend c => Sys2Proof.Machine.execFrend c s
  | .acarry c => Sys2Proof.Machine.execAcarry c s
  | .irqa src on => Sys2Proof.Machine.execIrqa src on s
  | .pwr => Sys2Proof.Machine.execPwr s
  | .ldimg len => Sys2Proof.Machine.execLdimg len s
  | .svsz => Sys2Proof.Machine.execSvsz s
  | .save cap => Sys2Proof.Machine.execSave cap s
  | .rstr c len => Sys2Proof.Machine.execRstr c len s
  | .expt r => Sys2Proof.Machine.execExpt r s

end Sys2Proof.Machine
end

