-- ==== Sys2Proof/Machine/Step.lean ====
section
/-! DEFINITION. One step: the block takes the oldest request that has arrived and answers it (00_scope.md R3, R13). -/

namespace Sys2Proof.Machine

/-- R3 (d), R13: one request, one transition. With no request waiting the block does nothing (assumption 4); a reserved
opcode is refused before every other test (R87 test (1), R88). -/
def step (s : State) : Host.Outcome State Fault Refusal :=
  match s.requests with
  | [] => .next s
  | w :: rest =>
    match decode w with
    | .error (.reservedOpcode op) => .refused (.reservedOpcode op)
    | .ok i => exec i { s with requests := rest }

/-- The block with an image already accepted, if it has none: 256 zero bytes, RAM from RAM_INIT (assumption 7). -/
def State.withImage (s : State) : State :=
  if s.loaded then s else { s with rom := ⟨[], 256⟩, ram := s.cfg.ramInit, loaded := true }

/-- The state in which the request of the given table word is the next one, on a block that has an image. -/
def State.withFetchWord (s : State) (nbits w : Nat) : State :=
  { s.withImage with requests := requestOfTable nbits w :: s.requests }

end Sys2Proof.Machine
end

