-- ==== Sys2Proof/Machine/Pseudo.lean ====
section
/-! DEFINITION. The pseudo-operations of the textual form (30_encoding.md R92) as the operations they stand for, and
running a sequence of operations. -/

namespace Sys2Proof.Machine

/-- R92: the pseudo-operations. -/
inductive Pseudo where
  | rdw (c a : Word)
  | wrw (c a d : Word)
  | boot (len : Word)
  | frame (c : Word)
  | raise (src : BitVec 3)
  | lower (src : BitVec 3)
deriving DecidableEq, Repr, Inhabited

/-- R92: the expansion of each, lower address first for the 32-bit ones. -/
def expand (p : Pseudo) : List Instr :=
  match p with
  | .rdw c a => [.rdh c a, .rdh c (a + 2)]
  | .wrw c a d => [.wrh c a (d.extractLsb' 0 16), .wrh c (a + 2) (d.extractLsb' 16 16)]
  | .boot len => [.ldimg len]
  | .frame c => [.frend c]
  | .raise src => [.irqa src true]
  | .lower src => [.irqa src false]

/-- R92: the 32-bit value of `rdw` from its two halfword responses, `{second, first}`. -/
def rdwValue (first second : Word) : Word := second.extractLsb' 0 16 ++ first.extractLsb' 0 16

/-- R66: operations one after another, each on the state the one before left. -/
def execAll (is : List Instr) (s : State) : Host.Outcome State Fault Refusal :=
  match is with
  | [] => .next s
  | i :: rest =>
    match exec i s with
    | .next t => execAll rest t
    | .fault f => .fault f
    | .refused r => .refused r

end Sys2Proof.Machine
end

