-- ==== Sys2Proof/Machine/Cpu.lean ====
section
/-! DEFINITION. The CPU's run contract (41_scheduler.md R161, R162) and the frame loop around it (R160,
70_reset_and_hazards.md R233), joined to exec. The CPU is an external agent: which accesses an instruction makes, what it
costs, and when the host asks for a stop are inputs here; what the contract fixes is computed (assumption 23). -/

namespace Sys2Proof.Machine

/-- R161: what an instruction may ask of the block: the four bus operations and nothing else. -/
inductive BusAccess where
  | readByte (a : Word)
  | readHalf (a : Word)
  | writeByte (a : Word) (d : Byte)
  | writeHalf (a : Word) (d : Half)
deriving DecidableEq, Repr, Inhabited

/-- R161: the request of an access issued at a cycle count. -/
def BusAccess.request (c : Word) (x : BusAccess) : Instr :=
  match x with
  | .readByte a => .rdb c a
  | .readHalf a => .rdh c a
  | .writeByte a d => .wrb c a d
  | .writeHalf a d => .wrh c a d

/-- R161: an instruction as the block sees it: zero or more accesses, then a cost. -/
structure CpuInstruction where
  accesses : List BusAccess
  /-- One less than the cost, so that every cost is a positive integer. -/
  extra : Nat
deriving DecidableEq, Repr, Inhabited

/-- R161, I17: the cycle cost, any positive integer. -/
def CpuInstruction.cost (i : CpuInstruction) : Int := i.extra + 1

/-- The inputs of one instruction boundary: the host's stop request (R162), the instruction the CPU would execute. -/
structure CpuBoundary where
  stop : Bool
  instruction : CpuInstruction
deriving DecidableEq, Repr, Inhabited

/-- R161: what the CPU does at an instruction boundary. -/
inductive CpuAction where
  | returnFromRun (elapsed : Int)
  | issueStep
  | executeOne (i : CpuInstruction)
deriving DecidableEq, Repr, Inhabited

/-- R161, R162, R247: `CpuBoundary(c)`. HALT is read afresh; the stop request comes first, then STEP, then an instruction. -/
def cpuBoundary (b : CpuBoundary) (c : Int) (s : State) : CpuAction :=
  if b.stop then .returnFromRun c else if s.halt.dueBy c then .issueStep else .executeOne b.instruction

/-- R161: the requests of an action, each with the count `c` of its boundary. STEP is the one sequencer operation. -/
def CpuAction.requests (c : Int) (a : CpuAction) : List Instr :=
  match a with
  | .returnFromRun _ => []
  | .issueStep => [.step (BitVec.ofInt 32 c)]
  | .executeOne i => i.accesses.map (BusAccess.request (BitVec.ofInt 32 c))

/-- R161: the CPU's count at the next boundary. STEP takes none of it (R145, R250). -/
def CpuAction.cycleAfter (c : Int) (a : CpuAction) : Int :=
  match a with
  | .returnFromRun _ => c
  | .issueStep => c
  | .executeOne i => c + i.cost

/-- Where a run is after the boundaries it was given. -/
inductive RunOutcome where
  /-- R161, R162: a stop request was honoured; `Run` returns the elapsed cycles. -/
  | returned (elapsed : Int) (s : State)
  /-- The run goes on at count `c`; also a run that repeats STEP for ever (R145), which no list of boundaries ends. -/
  | running (c : Int) (s : State)
  /-- A request of the run has no next state. -/
  | refused (r : Refusal)
  | fault (f : Fault)
  /-- R163, I11: the count left the 32-bit signed range; the spec gives such a run no meaning. -/
  | outOfRange (c : Int) (s : State)
  /-- R152, R238: a frame end violated; only PWR or LDIMG follow. -/
  | sessionOver (s : State)
deriving DecidableEq, Repr

/-- R161, R163: `Run`, over the boundaries it meets, oldest first. -/
def cpuRun (bs : List CpuBoundary) (c : Int) (s : State) : RunOutcome :=
  match bs with
  | [] => .running c s
  | b :: rest =>
    if c < 2 ^ 31 then
      match cpuBoundary b c s with
      | .returnFromRun elapsed => .returned elapsed s
      | a =>
        match execAll (a.requests c) s with
        | .next t => cpuRun rest (a.cycleAfter c) t
        | .refused r => .refused r
        | .fault f => .fault f
    else .outOfRange c s

/-- R160, R243: the CPU's count after a frame that ended at `T`. -/
def cpuCycleAfterFrame (c T : Int) : Int := c - T

/-- R233: one turn of the frame loop: `Run` until the stop, FREND of the elapsed cycles, the CPU's count back to 0. -/
def cpuFrame (bs : List CpuBoundary) (c : Int) (s : State) : RunOutcome :=
  match cpuRun bs c s with
  | .returned T t =>
    match exec (.frend (BitVec.ofInt 32 T)) t with
    | .next u => if u.halted then .sessionOver u else .running (cpuCycleAfterFrame T T) u
    | .refused r => .refused r
    | .fault f => .fault f
  | o => o

/-- R233: frame after frame, each over its own boundaries. -/
def frameLoop (frames : List (List CpuBoundary)) (c : Int) (s : State) : RunOutcome :=
  match frames with
  | [] => .running c s
  | bs :: rest =>
    match cpuFrame bs c s with
    | .running c' t => frameLoop rest c' t
    | o => o

end Sys2Proof.Machine
end

