-- ==== Sys2Proof/Safety.lean ====
section
/-! DEFINITION. The terms claims are stated in: when a request is admitted, the invariant of the state, the schedule
invariants of 10_state.md R31, what an access or an operation leaves alone, and the premises on the peripherals' answers
(41_scheduler.md R246), which are never facts of the block. -/

namespace Sys2Proof

/-- R9: a time as a number with a top element, `None` the top. -/
def Time.val (T : Time) : WithTop Int :=
  match T with
  | .none => ⊤
  | .fin t => ((t.toInt : Int) : WithTop Int)

/-- R7: RAM_INIT is RAM_SIZE bytes, in the canonical form. -/
def Config.wf (cfg : Config) : Prop := Memory.wf cfg.ramInit ∧ Memory.below cfg.ramInit cfg.ramSize

end Sys2Proof

namespace Sys2Proof.Machine

/-- R87: the block admits every operation that has no bad operand: loaded and not halted. -/
def State.Ready (s : State) : Prop := s.loaded = true ∧ s.halted = false

/-- R183: the length of an accepted image. -/
def ImageLength (L : Nat) : Prop := ∃ k, 8 ≤ k ∧ k ≤ 24 ∧ L = 2 ^ k

/-- The invariant of the state: each buffer in the canonical form and inside its size (R23 to R25); a loaded block has an
image of an accepted length (R183); a halted block is loaded (R87). -/
structure State.Inv (s : State) : Prop where
  cfg : s.cfg.wf
  wram : Memory.wf s.wram ∧ Memory.below s.wram 65536
  ram : Memory.wf s.ram ∧ Memory.below s.ram s.cfg.ramSize
  rom : Memory.wf s.rom.image ∧ Memory.below s.rom.image s.rom.len
  image : s.loaded = true → ImageLength s.rom.len
  latch : s.halted = true → s.loaded = true

/-- R32, R141: the halt point is not later than any due time, so no event can be run past. -/
def State.HaltBound (s : State) : Prop := ∀ p, s.halt.val ≤ (s.ev p).val

/-- R31: no due time is in the past at cycle `c`, or the CPU's next action is STEP. -/
def State.Timely (s : State) (c : Int) : Prop := (∀ p, (c : WithTop Int) ≤ (s.ev p).val) ∨ s.halt.val ≤ c

/-- Two states agree on everything beside the block, its latest response and its diagnostic log. -/
def SameInterface (s t : State) : Prop :=
  t.cfg = s.cfg ∧ t.requests = s.requests ∧ t.payloadIn = s.payloadIn ∧ t.payloadOut = s.payloadOut ∧
    t.levels = s.levels ∧ t.calls = s.calls ∧ t.queries = s.queries ∧ t.env = s.env

/-- The four Power calls of a power-on, made one after another from `s`, call nothing back. -/
def QuietPowers (s : State) : Prop :=
  (s.answer (.power .video)).callbacks = [] ∧
    ((recordCall (.power .video) s).answer (.power .timer)).callbacks = [] ∧
    ((recordCall (.power .timer) (recordCall (.power .video) s)).answer (.power .input)).callbacks = [] ∧
    ((recordCall (.power .input) (recordCall (.power .timer) (recordCall (.power .video) s))).answer
      (.power .audio)).callbacks = []

/-- The state after those four calls, answered so. -/
def afterPowers (s : State) : State :=
  recordCall (.power .audio) (recordCall (.power .input) (recordCall (.power .timer) (recordCall (.power .video) s)))

/-- The three Updates of a service at `c`, made one after another from `s`, call nothing back. -/
def QuietUpdates (c : Int) (s : State) : Prop :=
  (s.answer (.update .video c)).callbacks = [] ∧
    ((recordCall (.update .video c) s).answer (.update .timer c)).callbacks = [] ∧
    ((recordCall (.update .timer c) (recordCall (.update .video c) s)).answer (.update .input c)).callbacks = []

/-- The due time each of those three Updates returns. -/
def returnedTime (c : Int) (s : State) (p : EvClass) : Time :=
  match p with
  | .video => (s.answer (.update .video c)).time
  | .timer => ((recordCall (.update .video c) s).answer (.update .timer c)).time
  | .input => ((recordCall (.update .timer c) (recordCall (.update .video c) s)).answer (.update .input c)).time

/-- R246: those Updates call nothing back and return no time up to `c`. A premise on the peripherals. -/
def SchedulesAhead (c : Int) (s : State) : Prop :=
  QuietUpdates c s ∧ ∀ p, (c : WithTop Int) < (returnedTime c s p).val

/-- R105, R106: the write request of a width. -/
def writeRequest (n : Width) (c A : Word) (v : Half) : Instr :=
  match n with
  | .byte => .wrb c A (v.extractLsb' 0 8)
  | .half => .wrh c A v

/-- R103, R104: the read request of a width. -/
def readRequest (n : Width) (c A : Word) : Instr :=
  match n with
  | .byte => .rdb c A
  | .half => .rdh c A

/-- R51, R56: the address an access of a width acts on, as a number: 27 bits, bit 0 cleared for a halfword. -/
def accessAddr (n : Width) (A : Word) : Nat :=
  match n with
  | .byte => A.toNat % 134217728
  | .half => 2 * (A.toNat % 134217728 / 2)

/-- R107, R126: the request made the contract call `q`, and what it left is what the callbacks of the answer leave. The
memories, ROM, WCR, ACF and the two status bits are as before. -/
def Forwarded (q : Call) (s t : State) : Prop :=
  t.calls = q :: s.calls ∧
    t.toBlock = (applyCallbacks (s.answer q).callbacks s).toBlock ∧
    t.levels = (applyCallbacks (s.answer q).callbacks s).levels ∧
    (t.wram = s.wram ∧ t.rom = s.rom ∧ t.ram = s.ram ∧ t.wcr = s.wcr ∧ t.acf = s.acf ∧ t.halted = s.halted ∧
      t.loaded = s.loaded) ∧
    (t.cfg = s.cfg ∧ t.requests = s.requests ∧ t.payloadIn = s.payloadIn ∧ t.payloadOut = s.payloadOut ∧
      t.queries = s.queries ∧ t.env = s.env)

/-- The memories, the control registers and the status bits are as before: what the sequencer's operations leave alone. -/
def SameStorage (s t : State) : Prop :=
  t.wram = s.wram ∧ t.rom = s.rom ∧ t.ram = s.ram ∧ t.wcr = s.wcr ∧ t.loaded = s.loaded ∧ t.cfg = s.cfg ∧
    t.requests = s.requests ∧ t.payloadIn = s.payloadIn ∧ t.payloadOut = s.payloadOut ∧ t.queries = s.queries ∧
    t.env = s.env

/-- R206, R234: a run is a correct one only while the fault latch is clear. -/
def State.Safe (s : State) : Prop := s.halted = false

end Sys2Proof.Machine
end

