-- ==== Sys2Proof/Certificates/Slice0/Obligations.lean ====
section
/-! DEFINITION. The statements for the provers, from the numbered rules of spec/. Addresses are read as numbers
(`A.toNat % 2^27`, segment `/ 2^24`), times by their value, so that no statement repeats the definition it is about. -/

open Sys2Proof Sys2Proof.Machine

/-! ## Encoding -/

/-- Words of 95_test_vectors.md V0, one or more of each group, read to the operation they are written for. -/
def Obligations.SpecWordsDecode : Prop :=
  decode 0x0000000007FD00001000000000 = .ok (.rdb 7 0xFD000010) ∧
  decode 0x030000000A0500FFFE00001234 = .ok (.wrh 10 0x0500FFFE 0x1234) ∧
  decode 0x10000000000000000100000050 = .ok (.setev 1 (.fin 80)) ∧
  decode 0x10000000000000000600000000 = .ok (.setev 2 .none) ∧
  decode 0x100000000000000000FFFFFFFB = .ok (.setev 0 (.fin (-5))) ∧
  decode 0x12000000FC0000000000000000 = .ok (.step 252) ∧
  decode 0x20000000000000000400000001 = .ok (.irqa 4 true) ∧
  decode 0x31000000000000010000000000 = .ok (.ldimg 256) ∧
  decode 0x34000002590002005700000000 = .ok (.rstr 601 131159) ∧
  decode 0x35000000000000000100000000 = .ok (.expt .cram)

/-- R80, R81, R86: decoding the request word of any well-formed operation gives the operation back, with every operand at
every value its field admits. -/
def Obligations.DecodeEncodeRoundTrip : Prop :=
  ∀ i : Instr, i.wellFormed = true → decode (encode i) = .ok i

/-- R81, R82, R83, R86: how each opcode reads the three fields, whatever the bits it ignores. -/
def Obligations.OperandFieldsOfEachOpcode : Prop :=
  ∀ c a d : Word,
    decode (pack 0x00 c a d) = .ok (.rdb c a) ∧
    decode (pack 0x01 c a d) = .ok (.rdh c a) ∧
    decode (pack 0x02 c a d) = .ok (.wrb c a (BitVec.ofNat 8 d.toNat)) ∧
    decode (pack 0x03 c a d) = .ok (.wrh c a (BitVec.ofNat 16 d.toNat)) ∧
    decode (pack 0x10 c a d) =
      .ok (.setev (BitVec.ofNat 2 a.toNat) (if a.toNat / 4 % 2 = 1 then .none else .fin d)) ∧
    decode (pack 0x11 c a d) = .ok .nextb ∧
    decode (pack 0x12 c a d) = .ok (.step c) ∧
    decode (pack 0x13 c a d) = .ok (.fupd c) ∧
    decode (pack 0x14 c a d) = .ok (.rebase c) ∧
    decode (pack 0x15 c a d) = .ok .fixne ∧
    decode (pack 0x16 c a d) = .ok (.frend c) ∧
    decode (pack 0x17 c a d) = .ok (.acarry c) ∧
    decode (pack 0x20 c a d) = .ok (.irqa (BitVec.ofNat 3 a.toNat) (decide (d.toNat % 2 = 1))) ∧
    decode (pack 0x30 c a d) = .ok .pwr ∧
    decode (pack 0x31 c a d) = .ok (.ldimg a) ∧
    decode (pack 0x32 c a d) = .ok .svsz ∧
    decode (pack 0x33 c a d) = .ok (.save a) ∧
    decode (pack 0x34 c a d) = .ok (.rstr c a) ∧
    decode (pack 0x35 c a d) = .ok (.expt (if a.toNat % 2 = 1 then .cram else .wram))

/-- R88: the opcode bytes that are reserved, refused whatever the state; every other one is an operation. -/
def Obligations.ReservedOpcodesRefused : Prop :=
  ∀ (w : Request) (s : State) (rest : List Request),
    s.requests = w :: rest →
    let op := w.toNat / 2 ^ 96
    (if (0x04 ≤ op ∧ op ≤ 0x0F) ∨ (0x18 ≤ op ∧ op ≤ 0x1F) ∨ (0x21 ≤ op ∧ op ≤ 0x2F) ∨ (0x36 ≤ op ∧ op ≤ 0xFF) then
      step s = .refused (.reservedOpcode (BitVec.ofNat 8 op))
    else ∃ i, decode w = .ok i ∧ step s = exec i { s with requests := rest })

/-- R3, R13: a step takes the oldest request and runs the operation it decodes to on the state without it. With no
request waiting it does nothing (the model's choice, assumption 4). -/
def Obligations.StepRunsOldestRequest : Prop :=
  (∀ (s : State) (w : Request) (rest : List Request) (i : Instr),
    s.requests = w :: rest → decode w = .ok i → step s = exec i { s with requests := rest }) ∧
  (∀ s : State, s.requests = [] → step s = .next s)

/-! ## Reset and invariants -/

/-- R40, column "cold", the two rows it specifies. -/
def Obligations.ResetIsCold : Prop := State.reset.loaded = false ∧ State.reset.halted = false

/-- The invariant holds at reset. The spec says the cold buffers do not exist (R40); that they are held empty is the
model's choice (assumption 1), and this statement rests on it. -/
def Obligations.ResetMeetsInvariant : Prop := State.reset.Inv

/-- Every step keeps the invariant: buffers canonical and inside their sizes, a loaded block has an image of an accepted
length, a halted block is loaded. -/
def Obligations.StepKeepsInvariant : Prop :=
  ∀ s t : State, s.Inv → step s = .next t → t.Inv

/-- R31, R141, R161, R247: "an event must never be missed because the CPU had already committed to running past it": every
request but REBASE (which moves the origin of EV and not HALT, R151) keeps the halt point at or below every due time, and
so does a CPU run, which issues only bus operations and STEP; while it is there, no due time is in the past at any cycle
unless the CPU's next action is STEP, and the CPU executes an instruction only before every due time. -/
def Obligations.HaltNeverLaterThanDueTimes : Prop :=
  (∀ (i : Instr) (s t : State), (∀ c, i ≠ .rebase c) → s.HaltBound → exec i s = .next t → t.HaltBound) ∧
  (∀ (s : State) (c : Int), s.HaltBound → s.Timely c) ∧
  (∀ (bs : List CpuBoundary) (c c' : Int) (s t : State), s.HaltBound →
    cpuRun bs c s = .running c' t ∨ cpuRun bs c s = .returned c' t → t.HaltBound ∧ c ≤ c') ∧
  (∀ (b : CpuBoundary) (c : Int) (s : State) (i : CpuInstruction), s.HaltBound → cpuBoundary b c s = .executeOne i →
    b.stop = false ∧ i = b.instruction ∧ ∀ p, (c : WithTop Int) < (s.ev p).val)

/-- R7, R38, R128 (c): no request changes the parameters, the environment's answers or the waiting requests; only an
LDIMG changes ROM or LOADED. -/
def Obligations.OnlyLdimgChangesRom : Prop :=
  ∀ (i : Instr) (s t : State), exec i s = .next t →
    t.cfg = s.cfg ∧ t.requests = s.requests ∧ t.env.answers = s.env.answers ∧ t.env.replies = s.env.replies ∧
      t.env.seed = s.env.seed ∧ ((∀ len, i ≠ .ldimg len) → t.rom = s.rom ∧ t.loaded = s.loaded)

/-- R27: IRQ is changed by IRQA and by requests that make contract calls (whose callbacks are Asserts, or which rebuild
the state), and by nothing else. -/
def Obligations.IrqOnlyByAssert : Prop :=
  ∀ (i : Instr) (s t : State), exec i s = .next t → (∀ src on, i ≠ .irqa src on) → t.calls = s.calls → t.irq = s.irq

/-! ## Admission and errors -/

/-- R207: while LOADED = 0 every request except LDIMG is refused, and a failed LDIMG leaves LOADED as it was. -/
def Obligations.UnloadedRefusesAllButLdimg : Prop :=
  (∀ (i : Instr) (s : State), s.loaded = false → (∀ len, i ≠ .ldimg len) → exec i s = .refused .notLoaded) ∧
  (∀ (len : Word) (s : State), ¬ ImageLength len.toNat → ∃ t, exec (.ldimg len) s = .next t ∧ t.loaded = s.loaded)

/-- R206: a halted block refuses everything but PWR, LDIMG and EXPT; PWR and an accepted LDIMG clear HALTED and rebuild
the schedule; EXPT still reads; nothing else leaves the halted state. -/
def Obligations.HaltedBlockRecoversByResetOnly : Prop :=
  ∀ s : State, s.loaded = true → s.halted = true →
    (∀ i : Instr, i ≠ .pwr → (∀ len, i ≠ .ldimg len) → (∀ r, i ≠ .expt r) → exec i s = .refused .halted) ∧
    (∃ t, exec .pwr s = .next t ∧ t.halted = false) ∧
    (∀ len : Word, ImageLength len.toNat → ∃ t, exec (.ldimg len) s = .next t ∧ t.halted = false) ∧
    (∀ len : Word, ¬ ImageLength len.toNat → ∃ t, exec (.ldimg len) s = .next t ∧ t.halted = true) ∧
    (∀ r, ∃ t, exec (.expt r) s = .next t ∧ t.halted = true)

/-- R87, R208: the five admission tests in their order, the first that fails refusing the request; what passes them all
runs, but for a SAVE into too small a buffer (R187). A refusal answers REFUSED. -/
def Obligations.AdmissionTestsInOrder : Prop :=
  ∀ (s : State) (w : Request) (rest : List Request), s.requests = w :: rest →
    (∀ op, decode w = .error (.reservedOpcode op) → step s = .refused (.reservedOpcode op)) ∧
    (∀ i, decode w = .ok i →
      let unloaded := s.loaded = false ∧ ∀ len, i ≠ .ldimg len
      let stopped := s.halted = true ∧ i ≠ .pwr ∧ (∀ len, i ≠ .ldimg len) ∧ ∀ r, i ≠ .expt r
      let negative := ∃ c, i.cycle = some c ∧ c.toInt < 0
      let reserved := (∃ T, i = .setev 3 T) ∨ ∃ src on, i = .irqa src on ∧ 5 ≤ src.toNat
      (unloaded → step s = .refused .notLoaded) ∧
      (¬ unloaded → stopped → step s = .refused .halted) ∧
      (¬ unloaded → ¬ stopped → negative → step s = .refused .negativeCycle) ∧
      (¬ unloaded → ¬ stopped → ¬ negative → reserved → step s = .refused .reservedOperand) ∧
      (¬ unloaded → ¬ stopped → ¬ negative → ¬ reserved → (∃ t, step s = .next t) ∨
        ∃ cap, i = .save cap ∧ cap.toNat < (snapshot s).length ∧ step s = .refused .bufferTooSmall)) ∧
    (∀ r, step s = .refused r → responseOf (step s) = some ⟨false, .refused, false, 0⟩)

/-- R84: every request is answered by one response word `{ua, st, none, v}`; when `st` is not 0 the rest is 0. -/
def Obligations.ResponseWordLayout : Prop :=
  (∀ r : Response, r.word.toNat = r.v.toNat + 2 ^ 32 * r.none.toNat +
    2 ^ 33 * (match r.st with | .ok => 0 | .refused => 1 | .loadError => 2 | .schedViolation => 3 | .serMismatch => 4) +
    2 ^ 37 * r.ua.toNat) ∧
  (∀ (i : Instr) (s : State), ∃ r, responseOf (exec i s) = some r ∧
    (r.st ≠ .ok → r.ua = false ∧ r.none = false ∧ r.v = 0))

/-- R22, R87 test (4): the operations that read `c` refuse a negative one. -/
def Obligations.NegativeCycleRefused : Prop :=
  ∀ (s : State) (c a : Word) (b : Byte) (h : Half), s.Ready → c.toInt < 0 →
    exec (.rdb c a) s = .refused .negativeCycle ∧ exec (.rdh c a) s = .refused .negativeCycle ∧
    exec (.wrb c a b) s = .refused .negativeCycle ∧ exec (.wrh c a h) s = .refused .negativeCycle ∧
    exec (.step c) s = .refused .negativeCycle ∧ exec (.fupd c) s = .refused .negativeCycle ∧
    exec (.rebase c) s = .refused .negativeCycle ∧ exec (.frend c) s = .refused .negativeCycle ∧
    exec (.acarry c) s = .refused .negativeCycle ∧ exec (.rstr c a) s = .refused .negativeCycle

/-- R83, R87 test (5): peripheral class 3 and interrupt sources 5 to 7 are refused. -/
def Obligations.ReservedOperandsRefused : Prop :=
  ∀ s : State, s.Ready →
    (∀ T, exec (.setev 3 T) s = .refused .reservedOperand) ∧
    (∀ (src : BitVec 3) (on : Bool), 5 ≤ src.toNat → exec (.irqa src on) s = .refused .reservedOperand)

/-- R12, R200: an admitted request is always answered, with OK or with the one error its operation can raise; no bus
operation fails. -/
def Obligations.EveryAdmittedRequestIsAnswered : Prop :=
  ∀ (i : Instr) (s : State), s.Ready → i.wellFormed = true → (∀ c, i.cycle = some c → 0 ≤ c.toInt) →
    (∀ cap, i = .save cap → snapshotSize s ≤ cap.toNat) →
    ∃ (t : State) (r : Response), exec i s = .next t ∧ t.response = some r ∧
      (r.st = .ok ∨ (r.st = .schedViolation ∧ ∃ c, i = .rebase c ∨ i = .frend c) ∨
        (r.st = .loadError ∧ ∃ len, i = .ldimg len) ∨ (r.st = .serMismatch ∧ ∃ c len, i = .rstr c len)) ∧
      (r.st ≠ .ok → r.ua = false ∧ r.none = false ∧ r.v = 0)

/-! ## Bus -/

/-- R101, R103, R110, R118, R120, R122, R124: RDB outside Video and HWControl. It changes nothing but the response. -/
def Obligations.RdbReadsMemory : Prop :=
  ∀ (s : State) (c A : Word), s.Ready → s.Inv → 0 ≤ c.toInt →
    let n := A.toNat % 2 ^ 27
    let seg := n / 2 ^ 24
    seg ≠ 0 → seg ≠ 2 →
    ∃ t, exec (.rdb c A) s = .next t ∧ t.toBlock = s.toBlock ∧ SameInterface s t ∧
      (seg = 1 ∨ seg = 3 ∨ seg = 4 → t.response = some ⟨false, .ok, false, 0⟩) ∧
      (seg = 5 → t.response = some ⟨false, .ok, false, (Memory.read s.wram (n % 65536)).setWidth 32⟩) ∧
      (seg = 6 → s.cfg.ramSize = 0 → t.response = some ⟨true, .ok, false, 0⟩) ∧
      (seg = 6 → s.cfg.ramSize ≠ 0 →
        t.response = some ⟨false, .ok, false, (Memory.read s.ram (n % s.cfg.ramSize)).setWidth 32⟩) ∧
      (seg = 7 → t.response =
        some ⟨false, .ok, false, (Memory.read s.rom.image (n % max s.rom.len 65536 % s.rom.len)).setWidth 32⟩)

/-- R55, R101, R104: RDH outside Video and HWControl: the aligned halfword, low byte at the lower index. -/
def Obligations.RdhReadsMemory : Prop :=
  ∀ (s : State) (c A : Word), s.Ready → s.Inv → 0 ≤ c.toInt →
    let n := 2 * (A.toNat % 2 ^ 27 / 2)
    let seg := n / 2 ^ 24
    seg ≠ 0 → seg ≠ 2 →
    ∃ (t : State) (ua : Bool) (v : Word), exec (.rdh c A) s = .next t ∧ t.toBlock = s.toBlock ∧ SameInterface s t ∧
      t.response = some ⟨ua, .ok, false, v⟩ ∧ (ua = true ↔ seg = 6 ∧ s.cfg.ramSize = 0) ∧
      (seg = 1 ∨ seg = 3 ∨ seg = 4 → v = 0) ∧
      (seg = 5 → v.toNat =
        (Memory.read s.wram (n % 65536)).toNat + 256 * (Memory.read s.wram (n % 65536 + 1)).toNat) ∧
      (seg = 6 → s.cfg.ramSize = 0 → v = 0) ∧
      (seg = 6 → s.cfg.ramSize ≠ 0 → v.toNat =
        (Memory.read s.ram (n % s.cfg.ramSize)).toNat + 256 * (Memory.read s.ram (n % s.cfg.ramSize + 1)).toNat) ∧
      (seg = 7 → v.toNat =
        (Memory.read s.rom.image (n % max s.rom.len 65536 % s.rom.len)).toNat +
          256 * (Memory.read s.rom.image ((n % max s.rom.len 65536 + 1) % s.rom.len)).toNat)

/-- R102, R105, R118, R121, R123, R125: WRB outside Video, Audio and HWControl: one byte of WorkRAM or of a present
CartRAM takes `d`; every other byte, register and status bit is as before. -/
def Obligations.WrbStoresOneByte : Prop :=
  ∀ (s : State) (c A : Word) (d : Byte), s.Ready → s.Inv → 0 ≤ c.toInt →
    let n := A.toNat % 2 ^ 27
    let seg := n / 2 ^ 24
    3 ≤ seg →
    ∃ t, exec (.wrb c A d) s = .next t ∧ SameInterface s t ∧
      t.toBlock = { s.toBlock with wram := t.wram, ram := t.ram } ∧
      t.response = some ⟨decide (seg = 6 ∧ s.cfg.ramSize = 0), .ok, false, 0⟩ ∧
      (∀ i, Memory.read t.wram i = if seg = 5 ∧ i = n % 65536 then d else Memory.read s.wram i) ∧
      (∀ i, Memory.read t.ram i =
        if seg = 6 ∧ s.cfg.ramSize ≠ 0 ∧ i = n % s.cfg.ramSize then d else Memory.read s.ram i)

/-- R55, R102, R106: WRH outside Video, Audio and HWControl: the two bytes of the aligned halfword. -/
def Obligations.WrhStoresTwoBytes : Prop :=
  ∀ (s : State) (c A : Word) (d : Half), s.Ready → s.Inv → 0 ≤ c.toInt →
    let n := 2 * (A.toNat % 2 ^ 27 / 2)
    let seg := n / 2 ^ 24
    3 ≤ seg →
    ∃ t, exec (.wrh c A d) s = .next t ∧ SameInterface s t ∧
      t.toBlock = { s.toBlock with wram := t.wram, ram := t.ram } ∧
      t.response = some ⟨decide (seg = 6 ∧ s.cfg.ramSize = 0), .ok, false, 0⟩ ∧
      (∀ i, Memory.read t.wram i =
        if seg = 5 ∧ i = n % 65536 then BitVec.ofNat 8 d.toNat
        else if seg = 5 ∧ i = n % 65536 + 1 then BitVec.ofNat 8 (d.toNat / 256)
        else Memory.read s.wram i) ∧
      (∀ i, Memory.read t.ram i =
        if seg = 6 ∧ s.cfg.ramSize ≠ 0 ∧ i = n % s.cfg.ramSize then BitVec.ofNat 8 d.toNat
        else if seg = 6 ∧ s.cfg.ramSize ≠ 0 ∧ i = n % s.cfg.ramSize + 1 then BitVec.ofNat 8 (d.toNat / 256)
        else Memory.read s.ram i)

/-- R107, R108: a read of the Video segment, byte or halfword, is one ReadRegister call with the cycle, the masked address
and the width; the response is the low `8n` bits of its value. -/
def Obligations.VideoReadIsForwarded : Prop :=
  ∀ (s : State) (n : Width) (c A : Word), s.Ready → 0 ≤ c.toInt → accessAddr n A / 2 ^ 24 = 0 →
    let q := Call.readRegister .video c.toInt (BitVec.ofNat 27 (accessAddr n A)) n
    ∃ t, exec (readRequest n c A) s = .next t ∧ Forwarded q s t ∧
      t.response =
        some ⟨false, .ok, false, BitVec.ofNat 32 ((s.answer q).value.toNat % 2 ^ (8 * n.bytes))⟩

/-- R107, R109, R111: a write of the Video or the Audio segment is one WriteRegister call, for Audio at the quarter-rate
time `(c + ACF) >> 2`, formed without wrap-around. -/
def Obligations.VideoAndAudioWritesAreForwarded : Prop :=
  ∀ (s : State) (n : Width) (c A : Word) (v : Half), s.Ready → 0 ≤ c.toInt →
    let a := BitVec.ofNat 27 (accessAddr n A)
    let w := BitVec.ofNat 16 (v.toNat % 2 ^ (8 * n.bytes))
    (accessAddr n A / 2 ^ 24 = 0 →
      ∃ t, exec (writeRequest n c A v) s = .next t ∧ t.response = some ⟨false, .ok, false, 0⟩ ∧
        Forwarded (.writeRegister .video c.toInt a n w) s t) ∧
    (accessAddr n A / 2 ^ 24 = 1 →
      ∃ t, exec (writeRequest n c A v) s = .next t ∧ t.response = some ⟨false, .ok, false, 0⟩ ∧
        Forwarded (.writeRegister .audio (((c.toNat + s.acf.toNat) / 4 : Nat) : Int) a n w) s t)

/-- R112 to R116, R119: a read of the HWControl segment: one byte-wide access whatever the width. -/
def Obligations.HwControlReads : Prop :=
  ∀ (s : State) (n : Width) (c A : Word), s.Ready → 0 ≤ c.toInt → accessAddr n A / 2 ^ 24 = 2 →
    let a := BitVec.ofNat 27 (accessAddr n A)
    let kind := hwKindOf s.cfg.hwmap a
    ∃ t, exec (readRequest n c A) s = .next t ∧
      (∀ p, kind = .timer ∧ p = Periph.timer ∨ kind = .input ∧ p = Periph.input →
        let q := Call.readRegister p c.toInt a .byte
        Forwarded q s t ∧ t.response = some ⟨false, .ok, false, BitVec.ofNat 32 ((s.answer q).value.toNat % 256)⟩) ∧
      (kind = .wcr → t.toBlock = s.toBlock ∧ SameInterface s t ∧
        t.response = some ⟨false, .ok, false, (s.cfg.wcrReadOr ||| s.wcr.setWidth 8).setWidth 32⟩) ∧
      (kind = .none → t.toBlock = s.toBlock ∧ SameInterface s t ∧ t.response = some ⟨true, .ok, false, 0⟩)

/-- R112 to R116, R119: a write of the HWControl segment: `v[7:0]` to one register; WCR keeps two bits. -/
def Obligations.HwControlWrites : Prop :=
  ∀ (s : State) (n : Width) (c A : Word) (v : Half), s.Ready → 0 ≤ c.toInt → accessAddr n A / 2 ^ 24 = 2 →
    let a := BitVec.ofNat 27 (accessAddr n A)
    let kind := hwKindOf s.cfg.hwmap a
    ∃ t, exec (writeRequest n c A v) s = .next t ∧
      t.response = some ⟨decide (kind = .none), .ok, false, 0⟩ ∧
      (∀ p, kind = .timer ∧ p = Periph.timer ∨ kind = .input ∧ p = Periph.input →
        Forwarded (.writeRegister p c.toInt a .byte (BitVec.ofNat 16 (v.toNat % 256))) s t) ∧
      (kind = .wcr → t.toBlock = { s.toBlock with wcr := BitVec.ofNat 2 v.toNat } ∧ SameInterface s t) ∧
      (kind = .none → t.toBlock = s.toBlock ∧ SameInterface s t)

/-- R112: only the low byte of the address is decoded in HWControl, and the default map (R117; the spec marks it as
general knowledge, assumption 2) has its seven offsets. -/
def Obligations.HwControlDecodesLowByte : Prop :=
  (∀ (m : List (Byte × HwKind)) (a b : Addr), a.toNat % 256 = b.toNat % 256 → hwKindOf m a = hwKindOf m b) ∧
  (∀ a : Addr, hwKindOf Config.default.hwmap a =
    let k := a.toNat % 256
    if k = 0x10 ∨ k = 0x14 ∨ k = 0x28 then .input
    else if k = 0x18 ∨ k = 0x1C ∨ k = 0x20 then .timer
    else if k = 0x24 then .wcr else .none)

/-- R51: two addresses that differ only above bit 26 are the same to every bus operation. -/
def Obligations.BusAddressesTile : Prop :=
  ∀ (s : State) (c A : Word) (k : Nat) (b : Byte) (h : Half),
    let A' := A + BitVec.ofNat 32 (k * 134217728)
    exec (.rdb c A') s = exec (.rdb c A) s ∧ exec (.rdh c A') s = exec (.rdh c A) s ∧
    exec (.wrb c A' b) s = exec (.wrb c A b) s ∧ exec (.wrh c A' h) s = exec (.wrh c A h) s

/-- R56, R104, R106: a halfword operation ignores address bit 0. -/
def Obligations.HalfwordIgnoresAddressBit0 : Prop :=
  ∀ (s : State) (c A : Word) (h : Half),
    exec (.rdh c (A ||| 1)) s = exec (.rdh c A) s ∧ exec (.wrh c (A ||| 1) h) s = exec (.wrh c A h) s

/-- R128 (b): a buffer gives back what was written, byte or halfword, at any later cycle. -/
def Obligations.ReadAfterWriteInBuffers : Prop :=
  ∀ (s : State) (n : Width) (c c' A : Word) (v : Half), s.Ready → s.Inv → 0 ≤ c.toInt → 0 ≤ c'.toInt →
    (accessAddr n A / 2 ^ 24 = 5 ∨ accessAddr n A / 2 ^ 24 = 6 ∧ s.cfg.ramSize ≠ 0) →
    ∃ t u, exec (writeRequest n c A v) s = .next t ∧ exec (readRequest n c' A) t = .next u ∧
      u.response =
        some ⟨false, .ok, false, BitVec.ofNat 32 (v.toNat % 2 ^ (8 * n.bytes))⟩

/-- R92: the 32-bit pseudo-operations: `wrw` writes the two halfwords, lower address first, and `rdw` gives the 32 bits
back, from WorkRAM or a CartRAM of 4 bytes or more (one of 2 bytes has room for one half only). -/
def Obligations.WordWriteThenWordRead : Prop :=
  ∀ (s : State) (c c' A d : Word), s.Ready → s.Inv → 0 ≤ c.toInt → 0 ≤ c'.toInt → A.toNat % 4 = 0 →
    (A.toNat % 2 ^ 27 / 2 ^ 24 = 5 ∨ A.toNat % 2 ^ 27 / 2 ^ 24 = 6 ∧ 4 ≤ s.cfg.ramSize) →
    ∃ (t u v : State) (lo hi : Word), execAll (expand (.wrw c A d)) s = .next t ∧
      exec (.rdh c' A) t = .next u ∧ u.response = some ⟨false, .ok, false, lo⟩ ∧
      exec (.rdh c' (A + 2)) u = .next v ∧ v.response = some ⟨false, .ok, false, hi⟩ ∧
      execAll (expand (.rdw c' A)) t = .next v ∧ rdwValue lo hi = d

/-- R128 (e): bus traffic whose contract call, if any, is answered without callbacks leaves EV, HALT, IRQ and the driven
levels alone. -/
def Obligations.BusTrafficWithoutCallbacks : Prop :=
  ∀ (s t : State) (n : Width) (c A : Word) (v : Half),
    exec (readRequest n c A) s = .next t ∨ exec (writeRequest n c A v) s = .next t →
    (∀ q, t.calls = q :: s.calls → (s.answer q).callbacks = []) →
    (∀ p, t.ev p = s.ev p) ∧ t.halt = s.halt ∧ t.irq = s.irq ∧ t.levels = s.levels

/-! ## Sequencer -/

/-- R141: SETEV stores the due time and lowers the halt point when the time is earlier; nothing else changes. -/
def Obligations.SetevStoresAndLowersHalt : Prop :=
  ∀ (s : State) (p : EvClass) (cls : BitVec 2) (T : Time), s.Ready →
    cls.toNat = (match p with | .video => 0 | .timer => 1 | .input => 2) →
    ∃ t, exec (.setev cls T) s = .next t ∧ t.response = some ⟨false, .ok, false, 0⟩ ∧ SameInterface s t ∧
      t.ev p = T ∧ (∀ q, q ≠ p → t.ev q = s.ev q) ∧
      (T.val < s.halt.val → t.halt = T) ∧ (¬ T.val < s.halt.val → t.halt = s.halt) ∧
      t.toBlock = { s.toBlock with
        evVideo := t.evVideo, evTimer := t.evTimer, evInput := t.evInput, halt := t.halt }

/-- R142: NEXTB answers the least due time, `None` if there is none, and changes nothing. -/
def Obligations.NextbAnswersLeastDueTime : Prop :=
  ∀ s : State, s.Ready →
    ∃ (t : State) (B : Time), exec .nextb s = .next t ∧ t.toBlock = s.toBlock ∧ SameInterface s t ∧
      (∃ p, B = s.ev p) ∧ (∀ p, B.val ≤ (s.ev p).val) ∧
      t.response = some (match B with | .none => ⟨false, .ok, true, 0⟩ | .fin w => ⟨false, .ok, false, w⟩)

/-- R144: STEP tests Video, then Timer, then Input, each on the state the one before left, and services what is due at
most once; the least due time that results is answered and stored in HALT. -/
def Obligations.StepServicesWhatIsDue : Prop :=
  ∀ (s : State) (c : Word), s.Ready → 0 ≤ c.toInt →
    ∃ s1 s2 s3 t : State, exec (.step c) s = .next t ∧
      (if s.evVideo.val ≤ (c.toInt : WithTop Int) then s1 = service .video c.toInt s else s1 = s) ∧
      (if s1.evTimer.val ≤ (c.toInt : WithTop Int) then s2 = service .timer c.toInt s1 else s2 = s1) ∧
      (if s2.evInput.val ≤ (c.toInt : WithTop Int) then s3 = service .input c.toInt s2 else s3 = s2) ∧
      t.toBlock = { s3.toBlock with halt := t.halt } ∧ SameInterface s3 t ∧
      t.halt.val = min s3.evVideo.val (min s3.evTimer.val s3.evInput.val) ∧
      t.response = some (match t.halt with | .none => ⟨false, .ok, true, 0⟩ | .fin w => ⟨false, .ok, false, w⟩) ∧
      SameStorage s t ∧ t.acf = s.acf ∧ t.halted = s.halted

/-- R143: a service makes one Update call, applies its callbacks, and stores the returned time last. R11, R126: a contract
call is noted and its callbacks are applied in list order: a SetEvent stores the due time and lowers HALT as R141 says, an
Assert writes the bit and drives the level as R171 says, and the rest is applied to the state it left. -/
def Obligations.ServiceStoresReturnedTimeLast : Prop :=
  (∀ (p : EvClass) (c : Int) (s : State),
    (service p c s).ev p = (s.answer (.update p c)).time ∧
    (service p c s).calls = .update p c :: s.calls ∧
    (∀ q, q ≠ p → (service p c s).ev q = (applyCallbacks (s.answer (.update p c)).callbacks s).ev q) ∧
    (service p c s).halt = (applyCallbacks (s.answer (.update p c)).callbacks s).halt ∧
    (service p c s).irq = (applyCallbacks (s.answer (.update p c)).callbacks s).irq ∧
    (service p c s).levels = (applyCallbacks (s.answer (.update p c)).callbacks s).levels ∧
    SameStorage s (service p c s) ∧ (service p c s).acf = s.acf ∧ (service p c s).halted = s.halted) ∧
  (∀ (q : Call) (s : State), callPeriph q s = applyCallbacks (s.answer q).callbacks { s with calls := q :: s.calls }) ∧
  (∀ s : State, applyCallbacks [] s = s) ∧
  (∀ (p : EvClass) (T : Time) (cbs : List Callback) (s : State),
    ∃ u, applyCallbacks (.setEvent p T :: cbs) s = applyCallbacks cbs u ∧
      u.ev p = T ∧ (∀ q, q ≠ p → u.ev q = s.ev q) ∧
      (T.val < s.halt.val → u.halt = T) ∧ (¬ T.val < s.halt.val → u.halt = s.halt) ∧
      u.toBlock = { s.toBlock with
        evVideo := u.evVideo, evTimer := u.evTimer, evInput := u.evInput, halt := u.halt } ∧
      SameInterface s u ∧ u.response = s.response ∧ u.log = s.log) ∧
  (∀ (src : Fin 5) (on : Bool) (cbs : List Callback) (s : State),
    ∃ u, applyCallbacks (.assert src on :: cbs) s = applyCallbacks cbs u ∧
      (∀ k, k < 5 → u.irq.getLsbD k = if k = src.val then on else s.irq.getLsbD k) ∧
      u = { s with irq := u.irq, levels := level u.irq :: s.levels })

/-- R144: with nothing due, STEP calls no peripheral and only re-arms HALT. -/
def Obligations.StepWithNothingDue : Prop :=
  ∀ (s : State) (c : Word), s.Ready → 0 ≤ c.toInt → (∀ p, (c.toInt : WithTop Int) < (s.ev p).val) →
    ∃ t, exec (.step c) s = .next t ∧ t.calls = s.calls ∧ t.toBlock = { s.toBlock with halt := t.halt } ∧
      t.halt.val = min s.evVideo.val (min s.evTimer.val s.evInput.val)

/-- R148: FUPD services Video, Timer and Input in that order, whatever was due, and re-arms HALT to the least due time; if
the Updates call nothing back the due times are the three returned ones. -/
def Obligations.FupdUpdatesAllThree : Prop :=
  ∀ (s : State) (c : Word), s.Ready → 0 ≤ c.toInt →
    let s3 := service .input c.toInt (service .timer c.toInt (service .video c.toInt s))
    ∃ t, exec (.fupd c) s = .next t ∧ t.response = some ⟨false, .ok, false, 0⟩ ∧
      t.toBlock = { s3.toBlock with halt := t.halt } ∧ SameInterface s3 t ∧
      t.calls = .update .input c.toInt :: .update .timer c.toInt :: .update .video c.toInt :: s.calls ∧
      t.halt.val = min t.evVideo.val (min t.evTimer.val t.evInput.val) ∧
      SameStorage s t ∧ t.acf = s.acf ∧ t.halted = s.halted ∧
      (QuietUpdates c.toInt s → (∀ p, t.ev p = returnedTime c.toInt s p) ∧ t.irq = s.irq ∧ t.levels = s.levels)

/-- R151: with every due time after `c`, REBASE subtracts `c` from the finite ones and changes nothing else, HALT
included; with some due time not after `c` it latches HALTED, changes nothing else and answers SCHED_VIOLATION. -/
def Obligations.RebaseSubtractsOrHalts : Prop :=
  ∀ (s : State) (c : Word), s.Ready → 0 ≤ c.toInt →
    ∃ t, exec (.rebase c) s = .next t ∧ SameInterface s t ∧
      ((∀ p, (c.toInt : WithTop Int) < (s.ev p).val) →
        t.response = some ⟨false, .ok, false, 0⟩ ∧
        t.toBlock = { s.toBlock with evVideo := t.evVideo, evTimer := t.evTimer, evInput := t.evInput } ∧
        ∀ p, (s.ev p = .none → t.ev p = .none) ∧
          ∀ w, s.ev p = .fin w → ∃ w', t.ev p = .fin w' ∧ w'.toInt = w.toInt - c.toInt) ∧
      (∀ p, (s.ev p).val ≤ (c.toInt : WithTop Int) →
        t.response = some ⟨false, .schedViolation, false, 0⟩ ∧ t.toBlock = { s.toBlock with halted := true })

/-- R152: a rebase violation, from REBASE or inside FREND, changes no event register, sets HALTED and answers
SCHED_VIOLATION; from then on the block refuses everything but PWR, LDIMG and EXPT. -/
def Obligations.RebaseViolationHaltsTheBlock : Prop :=
  ∀ (s : State) (c : Word), s.Ready → 0 ≤ c.toInt →
    let s3 := audioCarry c.toInt (forceUpdateAll c.toInt (fixNonEvents s))
    ((∃ p, (s.ev p).val ≤ (c.toInt : WithTop Int)) →
      ∃ t, exec (.rebase c) s = .next t ∧ t.toBlock = { s.toBlock with halted := true } ∧
        t.response = some ⟨false, .schedViolation, false, 0⟩) ∧
    ((∃ p, (s3.ev p).val ≤ (c.toInt : WithTop Int)) →
      ∃ t, exec (.frend c) s = .next t ∧ t.toBlock = { s3.toBlock with halted := true } ∧
        t.response = some ⟨false, .schedViolation, false, 0⟩) ∧
    (∀ t : State, t.loaded = true → t.halted = true →
      ∀ i : Instr, i ≠ .pwr → (∀ len, i ≠ .ldimg len) → (∀ r, i ≠ .expt r) → exec i t = .refused .halted)

/-- R153: two rebases one after the other are one rebase by the sum. -/
def Obligations.RebaseComposes : Prop :=
  ∀ (s s1 s2 : State) (c1 c2 : Word), c1.toInt + c2.toInt < 2 ^ 31 →
    exec (.rebase c1) s = .next s1 → s1.halted = false → exec (.rebase c2) s1 = .next s2 → s2.halted = false →
    ∃ s3, exec (.rebase (c1 + c2)) s = .next s3 ∧ s3.halted = false ∧ ∀ p, s3.ev p = s2.ev p

/-- R164: after two rebases by `c1` and `c2` with nothing in between, NEXTB answers the old boundary less `c1 + c2`; if it
was `None` it still is. -/
def Obligations.FramesWithoutRescheduling : Prop :=
  ∀ (s s1 s2 : State) (c1 c2 : Word),
    exec (.rebase c1) s = .next s1 → s1.halted = false → exec (.rebase c2) s1 = .next s2 → s2.halted = false →
    ∃ t u, exec .nextb s = .next t ∧ exec .nextb s2 = .next u ∧
      (t.response = some ⟨false, .ok, true, 0⟩ → u.response = some ⟨false, .ok, true, 0⟩) ∧
      ∀ b, t.response = some ⟨false, .ok, false, b⟩ →
        ∃ b', u.response = some ⟨false, .ok, false, b'⟩ ∧ b'.toInt = b.toInt - c1.toInt - c2.toInt

/-- R155: FIXNE turns exactly the finite due times at or above FAR_THRESHOLD into `None`. -/
def Obligations.FixneClearsFarTimes : Prop :=
  ∀ s : State, s.Ready →
    ∃ t, exec .fixne s = .next t ∧ t.response = some ⟨false, .ok, false, 0⟩ ∧ SameInterface s t ∧
      t.toBlock = { s.toBlock with evVideo := t.evVideo, evTimer := t.evTimer, evInput := t.evInput } ∧
      ∀ p, t.ev p = (match s.ev p with
        | .none => .none
        | .fin w => if s.cfg.farThreshold ≤ w.toInt then .none else .fin w)

/-- R158: ACARRY leaves `(c + ACF) mod 4` in ACF and changes nothing else. -/
def Obligations.AcarryCarriesLowBits : Prop :=
  ∀ (s : State) (c : Word), s.Ready → 0 ≤ c.toInt →
    ∃ t, exec (.acarry c) s = .next t ∧ t.response = some ⟨false, .ok, false, 0⟩ ∧ SameInterface s t ∧
      t.toBlock = { s.toBlock with acf := t.acf } ∧ t.acf.toNat = (c.toNat + s.acf.toNat) % 4

/-- R158: the audio time base is continuous across a frame end, and two carries are one carry by the sum. -/
def Obligations.AudioTimeIsContinuous : Prop :=
  ∀ (s t : State) (c : Word), exec (.acarry c) s = .next t →
    (∀ x : Int, 0 ≤ x →
      audioTime x t.acf = audioTime (c.toInt + x) s.acf - audioTime c.toInt s.acf) ∧
    (∀ (c' : Word) (u : State), c.toInt + c'.toInt < 2 ^ 31 → exec (.acarry c') t = .next u →
      ∃ v, exec (.acarry (c + c')) s = .next v ∧ v.acf = u.acf)

/-- R159: FREND is FIXNE, FUPD, ACARRY, REBASE one after the other, and then HALT is re-armed; after a violation the steps
already done stay done. -/
def Obligations.FrendIsTheSequence : Prop :=
  ∀ (s : State) (c : Word), s.Ready → 0 ≤ c.toInt →
    ∃ t4 t, execAll [.fixne, .fupd c, .acarry c, .rebase c] s = .next t4 ∧ exec (.frend c) s = .next t ∧
      t.response = t4.response ∧ SameInterface t4 t ∧
      (t4.halted = true → t.toBlock = t4.toBlock) ∧
      (t4.halted = false → t.toBlock = { t4.toBlock with halt := t.halt } ∧
        t.halt.val = min t4.evVideo.val (min t4.evTimer.val t4.evInput.val))

/-- R242, R246: peripherals that schedule ahead and call nothing back never cause a violation at a frame end; the due
times are then the returned ones in the new origin. -/
def Obligations.FrendSucceedsWhenScheduledAhead : Prop :=
  ∀ (s : State) (c : Word), s.Ready → 0 ≤ c.toInt → SchedulesAhead c.toInt s →
    ∃ t, exec (.frend c) s = .next t ∧ t.halted = false ∧ t.response = some ⟨false, .ok, false, 0⟩ ∧
      (∀ p, (t.ev p).val + (c.toInt : WithTop Int) = (returnedTime c.toInt s p).val) ∧
      t.halt.val = min t.evVideo.val (min t.evTimer.val t.evInput.val) ∧
      t.acf.toNat = (c.toNat + s.acf.toNat) % 4 ∧ t.irq = s.irq ∧ SameStorage s t

/-! ## Interrupt arbiter -/

/-- R171, R173: IRQA writes one bit of IRQ, drives the level to the CPU on every call, and answers it. -/
def Obligations.IrqaWritesOneBit : Prop :=
  ∀ (s : State) (src : BitVec 3) (on : Bool), s.Ready → src.toNat < 5 →
    ∃ t, exec (.irqa src on) s = .next t ∧
      t.toBlock = { s.toBlock with irq := t.irq } ∧
      (∀ k, k < 5 → t.irq.getLsbD k = if k = src.toNat then on else s.irq.getLsbD k) ∧
      t.levels = level t.irq :: s.levels ∧
      t.response = some (match level t.irq with
        | none => ⟨false, .ok, true, 0⟩
        | some k => ⟨false, .ok, false, BitVec.ofNat 32 k.val⟩) ∧
      t.calls = s.calls ∧ t.cfg = s.cfg ∧ t.requests = s.requests ∧ t.payloadIn = s.payloadIn ∧
      t.payloadOut = s.payloadOut ∧ t.queries = s.queries ∧ t.env = s.env

/-- R172, R173: the level is the greatest asserted index, none exactly when nothing is asserted, and the four wires
`{irq_none, irq_level}` carry it. -/
def Obligations.LevelIsHighestAsserted : Prop :=
  ∀ irq : BitVec 5, (level irq = none ↔ irq = 0) ∧
    (∀ k : Fin 5, level irq = some k ↔ (irq.getLsbD k.val = true ∧ ∀ j : Fin 5, k < j → irq.getLsbD j.val = false)) ∧
    (level irq = none → levelWires (level irq) = 0b1000) ∧
    ∀ k : Fin 5, level irq = some k → levelWires (level irq) = BitVec.ofNat 4 k.val

/-- R174 (a): asserting a clear source and deasserting it restores IRQ and the level. -/
def Obligations.AssertThenDeassertRestores : Prop :=
  ∀ (s t u : State) (src : BitVec 3), s.irq.getLsbD src.toNat = false →
    exec (.irqa src true) s = .next t → exec (.irqa src false) t = .next u → u.irq = s.irq ∧ u.ilevel = s.ilevel

/-! ## Host port -/

/-- R181, R230: PWR clears the block, keeps ROM, RAM and LOADED, powers the four peripherals one after another, drives the
level of what their callbacks left in IRQ, services three at cycle 0 and re-arms HALT. If none of those seven calls is
answered with a callback, IRQ is 0, exactly one level is driven, `none`, and the due times are the returned ones. -/
def Obligations.PwrRebuildsTheBlock : Prop :=
  ∀ s : State, s.loaded = true →
    let s0 : State := { s with
      wram := [], wcr := 0, acf := 0, irq := 0, halted := false
      evVideo := .none, evTimer := .none, evInput := .none, halt := .none }
    let s1 := callPeriph (.power .audio) (callPeriph (.power .input) (callPeriph (.power .timer)
      (callPeriph (.power .video) s0)))
    let s3 := service .input 0 (service .timer 0 (service .video 0 { s1 with levels := level s1.irq :: s1.levels }))
    ∃ t, exec .pwr s = .next t ∧ t.response = some ⟨false, .ok, false, 0⟩ ∧
      t.toBlock = { s3.toBlock with halt := t.halt } ∧ SameInterface s3 t ∧
      t.halted = false ∧ (∀ i, Memory.read t.wram i = 0) ∧ t.wcr = 0 ∧ t.acf = 0 ∧
      t.rom = s.rom ∧ t.ram = s.ram ∧ t.loaded = true ∧ t.cfg = s.cfg ∧ t.requests = s.requests ∧
      t.payloadIn = s.payloadIn ∧ t.payloadOut = s.payloadOut ∧ t.queries = s.queries ∧ t.env = s.env ∧
      t.calls = [.update .input 0, .update .timer 0, .update .video 0, .power .audio, .power .input, .power .timer,
        .power .video] ++ s.calls ∧
      t.halt.val = min t.evVideo.val (min t.evTimer.val t.evInput.val) ∧
      (QuietPowers s → QuietUpdates 0 (afterPowers s) →
        t.irq = 0 ∧ t.levels = none :: s.levels ∧ ∀ p, t.ev p = returnedTime 0 (afterPowers s) p)

/-- R183: LDIMG with an accepted length: ROM is the image repeated, RAM is RAM_INIT, the block is loaded, and what follows is
what PWR leaves on that block; the answer is ROM_SIZE. The image is the next `L` bytes of the payload stream (bytes not there
yet are free, assumption 8). If none of the seven calls is answered with a callback, IRQ is 0, exactly one level is driven,
`none`, and the due times are the returned ones. -/
def Obligations.LdimgInstallsTheImage : Prop :=
  ∀ (s : State) (len : Word), ImageLength len.toNat →
    ∃ t s1 u : State, exec (.ldimg len) s = .next t ∧
      t.response = some ⟨false, .ok, false, BitVec.ofNat 32 (max len.toNat 65536)⟩ ∧
      s1.toBlock = { s.toBlock with rom := s1.rom, ram := s.cfg.ramInit, loaded := true } ∧
      s1.rom.len = len.toNat ∧
      (∀ i, i % len.toNat < s.payloadIn.length → s1.rom.read i = s.payloadIn.getD (i % len.toNat) 0) ∧
      s1.payloadIn = s.payloadIn.drop len.toNat ∧ s1.payloadOut = s.payloadOut ∧ s1.cfg = s.cfg ∧
      s1.requests = s.requests ∧ s1.levels = s.levels ∧ s1.calls = s.calls ∧ s1.queries = s.queries ∧
      s1.env = { s.env with drawn := s1.env.drawn } ∧
      exec .pwr s1 = .next u ∧ t.toBlock = u.toBlock ∧ SameInterface u t ∧
      t.loaded = true ∧ t.halted = false ∧ t.rom = s1.rom ∧ t.ram = s.cfg.ramInit ∧
      (∀ i, Memory.read t.wram i = 0) ∧ t.wcr = 0 ∧ t.acf = 0 ∧
      t.calls = [.update .input 0, .update .timer 0, .update .video 0, .power .audio, .power .input, .power .timer,
        .power .video] ++ s.calls ∧
      t.halt.val = min t.evVideo.val (min t.evTimer.val t.evInput.val) ∧
      (QuietPowers s → QuietUpdates 0 (afterPowers s) →
        t.irq = 0 ∧ t.levels = none :: s.levels ∧ ∀ p, t.ev p = returnedTime 0 (afterPowers s) p)

/-- R184: LDIMG with any other length answers LOAD_ERROR and changes no field of the block. -/
def Obligations.LdimgRejectsBadLength : Prop :=
  ∀ (s : State) (len : Word), ¬ ImageLength len.toNat →
    ∃ t, exec (.ldimg len) s = .next t ∧ t.toBlock = s.toBlock ∧ t.calls = s.calls ∧ t.queries = s.queries ∧
      t.levels = s.levels ∧ t.cfg = s.cfg ∧ t.requests = s.requests ∧ t.payloadOut = s.payloadOut ∧
      t.env = { s.env with drawn := t.env.drawn } ∧
      t.response = some ⟨false, .loadError, false, 0⟩

/-- R185, R186: SVSZ asks each peripheral for its state block, in the order Video, Timer, Input, Audio (R180), answers the
length of the snapshot and changes nothing; a total of 2^32 or more has no stated answer (assumption 9). -/
def Obligations.SvszAnswersSnapshotLength : Prop :=
  ∀ s : State, s.Ready →
    let n := s.calls.length
    ∃ (t : State) (v : Word), exec .svsz s = .next t ∧ t.toBlock = s.toBlock ∧ t.calls = s.calls ∧
      t.queries = [(n, .serializeState .audio), (n, .serializeState .input), (n, .serializeState .timer),
        (n, .serializeState .video)] ++ s.queries ∧
      t.levels = s.levels ∧ t.cfg = s.cfg ∧ t.requests = s.requests ∧ t.payloadIn = s.payloadIn ∧
      t.payloadOut = s.payloadOut ∧ t.env = { s.env with drawn := t.env.drawn } ∧
      t.response = some ⟨false, .ok, false, v⟩ ∧
      ((snapshot s).length < 2 ^ 32 → v.toNat = (snapshot s).length)

/-- R185: the total size of a snapshot. -/
def Obligations.SnapshotTotalSize : Prop :=
  ∀ s : State, (snapshot s).length = 65623 + s.cfg.ramSize +
    ((s.stateBlock .video).length + (s.stateBlock .timer).length + (s.stateBlock .input).length +
      (s.stateBlock .audio).length)

/-- R185: a snapshot is seven records back to back, each a name padded to 8 bytes, a little-endian 32-bit length and the
data: BUSREG (WCR, IRQ, ACF), WRAM, CRAM, VIDEO, TIMER, INPUT, AUDIO; and where WorkRAM and CartRAM stand in it. -/
def Obligations.SnapshotLayout : Prop :=
  ∀ s : State,
    let u32 := fun n : Nat =>
      [BitVec.ofNat 8 n, BitVec.ofNat 8 (n / 2 ^ 8), BitVec.ofNat 8 (n / 2 ^ 16), BitVec.ofNat 8 (n / 2 ^ 24)]
    let block := fun (p : Periph) => u32 (s.stateBlock p).length ++ s.stateBlock p
    (∃ w r : List Byte, w.length = 65536 ∧ r.length = s.cfg.ramSize ∧
      (∀ i, i < 65536 → w.getD i 0 = Memory.read s.wram i) ∧
      (∀ i, i < s.cfg.ramSize → r.getD i 0 = Memory.read s.ram i) ∧
      snapshot s =
        [0x42, 0x55, 0x53, 0x52, 0x45, 0x47, 0x00, 0x00, 0x03, 0x00, 0x00, 0x00,
          BitVec.ofNat 8 s.wcr.toNat, BitVec.ofNat 8 s.irq.toNat, BitVec.ofNat 8 s.acf.toNat] ++
        ([0x57, 0x52, 0x41, 0x4D, 0x00, 0x00, 0x00, 0x00, 0x00, 0x00, 0x01, 0x00] ++ w) ++
        ([0x43, 0x52, 0x41, 0x4D, 0x00, 0x00, 0x00, 0x00] ++ u32 s.cfg.ramSize ++ r) ++
        ([0x56, 0x49, 0x44, 0x45, 0x4F, 0x00, 0x00, 0x00] ++ block .video) ++
        ([0x54, 0x49, 0x4D, 0x45, 0x52, 0x00, 0x00, 0x00] ++ block .timer) ++
        ([0x49, 0x4E, 0x50, 0x55, 0x54, 0x00, 0x00, 0x00] ++ block .input) ++
        ([0x41, 0x55, 0x44, 0x49, 0x4F, 0x00, 0x00, 0x00] ++ block .audio)) ∧
    (∀ i, i < 65536 → (snapshot s).getD (27 + i) 0 = Memory.read s.wram i) ∧
    (∀ i, i < s.cfg.ramSize → (snapshot s).getD (65575 + i) 0 = Memory.read s.ram i)

/-- R187: SAVE into a large enough buffer puts the snapshot on the payload stream, answers its length and changes nothing;
into a smaller one it is refused. Two SAVE with nothing between give identical bytes. That the state blocks are asked for
twice, for the size and for the bytes, is read from the rule's pseudocode (assumption 22). -/
def Obligations.SaveEmitsSnapshot : Prop :=
  ∀ (s : State) (cap : Word), s.Ready →
    let n := s.calls.length
    let pass : List (Nat × Query) := [(n, .serializeState .audio), (n, .serializeState .input),
      (n, .serializeState .timer), (n, .serializeState .video)]
    ((snapshot s).length ≤ cap.toNat →
      ∃ t, exec (.save cap) s = .next t ∧ t.toBlock = s.toBlock ∧ t.calls = s.calls ∧
        t.queries = pass ++ pass ++ s.queries ∧ t.levels = s.levels ∧
        t.cfg = s.cfg ∧ t.requests = s.requests ∧ t.env = s.env ∧ t.payloadIn = s.payloadIn ∧
        t.payloadOut = s.payloadOut ++ snapshot s ∧ snapshot t = snapshot s ∧
        t.response = some ⟨false, .ok, false, BitVec.ofNat 32 (snapshot s).length⟩) ∧
    (cap.toNat < (snapshot s).length → exec (.save cap) s = .refused .bufferTooSmall)

/-- R188, R190: RSTR is all-or-nothing. A payload that is seven records of the layout of R185, whose lengths, BUSREG bytes and
peripheral blocks pass, is committed: registers and memories from the records, each block validated once and then given to its
peripheral, an empty schedule, the level of the restored IRQ driven, the services of FUPD at `c`, OK. Any other payload changes
no field of the block, calls no peripheral but for ValidateState (how often is left open, assumption 22) and answers
SER_MISMATCH. Payload bytes that are not on the stream yet are free (assumption 8). -/
def Obligations.RestoreIsAllOrNothing : Prop :=
  ∀ (s : State) (c len : Word), s.Ready → 0 ≤ c.toInt →
    let n := s.calls.length
    let valid := fun q : Snapshot =>
      payload len.toNat s =
        snapRecord nameBusreg q.busreg ++ snapRecord nameWram q.wram ++ snapRecord nameCram q.cram ++
          snapRecord (namePeriph .video) q.video ++ snapRecord (namePeriph .timer) q.timer ++
          snapRecord (namePeriph .input) q.input ++ snapRecord (namePeriph .audio) q.audio ∧
      q.busreg.length = 3 ∧ q.wram.length = 65536 ∧ q.cram.length = s.cfg.ramSize ∧
      (q.busreg.getD 0 0).toNat ≤ 3 ∧ (q.busreg.getD 1 0).toNat ≤ 31 ∧ (q.busreg.getD 2 0).toNat ≤ 3 ∧
      ∀ p, (s.reply (.validateState p (q.block p))).ok = true
    ∃ t, exec (.rstr c len) s = .next t ∧
      (∀ q, valid q → t.response = some ⟨false, .ok, false, 0⟩ ∧
        ∃ s2 : State,
          s2.toBlock = { s.toBlock with
            wcr := BitVec.ofNat 2 (q.busreg.getD 0 0).toNat, irq := BitVec.ofNat 5 (q.busreg.getD 1 0).toNat
            acf := BitVec.ofNat 2 (q.busreg.getD 2 0).toNat, wram := s2.wram, ram := s2.ram
            evVideo := .none, evTimer := .none, evInput := .none, halt := .none } ∧
          (∀ i, Memory.read s2.wram i = q.wram.getD i 0) ∧ (∀ i, Memory.read s2.ram i = q.cram.getD i 0) ∧
          s2.calls = [.deserializeState .audio q.audio, .deserializeState .input q.input,
            .deserializeState .timer q.timer, .deserializeState .video q.video] ++ s.calls ∧
          s2.queries = [(n, .validateState .audio q.audio), (n, .validateState .input q.input),
            (n, .validateState .timer q.timer), (n, .validateState .video q.video)] ++ s.queries ∧
          s2.levels = level s2.irq :: s.levels ∧ s2.cfg = s.cfg ∧ s2.requests = s.requests ∧
          s2.payloadIn = s.payloadIn.drop len.toNat ∧ s2.payloadOut = s.payloadOut ∧
          s2.env = { s.env with drawn := s2.env.drawn } ∧
          (let s3 := service .input c.toInt (service .timer c.toInt (service .video c.toInt s2))
           t.toBlock = { s3.toBlock with halt := t.halt } ∧ SameInterface s3 t ∧
             t.halt.val = min s3.evVideo.val (min s3.evTimer.val s3.evInput.val))) ∧
      ((¬ ∃ q, valid q) → t.response = some ⟨false, .serMismatch, false, 0⟩ ∧ t.toBlock = s.toBlock ∧
        t.calls = s.calls ∧ t.levels = s.levels ∧ t.cfg = s.cfg ∧ t.requests = s.requests ∧
        t.payloadOut = s.payloadOut ∧ t.env = { s.env with drawn := t.env.drawn } ∧
        ∃ l : List (Nat × Query), t.queries = l ++ s.queries ∧
          ∀ x ∈ l, ∃ p bytes, x = (n, .validateState p bytes))

/-- R192: the bytes SAVE gives in a state `s`, restored into any ready block of the same parameters whose peripherals accept
their blocks, bring back WCR, ACF, WorkRAM and CartRAM, drive the saved level, hand each peripheral its block and update
three of them at `c`; IRQ is the saved one if those Updates call nothing back. -/
def Obligations.SaveThenRestoreRoundTrip : Prop :=
  ∀ (s s' : State) (c len : Word) (rest : List Byte),
    s.Inv → s'.Ready → s'.cfg = s.cfg → 0 ≤ c.toInt → len.toNat = (snapshot s).length →
    s'.payloadIn = snapshot s ++ rest →
    (∀ p, (s'.reply (.validateState p (s.stateBlock p))).ok = true) →
    ∃ t, exec (.rstr c len) s' = .next t ∧ t.response = some ⟨false, .ok, false, 0⟩ ∧
      t.wcr = s.wcr ∧ t.acf = s.acf ∧ t.wram = s.wram ∧ t.ram = s.ram ∧
      t.rom = s'.rom ∧ t.loaded = true ∧ t.halted = false ∧ t.payloadIn = rest ∧
      t.payloadOut = s'.payloadOut ∧ t.cfg = s'.cfg ∧ t.requests = s'.requests ∧ t.env = s'.env ∧
      t.calls =
        [.update .input c.toInt, .update .timer c.toInt, .update .video c.toInt,
          .deserializeState .audio (s.stateBlock .audio), .deserializeState .input (s.stateBlock .input),
          .deserializeState .timer (s.stateBlock .timer), .deserializeState .video (s.stateBlock .video)] ++ s'.calls ∧
      t.halt.val = min t.evVideo.val (min t.evTimer.val t.evInput.val) ∧
      (∃ l, t.levels = l ++ s.ilevel :: s'.levels) ∧
      (∀ s1 : State, s1.env = t.env → t.calls =
          .update .input c.toInt :: .update .timer c.toInt :: .update .video c.toInt :: s1.calls →
        QuietUpdates c.toInt s1 → t.irq = s.irq ∧ ∀ p, t.ev p = returnedTime c.toInt s1 p)

/-- R191: EXPT puts the region on the payload stream and answers its length; it changes nothing, and works on a halted
block. -/
def Obligations.ExptEmitsRegion : Prop :=
  ∀ (s : State) (r : Region), s.loaded = true →
    ∃ (t : State) (bs : List Byte), exec (.expt r) s = .next t ∧ t.toBlock = s.toBlock ∧
      t.calls = s.calls ∧ t.queries = s.queries ∧ t.levels = s.levels ∧ t.cfg = s.cfg ∧ t.requests = s.requests ∧
      t.env = s.env ∧ t.payloadIn = s.payloadIn ∧ t.payloadOut = s.payloadOut ++ bs ∧
      bs.length = (match r with | .wram => 65536 | .cram => s.cfg.ramSize) ∧
      (∀ i, i < bs.length → bs.getD i 0 = Memory.read (match r with | .wram => s.wram | .cram => s.ram) i) ∧
      t.response = some ⟨false, .ok, false, BitVec.ofNat 32 bs.length⟩
end

