-- ==== Sys2Proof/Laws/Memory.lean ====
section
/-! SUPPORT. The laws of byte buffers: read after write, the canonical form is kept and determines the buffer, and the
passage to and from byte strings. -/

namespace Sys2Proof

@[simp] theorem Memory.read_nil (i : Nat) : Memory.read [] i = 0 := rfl

theorem Memory.read_cons (k : Nat) (b : Byte) (m : Memory) (i : Nat) :
    Memory.read ((k, b) :: m) i = if k = i then b else Memory.read m i := rfl

theorem Memory.wf_nil : Memory.wf [] := ⟨List.Pairwise.nil, by simp⟩

theorem Memory.wf_tail {c : Host.Cell} {m : Memory} (h : Memory.wf (c :: m)) : Memory.wf m :=
  ⟨(List.pairwise_cons.1 h.1).2, fun x hx => h.2 x (List.mem_cons_of_mem _ hx)⟩

theorem Memory.wf_cons {k : Nat} {b : Byte} {m : Memory} :
    Memory.wf ((k, b) :: m) ↔ (∀ x ∈ m, k < x.1) ∧ b ≠ 0 ∧ Memory.wf m := by
  simp [Memory.wf, List.pairwise_cons]
  tauto

/-- An index below every listed one reads zero. -/
theorem Memory.read_of_lt {m : Memory} {i : Nat} (h : ∀ x ∈ m, i < x.1) : Memory.read m i = 0 := by
  induction m with
  | nil => rfl
  | cons c m ih =>
    obtain ⟨k, b⟩ := c
    have hk : i < k := h (k, b) (by simp)
    rw [Memory.read_cons, if_neg (by omega)]
    exact ih fun x hx => h x (List.mem_cons_of_mem _ hx)

/-- An index past every listed one reads zero. -/
theorem Memory.read_of_ge {m : Memory} {i n : Nat} (h : Memory.below m n) (hi : n ≤ i) : Memory.read m i = 0 := by
  induction m with
  | nil => rfl
  | cons c m ih =>
    obtain ⟨k, b⟩ := c
    have hk : k < n := h (k, b) (by simp)
    rw [Memory.read_cons, if_neg (by omega)]
    exact ih fun x hx => h x (List.mem_cons_of_mem _ hx)

/-- Everything a write does, in the canonical form. -/
theorem Memory.read_write {m : Memory} (h : Memory.wf m) (i : Nat) (v : Byte) (j : Nat) :
    Memory.read (Memory.write m i v) j = if j = i then v else Memory.read m j := by
  induction m with
  | nil =>
    simp only [Memory.write]
    split
    · rename_i hv; simp [hv]
    · rw [Memory.read_cons]; simp only [eq_comm]
  | cons c m ih =>
    obtain ⟨k, b⟩ := c
    obtain ⟨hlt, hb, hm⟩ := Memory.wf_cons.1 h
    have below : ∀ l, l ≤ k → Memory.read m l = 0 := fun l hl =>
      Memory.read_of_lt fun x hx => lt_of_le_of_lt hl (hlt x hx)
    simp only [Memory.write]
    by_cases h1 : i < k
    · rw [if_pos h1]
      by_cases hv : v = 0
      · rw [if_pos hv]
        by_cases hj : j = i
        · subst hj; rw [if_pos rfl, hv, Memory.read_cons, if_neg (by omega)]; exact below _ (by omega)
        · rw [if_neg hj]
      · rw [if_neg hv, Memory.read_cons]
        by_cases hj : j = i
        · rw [if_pos hj.symm, if_pos hj]
        · rw [if_neg (Ne.symm hj), if_neg hj]
    · rw [if_neg h1]
      by_cases h2 : i = k
      · rw [if_pos h2]
        subst h2
        by_cases hv : v = 0
        · rw [if_pos hv]
          by_cases hj : j = i
          · subst hj; rw [if_pos rfl, hv]; exact below _ le_rfl
          · rw [if_neg hj, Memory.read_cons, if_neg (Ne.symm hj)]
        · rw [if_neg hv, Memory.read_cons, Memory.read_cons]
          by_cases hj : j = i
          · rw [if_pos hj.symm, if_pos hj]
          · rw [if_neg (Ne.symm hj), if_neg hj, if_neg (Ne.symm hj)]
      · rw [if_neg h2, Memory.read_cons, ih hm, Memory.read_cons]
        by_cases hj : j = i
        · subst hj; rw [if_neg (Ne.symm h2), if_pos rfl, if_pos rfl]
        · rw [if_neg hj, if_neg hj]

/-- A write lists nothing but what was listed and the written index, and no zero. -/
theorem Memory.mem_write {m : Memory} {i : Nat} {v : Byte} {x : Host.Cell} (hx : x ∈ Memory.write m i v) :
    x ∈ m ∨ (x = (i, v) ∧ v ≠ 0) := by
  induction m with
  | nil => by_cases hv : v = 0 <;> simp_all [Memory.write]
  | cons c m ih =>
    obtain ⟨k, b⟩ := c
    simp only [Memory.write] at hx
    split at hx
    · split at hx
      · exact .inl hx
      · rcases List.mem_cons.1 hx with rfl | hx
        · exact .inr ⟨rfl, by assumption⟩
        · exact .inl hx
    · split at hx
      · split at hx
        · exact .inl (List.mem_cons_of_mem _ hx)
        · rcases List.mem_cons.1 hx with rfl | hx
          · exact .inr ⟨rfl, by assumption⟩
          · exact .inl (List.mem_cons_of_mem _ hx)
      · rcases List.mem_cons.1 hx with rfl | hx
        · exact .inl (by simp)
        · rcases ih hx with h | h
          · exact .inl (List.mem_cons_of_mem _ h)
          · exact .inr h

/-- A write keeps the canonical form. -/
theorem Memory.write_wf {m : Memory} (h : Memory.wf m) (i : Nat) (v : Byte) : Memory.wf (Memory.write m i v) := by
  induction m with
  | nil =>
    simp only [Memory.write]
    split
    · exact h
    · exact Memory.wf_cons.2 ⟨by simp, by assumption, h⟩
  | cons c m ih =>
    obtain ⟨k, b⟩ := c
    obtain ⟨hlt, hb, hm⟩ := Memory.wf_cons.1 h
    simp only [Memory.write]
    split
    · split
      · exact h
      · refine Memory.wf_cons.2 ⟨fun x hx => ?_, by assumption, h⟩
        rcases List.mem_cons.1 hx with rfl | hx
        · assumption
        · exact lt_trans (by assumption) (hlt x hx)
    · split
      · split
        · exact hm
        · subst_vars
          exact Memory.wf_cons.2 ⟨hlt, by assumption, hm⟩
      · refine Memory.wf_cons.2 ⟨fun x hx => ?_, hb, ih hm⟩
        rcases Memory.mem_write hx with h' | ⟨rfl, _⟩
        · exact hlt x h'
        · show k < i
          omega

/-- A write below `n` keeps the buffer below `n`. -/
theorem Memory.write_below {m : Memory} {n i : Nat} (h : Memory.below m n) (hi : i < n) (v : Byte) :
    Memory.below (Memory.write m i v) n := by
  intro x hx
  rcases Memory.mem_write hx with h' | ⟨rfl, _⟩
  · exact h x h'
  · exact hi

theorem Memory.mem_ofBytesFrom {bs : List Byte} {k : Nat} {x : Host.Cell} (hx : x ∈ Memory.ofBytesFrom k bs) :
    k ≤ x.1 ∧ x.1 < k + bs.length ∧ x.2 ≠ 0 := by
  induction bs generalizing k with
  | nil => simp [Memory.ofBytesFrom] at hx
  | cons b bs ih =>
    simp only [Memory.ofBytesFrom] at hx
    simp only [List.length_cons]
    split at hx
    · obtain ⟨h1, h2, h3⟩ := ih hx
      exact ⟨by omega, by omega, h3⟩
    · rcases List.mem_cons.1 hx with rfl | hx
      · exact ⟨le_rfl, by simp, by assumption⟩
      · obtain ⟨h1, h2, h3⟩ := ih hx
        exact ⟨by omega, by omega, h3⟩

theorem Memory.ofBytesFrom_wf (bs : List Byte) (k : Nat) : Memory.wf (Memory.ofBytesFrom k bs) := by
  induction bs generalizing k with
  | nil => exact Memory.wf_nil
  | cons b bs ih =>
    simp only [Memory.ofBytesFrom]
    split
    · exact ih _
    · exact Memory.wf_cons.2 ⟨fun x hx => (Memory.mem_ofBytesFrom hx).1, by assumption, ih _⟩

/-- A byte string makes a buffer in the canonical form. -/
theorem Memory.ofBytes_wf (bs : List Byte) : Memory.wf (Memory.ofBytes bs) := Memory.ofBytesFrom_wf bs 0

theorem Memory.ofBytes_below (bs : List Byte) : Memory.below (Memory.ofBytes bs) bs.length := fun _ hx => by
  simpa using (Memory.mem_ofBytesFrom hx).2.1

theorem Memory.read_ofBytesFrom (bs : List Byte) (k i : Nat) :
    Memory.read (Memory.ofBytesFrom k bs) (k + i) = bs.getD i 0 := by
  induction bs generalizing k i with
  | nil => simp [Memory.ofBytesFrom]
  | cons b bs ih =>
    have step : ∀ j, Memory.read (Memory.ofBytesFrom (k + 1) bs) (k + (j + 1)) = bs.getD j 0 := fun j => by
      rw [show k + (j + 1) = k + 1 + j by omega]; exact ih (k + 1) j
    have low : Memory.read (Memory.ofBytesFrom (k + 1) bs) k = 0 :=
      Memory.read_of_lt fun x hx => by have := (Memory.mem_ofBytesFrom hx).1; omega
    simp only [Memory.ofBytesFrom]
    cases i with
    | zero =>
      split
      · rename_i hb; simpa [hb] using low
      · simp [Memory.read_cons]
    | succ j =>
      split
      · simpa using step j
      · rw [Memory.read_cons, if_neg (by omega)]; simpa using step j

/-- Reading a buffer made from a byte string. -/
theorem Memory.read_ofBytes (bs : List Byte) (i : Nat) : Memory.read (Memory.ofBytes bs) i = bs.getD i 0 := by
  have := Memory.read_ofBytesFrom bs 0 i
  rwa [Nat.zero_add] at this

/-- The canonical form determines the buffer. -/
theorem Memory.ext_of_read {m m' : Memory} (h : Memory.wf m) (h' : Memory.wf m')
    (e : ∀ i, Memory.read m i = Memory.read m' i) : m = m' := by
  induction m generalizing m' with
  | nil =>
    cases m' with
    | nil => rfl
    | cons c' m' =>
      obtain ⟨k, b⟩ := c'
      have := e k
      simp [Memory.read_cons] at this
      exact absurd this.symm (Memory.wf_cons.1 h').2.1
  | cons c m ih =>
    obtain ⟨k, b⟩ := c
    obtain ⟨hlt, hb, hm⟩ := Memory.wf_cons.1 h
    cases m' with
    | nil =>
      have := e k
      simp [Memory.read_cons] at this
      exact absurd this hb
    | cons c' m' =>
      obtain ⟨k', b'⟩ := c'
      obtain ⟨hlt', hb', hm'⟩ := Memory.wf_cons.1 h'
      have hk : k = k' := by
        rcases lt_trichotomy k k' with hl | he | hl
        · have := e k
          rw [Memory.read_cons, if_pos rfl, Memory.read_cons, if_neg (by omega),
            Memory.read_of_lt fun x hx => lt_trans hl (hlt' x hx)] at this
          exact absurd this hb
        · exact he
        · have := e k'
          rw [Memory.read_cons, if_neg (by omega), Memory.read_cons, if_pos rfl,
            Memory.read_of_lt fun x hx => lt_trans hl (hlt x hx)] at this
          exact absurd this.symm hb'
      subst hk
      have hbb : b = b' := by simpa [Memory.read_cons] using e k
      subst hbb
      congr 1
      refine ih hm hm' fun i => ?_
      by_cases hi : i = k
      · subst hi
        rw [Memory.read_of_lt hlt, Memory.read_of_lt hlt']
      · have := e i
        rwa [Memory.read_cons, Memory.read_cons, if_neg (Ne.symm hi), if_neg (Ne.symm hi)] at this

@[simp] theorem Memory.toBytes_length (m : Memory) (n : Nat) : (Memory.toBytes m n).length = n := by
  simp [Memory.toBytes]

theorem Memory.toBytes_getD (m : Memory) (n i : Nat) (h : i < n) : (Memory.toBytes m n).getD i 0 = Memory.read m i := by
  simp [Memory.toBytes, List.getD, h]

/-- A buffer goes out as bytes and comes back the same. -/
theorem Memory.ofBytes_toBytes {m : Memory} {n : Nat} (h : Memory.wf m) (hb : Memory.below m n) :
    Memory.ofBytes (Memory.toBytes m n) = m := by
  refine Memory.ext_of_read (Memory.ofBytes_wf _) h fun i => ?_
  rw [Memory.read_ofBytes]
  by_cases hi : i < n
  · exact Memory.toBytes_getD m n i hi
  · rw [Memory.read_of_ge hb (by omega)]
    simp [Memory.toBytes, List.getD, hi]

/-- `BufWrite` keeps the canonical form. -/
theorem bufWrite_wf {m : Memory} (h : Memory.wf m) (i : Nat) (n : Width) (v : Half) : Memory.wf (bufWrite m i n v) := by
  cases n
  · exact Memory.write_wf h _ _
  · exact Memory.write_wf (Memory.write_wf h _ _) _ _

/-- `BufWrite` inside the buffer stays inside it. -/
theorem bufWrite_below {m : Memory} {k i : Nat} (h : Memory.below m k) (n : Width) (hi : i + n.bytes ≤ k) (v : Half) :
    Memory.below (bufWrite m i n v) k := by
  cases n
  · exact Memory.write_below h (by simp [Width.bytes] at hi; omega) _
  · simp [Width.bytes] at hi
    exact Memory.write_below (Memory.write_below h (by omega) _) (by omega) _

/-- Everything `BufWrite` does: the byte or the two bytes stored, every other index as before. -/
theorem read_bufWrite {m : Memory} (h : Memory.wf m) (i : Nat) (n : Width) (v : Half) (j : Nat) :
    Memory.read (bufWrite m i n v) j =
      if j = i then v.extractLsb' 0 8
      else if n = .half ∧ j = i + 1 then v.extractLsb' 8 8
      else Memory.read m j := by
  cases n
  · simp only [bufWrite, Memory.read_write h]
    by_cases hj : j = i <;> simp [hj]
  · simp only [bufWrite, Memory.read_write (Memory.write_wf h _ _), Memory.read_write h]
    by_cases hj : j = i
    · subst hj; simp
    · by_cases hj' : j = i + 1 <;> simp [hj, hj']

/-- `BufRead` after `BufWrite` of the same width at the same index gives the value back (its low byte, for a byte). -/
theorem bufRead_bufWrite {m : Memory} (h : Memory.wf m) (i : Nat) (n : Width) (v : Half) :
    bufRead (Memory.read (bufWrite m i n v)) i n = n.low v := by
  cases n
  · simp [bufRead, read_bufWrite h, Width.low]
  · simp only [bufRead, read_bufWrite h, Width.low, if_true, true_and]
    rw [if_neg (by omega)]
    ext k hk
    simp only [BitVec.getElem_append, BitVec.getElem_extractLsb']
    split
    · simp [BitVec.getLsbD_eq_getElem hk]
    · rw [show 8 + (k - 8) = k by omega, BitVec.getLsbD_eq_getElem hk]

end Sys2Proof
end

