-- ==== Sys2Proof/Laws/Operands.lean ====
section
/-! SUPPORT. Operand forms as arithmetic: the order on Time as the order of its value, addresses and indexes as remainders
of natural numbers, the classification of operands. -/

namespace Sys2Proof

/-! The order on Time (R9). -/

theorem Time.val_none : Time.none.val = ⊤ := rfl
theorem Time.val_fin (t : Word) : (Time.fin t).val = ((t.toInt : Int) : WithTop Int) := rfl

theorem Time.dueBy_iff (T : Time) (c : Int) : T.dueBy c = true ↔ T.val ≤ (c : WithTop Int) := by
  cases T <;> simp [Time.dueBy, Time.val]

theorem Time.after_iff (T : Time) (c : Int) : T.after c = true ↔ (c : WithTop Int) < T.val := by
  cases T <;> simp [Time.after, Time.val]

theorem Time.before_iff (T U : Time) : T.before U = true ↔ T.val < U.val := by
  cases T <;> cases U <;> simp [Time.before, Time.val]

theorem Time.val_inj {T U : Time} (h : T.val = U.val) : T = U := by
  cases T <;> cases U <;> simp [Time.val] at h ⊢
  exact BitVec.eq_of_toInt_eq h

theorem Time.minT_val (T U : Time) : (T.minT U).val = min T.val U.val := by
  unfold Time.minT
  by_cases h : U.before T = true
  · rw [if_pos h]; exact (min_eq_right ((Time.before_iff U T).1 h).le).symm
  · rw [if_neg h]; exact (min_eq_left (not_lt.1 fun hlt => h ((Time.before_iff U T).2 hlt))).symm

theorem Time.minT_eq (T U : Time) : T.minT U = T ∨ T.minT U = U := by
  unfold Time.minT; split <;> simp

/-- The subtraction of a rebase is exact where the precondition holds. -/
theorem Time.rebase_val {T : Time} {c : Int} (hc : 0 ≤ c) (h : (c : WithTop Int) < T.val) :
    (T.rebase c).val + (c : WithTop Int) = T.val := by
  cases T with
  | none => simp [Time.rebase, Time.val]
  | fin t =>
    have ht : c < t.toInt := by simpa [Time.val] using h
    have h2 : t.toInt < 2 ^ 31 := by simpa using BitVec.toInt_lt (x := t)
    have : (BitVec.ofInt 32 (t.toInt - c)).toInt = t.toInt - c := by
      rw [BitVec.toInt_ofInt, Int.bmod_eq_of_le (by omega) (by omega)]
    simp only [Time.rebase, Time.val, this]
    norm_cast
    omega

theorem Time.rebase_fin_toInt {t : Word} {c : Int} (hc : 0 ≤ c) (h : c < t.toInt) :
    (BitVec.ofInt 32 (t.toInt - c)).toInt = t.toInt - c := by
  have h2 : t.toInt < 2 ^ 31 := by simpa using BitVec.toInt_lt (x := t)
  rw [BitVec.toInt_ofInt, Int.bmod_eq_of_le (by omega) (by omega)]

/-! Addresses (R51, R52, R56). -/

theorem mask27_toNat (A : Word) : (mask27 A).toNat = A.toNat % 134217728 := by
  simp [mask27]

theorem alignTo_half_toNat (a : Addr) : (alignTo .half a).toNat = 2 * (a.toNat / 2) := by
  have h : alignTo .half a = (a >>> 1) <<< 1 := by
    ext i hi
    simp only [alignTo, BitVec.getElem_and, BitVec.getElem_not, BitVec.getElem_shiftLeft]
    by_cases h0 : i = 0
    · subst h0; simp
    · have : (1#27)[i] = false := by
        rw [← BitVec.getLsbD_eq_getElem, BitVec.getLsbD_one]
        simp [h0]
      rw [this]
      have e : 1 + (i - 1) = i := by omega
      simp [h0, e, BitVec.getLsbD_eq_getElem hi]
  have hlt := a.isLt
  rw [h, BitVec.toNat_shiftLeft, BitVec.toNat_ushiftRight, Nat.shiftLeft_eq, Nat.shiftRight_eq_div_pow]
  omega

theorem busAddr_byte_toNat (A : Word) : (busAddr .byte A).toNat = A.toNat % 134217728 := mask27_toNat A

theorem busAddr_half_toNat (A : Word) : (busAddr .half A).toNat = 2 * (A.toNat % 134217728 / 2) := by
  rw [busAddr, alignTo_half_toNat, mask27_toNat]

theorem segmentOf_eq (a : Addr) :
    segmentOf a = match a.toNat / 16777216 with
      | 0 => .video | 1 => .audio | 2 => .hwControl | 3 => .unused3 | 4 => .unused4 | 5 => .workRam | 6 => .cartRam
      | _ => .cartRom := by
  have h : (a.extractLsb' 24 3).toNat = a.toNat / 16777216 := by
    have := a.isLt
    rw [BitVec.extractLsb'_toNat, Nat.shiftRight_eq_div_pow]
    omega
  unfold segmentOf
  rw [h] <;> rfl

theorem wramIndex_eq (a : Addr) : wramIndex a = a.toNat % 65536 := by
  simp [wramIndex]

theorem maskIndex_pow (k : Nat) (a : Addr) : maskIndex (2 ^ k) a = a.toNat % 2 ^ k := by
  rw [maskIndex, Nat.and_two_pow_sub_one_eq_mod]

theorem Config.ramSize_pow (cfg : Config) : cfg.ramSize = 0 ∨ ∃ k, 1 ≤ k ∧ k ≤ 24 ∧ cfg.ramSize = 2 ^ k := by
  unfold Config.ramSize
  cases cfg.ramBits with
  | none => exact .inl rfl
  | some k => exact .inr ⟨k.val + 1, by omega, by omega, rfl⟩

theorem maskIndex_ram {cfg : Config} (h : cfg.ramSize ≠ 0) (a : Addr) :
    maskIndex cfg.ramSize a = a.toNat % cfg.ramSize := by
  rcases cfg.ramSize_pow with h0 | ⟨k, _, _, hk⟩
  · exact absurd h0 h
  · rw [hk, maskIndex_pow]

/-- An even index below a size that is a power of two and at least 2 leaves room for the second byte. -/
theorem even_index_fits {k : Nat} (hk : 1 ≤ k) (x : Nat) : 2 * x % 2 ^ k + 2 ≤ 2 ^ k := by
  obtain ⟨j, rfl⟩ : ∃ j, k = j + 1 := ⟨k - 1, by omega⟩
  rw [pow_succ, Nat.mul_comm (2 ^ j) 2, Nat.mul_mod_mul_left]
  have := Nat.mod_lt x (Nat.two_pow_pos j)
  omega

theorem imageLengthOk_iff (L : Nat) : imageLengthOk L = true ↔ Machine.ImageLength L := by
  simp only [imageLengthOk, Machine.ImageLength, decide_eq_true_eq]
  constructor
  · rintro ⟨h, h1, h2⟩
    refine ⟨L.log2, ?_, ?_, h⟩
    · by_contra hlt
      have : 2 ^ L.log2 ≤ 2 ^ 7 := Nat.pow_le_pow_right (by omega) (by omega)
      omega
    · by_contra hlt
      have : 2 ^ 25 ≤ 2 ^ L.log2 := Nat.pow_le_pow_right (by omega) (by omega)
      omega
  · rintro ⟨k, h1, h2, rfl⟩
    refine ⟨by rw [Nat.log2_two_pow], ?_, ?_⟩
    · exact le_trans (by norm_num) (Nat.pow_le_pow_right (by omega : 0 < 2) h1)
    · exact le_trans (Nat.pow_le_pow_right (by omega : 0 < 2) h2) (by norm_num)

theorem evClassOf_some {cls : BitVec 2} (h : classOk cls = true) : ∃ p, evClassOf cls = some p := by
  have key : ∀ c : BitVec 2, classOk c = true → (evClassOf c).isSome = true := by decide
  exact Option.isSome_iff_exists.1 (key cls h)

theorem sourceOf_some {src : BitVec 3} (h : sourceOk src = true) : ∃ k, sourceOf src = some k ∧ k.val = src.toNat := by
  have h' : src.toNat < 5 := by simpa [sourceOk] using h
  exact ⟨⟨src.toNat, h'⟩, by simp [sourceOf, h'], rfl⟩

end Sys2Proof
end

