-- ==== Sys2Proof/Laws/State.lean ====
section
/-! SUPPORT. One lemma per field per update of the state, each true by rfl, so that no later proof unfolds an update. -/

namespace Sys2Proof.Machine

@[simp] theorem setHalt_wram (T : Time) (s : State) : (setHalt T s).wram = s.wram := rfl
@[simp] theorem setHalt_rom (T : Time) (s : State) : (setHalt T s).rom = s.rom := rfl
@[simp] theorem setHalt_ram (T : Time) (s : State) : (setHalt T s).ram = s.ram := rfl
@[simp] theorem setHalt_wcr (T : Time) (s : State) : (setHalt T s).wcr = s.wcr := rfl
@[simp] theorem setHalt_irq (T : Time) (s : State) : (setHalt T s).irq = s.irq := rfl
@[simp] theorem setHalt_acf (T : Time) (s : State) : (setHalt T s).acf = s.acf := rfl
@[simp] theorem setHalt_evVideo (T : Time) (s : State) : (setHalt T s).evVideo = s.evVideo := rfl
@[simp] theorem setHalt_evTimer (T : Time) (s : State) : (setHalt T s).evTimer = s.evTimer := rfl
@[simp] theorem setHalt_evInput (T : Time) (s : State) : (setHalt T s).evInput = s.evInput := rfl
@[simp] theorem setHalt_halt (T : Time) (s : State) : (setHalt T s).halt = T := rfl
@[simp] theorem setHalt_halted (T : Time) (s : State) : (setHalt T s).halted = s.halted := rfl
@[simp] theorem setHalt_loaded (T : Time) (s : State) : (setHalt T s).loaded = s.loaded := rfl
@[simp] theorem setHalt_cfg (T : Time) (s : State) : (setHalt T s).cfg = s.cfg := rfl
@[simp] theorem setHalt_requests (T : Time) (s : State) : (setHalt T s).requests = s.requests := rfl
@[simp] theorem setHalt_payloadIn (T : Time) (s : State) : (setHalt T s).payloadIn = s.payloadIn := rfl
@[simp] theorem setHalt_payloadOut (T : Time) (s : State) : (setHalt T s).payloadOut = s.payloadOut := rfl
@[simp] theorem setHalt_response (T : Time) (s : State) : (setHalt T s).response = s.response := rfl
@[simp] theorem setHalt_levels (T : Time) (s : State) : (setHalt T s).levels = s.levels := rfl
@[simp] theorem setHalt_calls (T : Time) (s : State) : (setHalt T s).calls = s.calls := rfl
@[simp] theorem setHalt_queries (T : Time) (s : State) : (setHalt T s).queries = s.queries := rfl
@[simp] theorem setHalt_log (T : Time) (s : State) : (setHalt T s).log = s.log := rfl
@[simp] theorem setHalt_env (T : Time) (s : State) : (setHalt T s).env = s.env := rfl

@[simp] theorem setIrq_wram (v : BitVec 5) (s : State) : (setIrq v s).wram = s.wram := rfl
@[simp] theorem setIrq_rom (v : BitVec 5) (s : State) : (setIrq v s).rom = s.rom := rfl
@[simp] theorem setIrq_ram (v : BitVec 5) (s : State) : (setIrq v s).ram = s.ram := rfl
@[simp] theorem setIrq_wcr (v : BitVec 5) (s : State) : (setIrq v s).wcr = s.wcr := rfl
@[simp] theorem setIrq_irq (v : BitVec 5) (s : State) : (setIrq v s).irq = v := rfl
@[simp] theorem setIrq_acf (v : BitVec 5) (s : State) : (setIrq v s).acf = s.acf := rfl
@[simp] theorem setIrq_evVideo (v : BitVec 5) (s : State) : (setIrq v s).evVideo = s.evVideo := rfl
@[simp] theorem setIrq_evTimer (v : BitVec 5) (s : State) : (setIrq v s).evTimer = s.evTimer := rfl
@[simp] theorem setIrq_evInput (v : BitVec 5) (s : State) : (setIrq v s).evInput = s.evInput := rfl
@[simp] theorem setIrq_halt (v : BitVec 5) (s : State) : (setIrq v s).halt = s.halt := rfl
@[simp] theorem setIrq_halted (v : BitVec 5) (s : State) : (setIrq v s).halted = s.halted := rfl
@[simp] theorem setIrq_loaded (v : BitVec 5) (s : State) : (setIrq v s).loaded = s.loaded := rfl
@[simp] theorem setIrq_cfg (v : BitVec 5) (s : State) : (setIrq v s).cfg = s.cfg := rfl
@[simp] theorem setIrq_requests (v : BitVec 5) (s : State) : (setIrq v s).requests = s.requests := rfl
@[simp] theorem setIrq_payloadIn (v : BitVec 5) (s : State) : (setIrq v s).payloadIn = s.payloadIn := rfl
@[simp] theorem setIrq_payloadOut (v : BitVec 5) (s : State) : (setIrq v s).payloadOut = s.payloadOut := rfl
@[simp] theorem setIrq_response (v : BitVec 5) (s : State) : (setIrq v s).response = s.response := rfl
@[simp] theorem setIrq_levels (v : BitVec 5) (s : State) : (setIrq v s).levels = s.levels := rfl
@[simp] theorem setIrq_calls (v : BitVec 5) (s : State) : (setIrq v s).calls = s.calls := rfl
@[simp] theorem setIrq_queries (v : BitVec 5) (s : State) : (setIrq v s).queries = s.queries := rfl
@[simp] theorem setIrq_log (v : BitVec 5) (s : State) : (setIrq v s).log = s.log := rfl
@[simp] theorem setIrq_env (v : BitVec 5) (s : State) : (setIrq v s).env = s.env := rfl

@[simp] theorem setWcr_wram (v : BitVec 2) (s : State) : (setWcr v s).wram = s.wram := rfl
@[simp] theorem setWcr_rom (v : BitVec 2) (s : State) : (setWcr v s).rom = s.rom := rfl
@[simp] theorem setWcr_ram (v : BitVec 2) (s : State) : (setWcr v s).ram = s.ram := rfl
@[simp] theorem setWcr_wcr (v : BitVec 2) (s : State) : (setWcr v s).wcr = v := rfl
@[simp] theorem setWcr_irq (v : BitVec 2) (s : State) : (setWcr v s).irq = s.irq := rfl
@[simp] theorem setWcr_acf (v : BitVec 2) (s : State) : (setWcr v s).acf = s.acf := rfl
@[simp] theorem setWcr_evVideo (v : BitVec 2) (s : State) : (setWcr v s).evVideo = s.evVideo := rfl
@[simp] theorem setWcr_evTimer (v : BitVec 2) (s : State) : (setWcr v s).evTimer = s.evTimer := rfl
@[simp] theorem setWcr_evInput (v : BitVec 2) (s : State) : (setWcr v s).evInput = s.evInput := rfl
@[simp] theorem setWcr_halt (v : BitVec 2) (s : State) : (setWcr v s).halt = s.halt := rfl
@[simp] theorem setWcr_halted (v : BitVec 2) (s : State) : (setWcr v s).halted = s.halted := rfl
@[simp] theorem setWcr_loaded (v : BitVec 2) (s : State) : (setWcr v s).loaded = s.loaded := rfl
@[simp] theorem setWcr_cfg (v : BitVec 2) (s : State) : (setWcr v s).cfg = s.cfg := rfl
@[simp] theorem setWcr_requests (v : BitVec 2) (s : State) : (setWcr v s).requests = s.requests := rfl
@[simp] theorem setWcr_payloadIn (v : BitVec 2) (s : State) : (setWcr v s).payloadIn = s.payloadIn := rfl
@[simp] theorem setWcr_payloadOut (v : BitVec 2) (s : State) : (setWcr v s).payloadOut = s.payloadOut := rfl
@[simp] theorem setWcr_response (v : BitVec 2) (s : State) : (setWcr v s).response = s.response := rfl
@[simp] theorem setWcr_levels (v : BitVec 2) (s : State) : (setWcr v s).levels = s.levels := rfl
@[simp] theorem setWcr_calls (v : BitVec 2) (s : State) : (setWcr v s).calls = s.calls := rfl
@[simp] theorem setWcr_queries (v : BitVec 2) (s : State) : (setWcr v s).queries = s.queries := rfl
@[simp] theorem setWcr_log (v : BitVec 2) (s : State) : (setWcr v s).log = s.log := rfl
@[simp] theorem setWcr_env (v : BitVec 2) (s : State) : (setWcr v s).env = s.env := rfl

@[simp] theorem setAcf_wram (v : BitVec 2) (s : State) : (setAcf v s).wram = s.wram := rfl
@[simp] theorem setAcf_rom (v : BitVec 2) (s : State) : (setAcf v s).rom = s.rom := rfl
@[simp] theorem setAcf_ram (v : BitVec 2) (s : State) : (setAcf v s).ram = s.ram := rfl
@[simp] theorem setAcf_wcr (v : BitVec 2) (s : State) : (setAcf v s).wcr = s.wcr := rfl
@[simp] theorem setAcf_irq (v : BitVec 2) (s : State) : (setAcf v s).irq = s.irq := rfl
@[simp] theorem setAcf_acf (v : BitVec 2) (s : State) : (setAcf v s).acf = v := rfl
@[simp] theorem setAcf_evVideo (v : BitVec 2) (s : State) : (setAcf v s).evVideo = s.evVideo := rfl
@[simp] theorem setAcf_evTimer (v : BitVec 2) (s : State) : (setAcf v s).evTimer = s.evTimer := rfl
@[simp] theorem setAcf_evInput (v : BitVec 2) (s : State) : (setAcf v s).evInput = s.evInput := rfl
@[simp] theorem setAcf_halt (v : BitVec 2) (s : State) : (setAcf v s).halt = s.halt := rfl
@[simp] theorem setAcf_halted (v : BitVec 2) (s : State) : (setAcf v s).halted = s.halted := rfl
@[simp] theorem setAcf_loaded (v : BitVec 2) (s : State) : (setAcf v s).loaded = s.loaded := rfl
@[simp] theorem setAcf_cfg (v : BitVec 2) (s : State) : (setAcf v s).cfg = s.cfg := rfl
@[simp] theorem setAcf_requests (v : BitVec 2) (s : State) : (setAcf v s).requests = s.requests := rfl
@[simp] theorem setAcf_payloadIn (v : BitVec 2) (s : State) : (setAcf v s).payloadIn = s.payloadIn := rfl
@[simp] theorem setAcf_payloadOut (v : BitVec 2) (s : State) : (setAcf v s).payloadOut = s.payloadOut := rfl
@[simp] theorem setAcf_response (v : BitVec 2) (s : State) : (setAcf v s).response = s.response := rfl
@[simp] theorem setAcf_levels (v : BitVec 2) (s : State) : (setAcf v s).levels = s.levels := rfl
@[simp] theorem setAcf_calls (v : BitVec 2) (s : State) : (setAcf v s).calls = s.calls := rfl
@[simp] theorem setAcf_queries (v : BitVec 2) (s : State) : (setAcf v s).queries = s.queries := rfl
@[simp] theorem setAcf_log (v : BitVec 2) (s : State) : (setAcf v s).log = s.log := rfl
@[simp] theorem setAcf_env (v : BitVec 2) (s : State) : (setAcf v s).env = s.env := rfl

@[simp] theorem setWram_wram (m : Memory) (s : State) : (setWram m s).wram = m := rfl
@[simp] theorem setWram_rom (m : Memory) (s : State) : (setWram m s).rom = s.rom := rfl
@[simp] theorem setWram_ram (m : Memory) (s : State) : (setWram m s).ram = s.ram := rfl
@[simp] theorem setWram_wcr (m : Memory) (s : State) : (setWram m s).wcr = s.wcr := rfl
@[simp] theorem setWram_irq (m : Memory) (s : State) : (setWram m s).irq = s.irq := rfl
@[simp] theorem setWram_acf (m : Memory) (s : State) : (setWram m s).acf = s.acf := rfl
@[simp] theorem setWram_evVideo (m : Memory) (s : State) : (setWram m s).evVideo = s.evVideo := rfl
@[simp] theorem setWram_evTimer (m : Memory) (s : State) : (setWram m s).evTimer = s.evTimer := rfl
@[simp] theorem setWram_evInput (m : Memory) (s : State) : (setWram m s).evInput = s.evInput := rfl
@[simp] theorem setWram_halt (m : Memory) (s : State) : (setWram m s).halt = s.halt := rfl
@[simp] theorem setWram_halted (m : Memory) (s : State) : (setWram m s).halted = s.halted := rfl
@[simp] theorem setWram_loaded (m : Memory) (s : State) : (setWram m s).loaded = s.loaded := rfl
@[simp] theorem setWram_cfg (m : Memory) (s : State) : (setWram m s).cfg = s.cfg := rfl
@[simp] theorem setWram_requests (m : Memory) (s : State) : (setWram m s).requests = s.requests := rfl
@[simp] theorem setWram_payloadIn (m : Memory) (s : State) : (setWram m s).payloadIn = s.payloadIn := rfl
@[simp] theorem setWram_payloadOut (m : Memory) (s : State) : (setWram m s).payloadOut = s.payloadOut := rfl
@[simp] theorem setWram_response (m : Memory) (s : State) : (setWram m s).response = s.response := rfl
@[simp] theorem setWram_levels (m : Memory) (s : State) : (setWram m s).levels = s.levels := rfl
@[simp] theorem setWram_calls (m : Memory) (s : State) : (setWram m s).calls = s.calls := rfl
@[simp] theorem setWram_queries (m : Memory) (s : State) : (setWram m s).queries = s.queries := rfl
@[simp] theorem setWram_log (m : Memory) (s : State) : (setWram m s).log = s.log := rfl
@[simp] theorem setWram_env (m : Memory) (s : State) : (setWram m s).env = s.env := rfl

@[simp] theorem setRam_wram (m : Memory) (s : State) : (setRam m s).wram = s.wram := rfl
@[simp] theorem setRam_rom (m : Memory) (s : State) : (setRam m s).rom = s.rom := rfl
@[simp] theorem setRam_ram (m : Memory) (s : State) : (setRam m s).ram = m := rfl
@[simp] theorem setRam_wcr (m : Memory) (s : State) : (setRam m s).wcr = s.wcr := rfl
@[simp] theorem setRam_irq (m : Memory) (s : State) : (setRam m s).irq = s.irq := rfl
@[simp] theorem setRam_acf (m : Memory) (s : State) : (setRam m s).acf = s.acf := rfl
@[simp] theorem setRam_evVideo (m : Memory) (s : State) : (setRam m s).evVideo = s.evVideo := rfl
@[simp] theorem setRam_evTimer (m : Memory) (s : State) : (setRam m s).evTimer = s.evTimer := rfl
@[simp] theorem setRam_evInput (m : Memory) (s : State) : (setRam m s).evInput = s.evInput := rfl
@[simp] theorem setRam_halt (m : Memory) (s : State) : (setRam m s).halt = s.halt := rfl
@[simp] theorem setRam_halted (m : Memory) (s : State) : (setRam m s).halted = s.halted := rfl
@[simp] theorem setRam_loaded (m : Memory) (s : State) : (setRam m s).loaded = s.loaded := rfl
@[simp] theorem setRam_cfg (m : Memory) (s : State) : (setRam m s).cfg = s.cfg := rfl
@[simp] theorem setRam_requests (m : Memory) (s : State) : (setRam m s).requests = s.requests := rfl
@[simp] theorem setRam_payloadIn (m : Memory) (s : State) : (setRam m s).payloadIn = s.payloadIn := rfl
@[simp] theorem setRam_payloadOut (m : Memory) (s : State) : (setRam m s).payloadOut = s.payloadOut := rfl
@[simp] theorem setRam_response (m : Memory) (s : State) : (setRam m s).response = s.response := rfl
@[simp] theorem setRam_levels (m : Memory) (s : State) : (setRam m s).levels = s.levels := rfl
@[simp] theorem setRam_calls (m : Memory) (s : State) : (setRam m s).calls = s.calls := rfl
@[simp] theorem setRam_queries (m : Memory) (s : State) : (setRam m s).queries = s.queries := rfl
@[simp] theorem setRam_log (m : Memory) (s : State) : (setRam m s).log = s.log := rfl
@[simp] theorem setRam_env (m : Memory) (s : State) : (setRam m s).env = s.env := rfl

@[simp] theorem setHalted_wram (b : Bool) (s : State) : (setHalted b s).wram = s.wram := rfl
@[simp] theorem setHalted_rom (b : Bool) (s : State) : (setHalted b s).rom = s.rom := rfl
@[simp] theorem setHalted_ram (b : Bool) (s : State) : (setHalted b s).ram = s.ram := rfl
@[simp] theorem setHalted_wcr (b : Bool) (s : State) : (setHalted b s).wcr = s.wcr := rfl
@[simp] theorem setHalted_irq (b : Bool) (s : State) : (setHalted b s).irq = s.irq := rfl
@[simp] theorem setHalted_acf (b : Bool) (s : State) : (setHalted b s).acf = s.acf := rfl
@[simp] theorem setHalted_evVideo (b : Bool) (s : State) : (setHalted b s).evVideo = s.evVideo := rfl
@[simp] theorem setHalted_evTimer (b : Bool) (s : State) : (setHalted b s).evTimer = s.evTimer := rfl
@[simp] theorem setHalted_evInput (b : Bool) (s : State) : (setHalted b s).evInput = s.evInput := rfl
@[simp] theorem setHalted_halt (b : Bool) (s : State) : (setHalted b s).halt = s.halt := rfl
@[simp] theorem setHalted_halted (b : Bool) (s : State) : (setHalted b s).halted = b := rfl
@[simp] theorem setHalted_loaded (b : Bool) (s : State) : (setHalted b s).loaded = s.loaded := rfl
@[simp] theorem setHalted_cfg (b : Bool) (s : State) : (setHalted b s).cfg = s.cfg := rfl
@[simp] theorem setHalted_requests (b : Bool) (s : State) : (setHalted b s).requests = s.requests := rfl
@[simp] theorem setHalted_payloadIn (b : Bool) (s : State) : (setHalted b s).payloadIn = s.payloadIn := rfl
@[simp] theorem setHalted_payloadOut (b : Bool) (s : State) : (setHalted b s).payloadOut = s.payloadOut := rfl
@[simp] theorem setHalted_response (b : Bool) (s : State) : (setHalted b s).response = s.response := rfl
@[simp] theorem setHalted_levels (b : Bool) (s : State) : (setHalted b s).levels = s.levels := rfl
@[simp] theorem setHalted_calls (b : Bool) (s : State) : (setHalted b s).calls = s.calls := rfl
@[simp] theorem setHalted_queries (b : Bool) (s : State) : (setHalted b s).queries = s.queries := rfl
@[simp] theorem setHalted_log (b : Bool) (s : State) : (setHalted b s).log = s.log := rfl
@[simp] theorem setHalted_env (b : Bool) (s : State) : (setHalted b s).env = s.env := rfl

@[simp] theorem pushLevel_wram (s : State) : (pushLevel s).wram = s.wram := rfl
@[simp] theorem pushLevel_rom (s : State) : (pushLevel s).rom = s.rom := rfl
@[simp] theorem pushLevel_ram (s : State) : (pushLevel s).ram = s.ram := rfl
@[simp] theorem pushLevel_wcr (s : State) : (pushLevel s).wcr = s.wcr := rfl
@[simp] theorem pushLevel_irq (s : State) : (pushLevel s).irq = s.irq := rfl
@[simp] theorem pushLevel_acf (s : State) : (pushLevel s).acf = s.acf := rfl
@[simp] theorem pushLevel_evVideo (s : State) : (pushLevel s).evVideo = s.evVideo := rfl
@[simp] theorem pushLevel_evTimer (s : State) : (pushLevel s).evTimer = s.evTimer := rfl
@[simp] theorem pushLevel_evInput (s : State) : (pushLevel s).evInput = s.evInput := rfl
@[simp] theorem pushLevel_halt (s : State) : (pushLevel s).halt = s.halt := rfl
@[simp] theorem pushLevel_halted (s : State) : (pushLevel s).halted = s.halted := rfl
@[simp] theorem pushLevel_loaded (s : State) : (pushLevel s).loaded = s.loaded := rfl
@[simp] theorem pushLevel_cfg (s : State) : (pushLevel s).cfg = s.cfg := rfl
@[simp] theorem pushLevel_requests (s : State) : (pushLevel s).requests = s.requests := rfl
@[simp] theorem pushLevel_payloadIn (s : State) : (pushLevel s).payloadIn = s.payloadIn := rfl
@[simp] theorem pushLevel_payloadOut (s : State) : (pushLevel s).payloadOut = s.payloadOut := rfl
@[simp] theorem pushLevel_response (s : State) : (pushLevel s).response = s.response := rfl
@[simp] theorem pushLevel_levels (s : State) : (pushLevel s).levels = level s.irq :: s.levels := rfl
@[simp] theorem pushLevel_calls (s : State) : (pushLevel s).calls = s.calls := rfl
@[simp] theorem pushLevel_queries (s : State) : (pushLevel s).queries = s.queries := rfl
@[simp] theorem pushLevel_log (s : State) : (pushLevel s).log = s.log := rfl
@[simp] theorem pushLevel_env (s : State) : (pushLevel s).env = s.env := rfl
theorem pushLevel_toBlock (s : State) : (pushLevel s).toBlock = s.toBlock := rfl

@[simp] theorem recordCall_wram (q : Call) (s : State) : (recordCall q s).wram = s.wram := rfl
@[simp] theorem recordCall_rom (q : Call) (s : State) : (recordCall q s).rom = s.rom := rfl
@[simp] theorem recordCall_ram (q : Call) (s : State) : (recordCall q s).ram = s.ram := rfl
@[simp] theorem recordCall_wcr (q : Call) (s : State) : (recordCall q s).wcr = s.wcr := rfl
@[simp] theorem recordCall_irq (q : Call) (s : State) : (recordCall q s).irq = s.irq := rfl
@[simp] theorem recordCall_acf (q : Call) (s : State) : (recordCall q s).acf = s.acf := rfl
@[simp] theorem recordCall_evVideo (q : Call) (s : State) : (recordCall q s).evVideo = s.evVideo := rfl
@[simp] theorem recordCall_evTimer (q : Call) (s : State) : (recordCall q s).evTimer = s.evTimer := rfl
@[simp] theorem recordCall_evInput (q : Call) (s : State) : (recordCall q s).evInput = s.evInput := rfl
@[simp] theorem recordCall_halt (q : Call) (s : State) : (recordCall q s).halt = s.halt := rfl
@[simp] theorem recordCall_halted (q : Call) (s : State) : (recordCall q s).halted = s.halted := rfl
@[simp] theorem recordCall_loaded (q : Call) (s : State) : (recordCall q s).loaded = s.loaded := rfl
@[simp] theorem recordCall_cfg (q : Call) (s : State) : (recordCall q s).cfg = s.cfg := rfl
@[simp] theorem recordCall_requests (q : Call) (s : State) : (recordCall q s).requests = s.requests := rfl
@[simp] theorem recordCall_payloadIn (q : Call) (s : State) : (recordCall q s).payloadIn = s.payloadIn := rfl
@[simp] theorem recordCall_payloadOut (q : Call) (s : State) : (recordCall q s).payloadOut = s.payloadOut := rfl
@[simp] theorem recordCall_response (q : Call) (s : State) : (recordCall q s).response = s.response := rfl
@[simp] theorem recordCall_levels (q : Call) (s : State) : (recordCall q s).levels = s.levels := rfl
@[simp] theorem recordCall_calls (q : Call) (s : State) : (recordCall q s).calls = q :: s.calls := rfl
@[simp] theorem recordCall_queries (q : Call) (s : State) : (recordCall q s).queries = s.queries := rfl
@[simp] theorem recordCall_log (q : Call) (s : State) : (recordCall q s).log = s.log := rfl
@[simp] theorem recordCall_env (q : Call) (s : State) : (recordCall q s).env = s.env := rfl
theorem recordCall_toBlock (q : Call) (s : State) : (recordCall q s).toBlock = s.toBlock := rfl

@[simp] theorem recordQuery_wram (q : Query) (s : State) : (recordQuery q s).wram = s.wram := rfl
@[simp] theorem recordQuery_rom (q : Query) (s : State) : (recordQuery q s).rom = s.rom := rfl
@[simp] theorem recordQuery_ram (q : Query) (s : State) : (recordQuery q s).ram = s.ram := rfl
@[simp] theorem recordQuery_wcr (q : Query) (s : State) : (recordQuery q s).wcr = s.wcr := rfl
@[simp] theorem recordQuery_irq (q : Query) (s : State) : (recordQuery q s).irq = s.irq := rfl
@[simp] theorem recordQuery_acf (q : Query) (s : State) : (recordQuery q s).acf = s.acf := rfl
@[simp] theorem recordQuery_evVideo (q : Query) (s : State) : (recordQuery q s).evVideo = s.evVideo := rfl
@[simp] theorem recordQuery_evTimer (q : Query) (s : State) : (recordQuery q s).evTimer = s.evTimer := rfl
@[simp] theorem recordQuery_evInput (q : Query) (s : State) : (recordQuery q s).evInput = s.evInput := rfl
@[simp] theorem recordQuery_halt (q : Query) (s : State) : (recordQuery q s).halt = s.halt := rfl
@[simp] theorem recordQuery_halted (q : Query) (s : State) : (recordQuery q s).halted = s.halted := rfl
@[simp] theorem recordQuery_loaded (q : Query) (s : State) : (recordQuery q s).loaded = s.loaded := rfl
@[simp] theorem recordQuery_cfg (q : Query) (s : State) : (recordQuery q s).cfg = s.cfg := rfl
@[simp] theorem recordQuery_requests (q : Query) (s : State) : (recordQuery q s).requests = s.requests := rfl
@[simp] theorem recordQuery_payloadIn (q : Query) (s : State) : (recordQuery q s).payloadIn = s.payloadIn := rfl
@[simp] theorem recordQuery_payloadOut (q : Query) (s : State) : (recordQuery q s).payloadOut = s.payloadOut := rfl
@[simp] theorem recordQuery_response (q : Query) (s : State) : (recordQuery q s).response = s.response := rfl
@[simp] theorem recordQuery_levels (q : Query) (s : State) : (recordQuery q s).levels = s.levels := rfl
@[simp] theorem recordQuery_calls (q : Query) (s : State) : (recordQuery q s).calls = s.calls := rfl
@[simp] theorem recordQuery_queries (q : Query) (s : State) : (recordQuery q s).queries = (s.calls.length, q) :: s.queries := rfl
@[simp] theorem recordQuery_log (q : Query) (s : State) : (recordQuery q s).log = s.log := rfl
@[simp] theorem recordQuery_env (q : Query) (s : State) : (recordQuery q s).env = s.env := rfl
theorem recordQuery_toBlock (q : Query) (s : State) : (recordQuery q s).toBlock = s.toBlock := rfl

@[simp] theorem writeLog_wram (r : LogRecord) (s : State) : (writeLog r s).wram = s.wram := rfl
@[simp] theorem writeLog_rom (r : LogRecord) (s : State) : (writeLog r s).rom = s.rom := rfl
@[simp] theorem writeLog_ram (r : LogRecord) (s : State) : (writeLog r s).ram = s.ram := rfl
@[simp] theorem writeLog_wcr (r : LogRecord) (s : State) : (writeLog r s).wcr = s.wcr := rfl
@[simp] theorem writeLog_irq (r : LogRecord) (s : State) : (writeLog r s).irq = s.irq := rfl
@[simp] theorem writeLog_acf (r : LogRecord) (s : State) : (writeLog r s).acf = s.acf := rfl
@[simp] theorem writeLog_evVideo (r : LogRecord) (s : State) : (writeLog r s).evVideo = s.evVideo := rfl
@[simp] theorem writeLog_evTimer (r : LogRecord) (s : State) : (writeLog r s).evTimer = s.evTimer := rfl
@[simp] theorem writeLog_evInput (r : LogRecord) (s : State) : (writeLog r s).evInput = s.evInput := rfl
@[simp] theorem writeLog_halt (r : LogRecord) (s : State) : (writeLog r s).halt = s.halt := rfl
@[simp] theorem writeLog_halted (r : LogRecord) (s : State) : (writeLog r s).halted = s.halted := rfl
@[simp] theorem writeLog_loaded (r : LogRecord) (s : State) : (writeLog r s).loaded = s.loaded := rfl
@[simp] theorem writeLog_cfg (r : LogRecord) (s : State) : (writeLog r s).cfg = s.cfg := rfl
@[simp] theorem writeLog_requests (r : LogRecord) (s : State) : (writeLog r s).requests = s.requests := rfl
@[simp] theorem writeLog_payloadIn (r : LogRecord) (s : State) : (writeLog r s).payloadIn = s.payloadIn := rfl
@[simp] theorem writeLog_payloadOut (r : LogRecord) (s : State) : (writeLog r s).payloadOut = s.payloadOut := rfl
@[simp] theorem writeLog_response (r : LogRecord) (s : State) : (writeLog r s).response = s.response := rfl
@[simp] theorem writeLog_levels (r : LogRecord) (s : State) : (writeLog r s).levels = s.levels := rfl
@[simp] theorem writeLog_calls (r : LogRecord) (s : State) : (writeLog r s).calls = s.calls := rfl
@[simp] theorem writeLog_queries (r : LogRecord) (s : State) : (writeLog r s).queries = s.queries := rfl
@[simp] theorem writeLog_log (r : LogRecord) (s : State) : (writeLog r s).log = if s.cfg.logEnable then r :: s.log else s.log := rfl
@[simp] theorem writeLog_env (r : LogRecord) (s : State) : (writeLog r s).env = s.env := rfl
theorem writeLog_toBlock (r : LogRecord) (s : State) : (writeLog r s).toBlock = s.toBlock := rfl

@[simp] theorem respond_wram (r : Response) (s : State) : (respond r s).wram = s.wram := rfl
@[simp] theorem respond_rom (r : Response) (s : State) : (respond r s).rom = s.rom := rfl
@[simp] theorem respond_ram (r : Response) (s : State) : (respond r s).ram = s.ram := rfl
@[simp] theorem respond_wcr (r : Response) (s : State) : (respond r s).wcr = s.wcr := rfl
@[simp] theorem respond_irq (r : Response) (s : State) : (respond r s).irq = s.irq := rfl
@[simp] theorem respond_acf (r : Response) (s : State) : (respond r s).acf = s.acf := rfl
@[simp] theorem respond_evVideo (r : Response) (s : State) : (respond r s).evVideo = s.evVideo := rfl
@[simp] theorem respond_evTimer (r : Response) (s : State) : (respond r s).evTimer = s.evTimer := rfl
@[simp] theorem respond_evInput (r : Response) (s : State) : (respond r s).evInput = s.evInput := rfl
@[simp] theorem respond_halt (r : Response) (s : State) : (respond r s).halt = s.halt := rfl
@[simp] theorem respond_halted (r : Response) (s : State) : (respond r s).halted = s.halted := rfl
@[simp] theorem respond_loaded (r : Response) (s : State) : (respond r s).loaded = s.loaded := rfl
@[simp] theorem respond_cfg (r : Response) (s : State) : (respond r s).cfg = s.cfg := rfl
@[simp] theorem respond_requests (r : Response) (s : State) : (respond r s).requests = s.requests := rfl
@[simp] theorem respond_payloadIn (r : Response) (s : State) : (respond r s).payloadIn = s.payloadIn := rfl
@[simp] theorem respond_payloadOut (r : Response) (s : State) : (respond r s).payloadOut = s.payloadOut := rfl
@[simp] theorem respond_response (r : Response) (s : State) : (respond r s).response = some r := rfl
@[simp] theorem respond_levels (r : Response) (s : State) : (respond r s).levels = s.levels := rfl
@[simp] theorem respond_calls (r : Response) (s : State) : (respond r s).calls = s.calls := rfl
@[simp] theorem respond_queries (r : Response) (s : State) : (respond r s).queries = s.queries := rfl
@[simp] theorem respond_log (r : Response) (s : State) : (respond r s).log = s.log := rfl
@[simp] theorem respond_env (r : Response) (s : State) : (respond r s).env = s.env := rfl
theorem respond_toBlock (r : Response) (s : State) : (respond r s).toBlock = s.toBlock := rfl

@[simp] theorem emit_wram (bs : List Byte) (s : State) : (emit bs s).wram = s.wram := rfl
@[simp] theorem emit_rom (bs : List Byte) (s : State) : (emit bs s).rom = s.rom := rfl
@[simp] theorem emit_ram (bs : List Byte) (s : State) : (emit bs s).ram = s.ram := rfl
@[simp] theorem emit_wcr (bs : List Byte) (s : State) : (emit bs s).wcr = s.wcr := rfl
@[simp] theorem emit_irq (bs : List Byte) (s : State) : (emit bs s).irq = s.irq := rfl
@[simp] theorem emit_acf (bs : List Byte) (s : State) : (emit bs s).acf = s.acf := rfl
@[simp] theorem emit_evVideo (bs : List Byte) (s : State) : (emit bs s).evVideo = s.evVideo := rfl
@[simp] theorem emit_evTimer (bs : List Byte) (s : State) : (emit bs s).evTimer = s.evTimer := rfl
@[simp] theorem emit_evInput (bs : List Byte) (s : State) : (emit bs s).evInput = s.evInput := rfl
@[simp] theorem emit_halt (bs : List Byte) (s : State) : (emit bs s).halt = s.halt := rfl
@[simp] theorem emit_halted (bs : List Byte) (s : State) : (emit bs s).halted = s.halted := rfl
@[simp] theorem emit_loaded (bs : List Byte) (s : State) : (emit bs s).loaded = s.loaded := rfl
@[simp] theorem emit_cfg (bs : List Byte) (s : State) : (emit bs s).cfg = s.cfg := rfl
@[simp] theorem emit_requests (bs : List Byte) (s : State) : (emit bs s).requests = s.requests := rfl
@[simp] theorem emit_payloadIn (bs : List Byte) (s : State) : (emit bs s).payloadIn = s.payloadIn := rfl
@[simp] theorem emit_payloadOut (bs : List Byte) (s : State) : (emit bs s).payloadOut = s.payloadOut ++ bs := rfl
@[simp] theorem emit_response (bs : List Byte) (s : State) : (emit bs s).response = s.response := rfl
@[simp] theorem emit_levels (bs : List Byte) (s : State) : (emit bs s).levels = s.levels := rfl
@[simp] theorem emit_calls (bs : List Byte) (s : State) : (emit bs s).calls = s.calls := rfl
@[simp] theorem emit_queries (bs : List Byte) (s : State) : (emit bs s).queries = s.queries := rfl
@[simp] theorem emit_log (bs : List Byte) (s : State) : (emit bs s).log = s.log := rfl
@[simp] theorem emit_env (bs : List Byte) (s : State) : (emit bs s).env = s.env := rfl
theorem emit_toBlock (bs : List Byte) (s : State) : (emit bs s).toBlock = s.toBlock := rfl

@[simp] theorem consume_wram (n : Nat) (s : State) : (consume n s).wram = s.wram := rfl
@[simp] theorem consume_rom (n : Nat) (s : State) : (consume n s).rom = s.rom := rfl
@[simp] theorem consume_ram (n : Nat) (s : State) : (consume n s).ram = s.ram := rfl
@[simp] theorem consume_wcr (n : Nat) (s : State) : (consume n s).wcr = s.wcr := rfl
@[simp] theorem consume_irq (n : Nat) (s : State) : (consume n s).irq = s.irq := rfl
@[simp] theorem consume_acf (n : Nat) (s : State) : (consume n s).acf = s.acf := rfl
@[simp] theorem consume_evVideo (n : Nat) (s : State) : (consume n s).evVideo = s.evVideo := rfl
@[simp] theorem consume_evTimer (n : Nat) (s : State) : (consume n s).evTimer = s.evTimer := rfl
@[simp] theorem consume_evInput (n : Nat) (s : State) : (consume n s).evInput = s.evInput := rfl
@[simp] theorem consume_halt (n : Nat) (s : State) : (consume n s).halt = s.halt := rfl
@[simp] theorem consume_halted (n : Nat) (s : State) : (consume n s).halted = s.halted := rfl
@[simp] theorem consume_loaded (n : Nat) (s : State) : (consume n s).loaded = s.loaded := rfl
@[simp] theorem consume_cfg (n : Nat) (s : State) : (consume n s).cfg = s.cfg := rfl
@[simp] theorem consume_requests (n : Nat) (s : State) : (consume n s).requests = s.requests := rfl
@[simp] theorem consume_payloadIn (n : Nat) (s : State) : (consume n s).payloadIn = s.payloadIn.drop n := rfl
@[simp] theorem consume_payloadOut (n : Nat) (s : State) : (consume n s).payloadOut = s.payloadOut := rfl
@[simp] theorem consume_response (n : Nat) (s : State) : (consume n s).response = s.response := rfl
@[simp] theorem consume_levels (n : Nat) (s : State) : (consume n s).levels = s.levels := rfl
@[simp] theorem consume_calls (n : Nat) (s : State) : (consume n s).calls = s.calls := rfl
@[simp] theorem consume_queries (n : Nat) (s : State) : (consume n s).queries = s.queries := rfl
@[simp] theorem consume_log (n : Nat) (s : State) : (consume n s).log = s.log := rfl
@[simp] theorem consume_env (n : Nat) (s : State) : (consume n s).env = { s.env with drawn := s.env.drawn + (n - s.payloadIn.length) } := rfl
theorem consume_toBlock (n : Nat) (s : State) : (consume n s).toBlock = s.toBlock := rfl

@[simp] theorem rebaseEvents_wram (c : Int) (s : State) : (rebaseEvents c s).wram = s.wram := rfl
@[simp] theorem rebaseEvents_rom (c : Int) (s : State) : (rebaseEvents c s).rom = s.rom := rfl
@[simp] theorem rebaseEvents_ram (c : Int) (s : State) : (rebaseEvents c s).ram = s.ram := rfl
@[simp] theorem rebaseEvents_wcr (c : Int) (s : State) : (rebaseEvents c s).wcr = s.wcr := rfl
@[simp] theorem rebaseEvents_irq (c : Int) (s : State) : (rebaseEvents c s).irq = s.irq := rfl
@[simp] theorem rebaseEvents_acf (c : Int) (s : State) : (rebaseEvents c s).acf = s.acf := rfl
@[simp] theorem rebaseEvents_evVideo (c : Int) (s : State) : (rebaseEvents c s).evVideo = s.evVideo.rebase c := rfl
@[simp] theorem rebaseEvents_evTimer (c : Int) (s : State) : (rebaseEvents c s).evTimer = s.evTimer.rebase c := rfl
@[simp] theorem rebaseEvents_evInput (c : Int) (s : State) : (rebaseEvents c s).evInput = s.evInput.rebase c := rfl
@[simp] theorem rebaseEvents_halt (c : Int) (s : State) : (rebaseEvents c s).halt = s.halt := rfl
@[simp] theorem rebaseEvents_halted (c : Int) (s : State) : (rebaseEvents c s).halted = s.halted := rfl
@[simp] theorem rebaseEvents_loaded (c : Int) (s : State) : (rebaseEvents c s).loaded = s.loaded := rfl
@[simp] theorem rebaseEvents_cfg (c : Int) (s : State) : (rebaseEvents c s).cfg = s.cfg := rfl
@[simp] theorem rebaseEvents_requests (c : Int) (s : State) : (rebaseEvents c s).requests = s.requests := rfl
@[simp] theorem rebaseEvents_payloadIn (c : Int) (s : State) : (rebaseEvents c s).payloadIn = s.payloadIn := rfl
@[simp] theorem rebaseEvents_payloadOut (c : Int) (s : State) : (rebaseEvents c s).payloadOut = s.payloadOut := rfl
@[simp] theorem rebaseEvents_response (c : Int) (s : State) : (rebaseEvents c s).response = s.response := rfl
@[simp] theorem rebaseEvents_levels (c : Int) (s : State) : (rebaseEvents c s).levels = s.levels := rfl
@[simp] theorem rebaseEvents_calls (c : Int) (s : State) : (rebaseEvents c s).calls = s.calls := rfl
@[simp] theorem rebaseEvents_queries (c : Int) (s : State) : (rebaseEvents c s).queries = s.queries := rfl
@[simp] theorem rebaseEvents_log (c : Int) (s : State) : (rebaseEvents c s).log = s.log := rfl
@[simp] theorem rebaseEvents_env (c : Int) (s : State) : (rebaseEvents c s).env = s.env := rfl

@[simp] theorem fixNonEvents_wram (s : State) : (fixNonEvents s).wram = s.wram := rfl
@[simp] theorem fixNonEvents_rom (s : State) : (fixNonEvents s).rom = s.rom := rfl
@[simp] theorem fixNonEvents_ram (s : State) : (fixNonEvents s).ram = s.ram := rfl
@[simp] theorem fixNonEvents_wcr (s : State) : (fixNonEvents s).wcr = s.wcr := rfl
@[simp] theorem fixNonEvents_irq (s : State) : (fixNonEvents s).irq = s.irq := rfl
@[simp] theorem fixNonEvents_acf (s : State) : (fixNonEvents s).acf = s.acf := rfl
@[simp] theorem fixNonEvents_evVideo (s : State) : (fixNonEvents s).evVideo = s.evVideo.fixNonEvent s.cfg.farThreshold := rfl
@[simp] theorem fixNonEvents_evTimer (s : State) : (fixNonEvents s).evTimer = s.evTimer.fixNonEvent s.cfg.farThreshold := rfl
@[simp] theorem fixNonEvents_evInput (s : State) : (fixNonEvents s).evInput = s.evInput.fixNonEvent s.cfg.farThreshold := rfl
@[simp] theorem fixNonEvents_halt (s : State) : (fixNonEvents s).halt = s.halt := rfl
@[simp] theorem fixNonEvents_halted (s : State) : (fixNonEvents s).halted = s.halted := rfl
@[simp] theorem fixNonEvents_loaded (s : State) : (fixNonEvents s).loaded = s.loaded := rfl
@[simp] theorem fixNonEvents_cfg (s : State) : (fixNonEvents s).cfg = s.cfg := rfl
@[simp] theorem fixNonEvents_requests (s : State) : (fixNonEvents s).requests = s.requests := rfl
@[simp] theorem fixNonEvents_payloadIn (s : State) : (fixNonEvents s).payloadIn = s.payloadIn := rfl
@[simp] theorem fixNonEvents_payloadOut (s : State) : (fixNonEvents s).payloadOut = s.payloadOut := rfl
@[simp] theorem fixNonEvents_response (s : State) : (fixNonEvents s).response = s.response := rfl
@[simp] theorem fixNonEvents_levels (s : State) : (fixNonEvents s).levels = s.levels := rfl
@[simp] theorem fixNonEvents_calls (s : State) : (fixNonEvents s).calls = s.calls := rfl
@[simp] theorem fixNonEvents_queries (s : State) : (fixNonEvents s).queries = s.queries := rfl
@[simp] theorem fixNonEvents_log (s : State) : (fixNonEvents s).log = s.log := rfl
@[simp] theorem fixNonEvents_env (s : State) : (fixNonEvents s).env = s.env := rfl

@[simp] theorem clearBlock_wram (s : State) : (clearBlock s).wram = [] := rfl
@[simp] theorem clearBlock_rom (s : State) : (clearBlock s).rom = s.rom := rfl
@[simp] theorem clearBlock_ram (s : State) : (clearBlock s).ram = s.ram := rfl
@[simp] theorem clearBlock_wcr (s : State) : (clearBlock s).wcr = 0 := rfl
@[simp] theorem clearBlock_irq (s : State) : (clearBlock s).irq = 0 := rfl
@[simp] theorem clearBlock_acf (s : State) : (clearBlock s).acf = 0 := rfl
@[simp] theorem clearBlock_evVideo (s : State) : (clearBlock s).evVideo = .none := rfl
@[simp] theorem clearBlock_evTimer (s : State) : (clearBlock s).evTimer = .none := rfl
@[simp] theorem clearBlock_evInput (s : State) : (clearBlock s).evInput = .none := rfl
@[simp] theorem clearBlock_halt (s : State) : (clearBlock s).halt = .none := rfl
@[simp] theorem clearBlock_halted (s : State) : (clearBlock s).halted = false := rfl
@[simp] theorem clearBlock_loaded (s : State) : (clearBlock s).loaded = s.loaded := rfl
@[simp] theorem clearBlock_cfg (s : State) : (clearBlock s).cfg = s.cfg := rfl
@[simp] theorem clearBlock_requests (s : State) : (clearBlock s).requests = s.requests := rfl
@[simp] theorem clearBlock_payloadIn (s : State) : (clearBlock s).payloadIn = s.payloadIn := rfl
@[simp] theorem clearBlock_payloadOut (s : State) : (clearBlock s).payloadOut = s.payloadOut := rfl
@[simp] theorem clearBlock_response (s : State) : (clearBlock s).response = s.response := rfl
@[simp] theorem clearBlock_levels (s : State) : (clearBlock s).levels = s.levels := rfl
@[simp] theorem clearBlock_calls (s : State) : (clearBlock s).calls = s.calls := rfl
@[simp] theorem clearBlock_queries (s : State) : (clearBlock s).queries = s.queries := rfl
@[simp] theorem clearBlock_log (s : State) : (clearBlock s).log = s.log := rfl
@[simp] theorem clearBlock_env (s : State) : (clearBlock s).env = s.env := rfl

@[simp] theorem installImage_wram (image : List Byte) (L : Nat) (s : State) : (installImage image L s).wram = s.wram := rfl
@[simp] theorem installImage_rom (image : List Byte) (L : Nat) (s : State) : (installImage image L s).rom = ⟨Memory.ofBytes image, L⟩ := rfl
@[simp] theorem installImage_ram (image : List Byte) (L : Nat) (s : State) : (installImage image L s).ram = s.cfg.ramInit := rfl
@[simp] theorem installImage_wcr (image : List Byte) (L : Nat) (s : State) : (installImage image L s).wcr = s.wcr := rfl
@[simp] theorem installImage_irq (image : List Byte) (L : Nat) (s : State) : (installImage image L s).irq = s.irq := rfl
@[simp] theorem installImage_acf (image : List Byte) (L : Nat) (s : State) : (installImage image L s).acf = s.acf := rfl
@[simp] theorem installImage_evVideo (image : List Byte) (L : Nat) (s : State) : (installImage image L s).evVideo = s.evVideo := rfl
@[simp] theorem installImage_evTimer (image : List Byte) (L : Nat) (s : State) : (installImage image L s).evTimer = s.evTimer := rfl
@[simp] theorem installImage_evInput (image : List Byte) (L : Nat) (s : State) : (installImage image L s).evInput = s.evInput := rfl
@[simp] theorem installImage_halt (image : List Byte) (L : Nat) (s : State) : (installImage image L s).halt = s.halt := rfl
@[simp] theorem installImage_halted (image : List Byte) (L : Nat) (s : State) : (installImage image L s).halted = s.halted := rfl
@[simp] theorem installImage_loaded (image : List Byte) (L : Nat) (s : State) : (installImage image L s).loaded = true := rfl
@[simp] theorem installImage_cfg (image : List Byte) (L : Nat) (s : State) : (installImage image L s).cfg = s.cfg := rfl
@[simp] theorem installImage_requests (image : List Byte) (L : Nat) (s : State) : (installImage image L s).requests = s.requests := rfl
@[simp] theorem installImage_payloadIn (image : List Byte) (L : Nat) (s : State) : (installImage image L s).payloadIn = s.payloadIn := rfl
@[simp] theorem installImage_payloadOut (image : List Byte) (L : Nat) (s : State) : (installImage image L s).payloadOut = s.payloadOut := rfl
@[simp] theorem installImage_response (image : List Byte) (L : Nat) (s : State) : (installImage image L s).response = s.response := rfl
@[simp] theorem installImage_levels (image : List Byte) (L : Nat) (s : State) : (installImage image L s).levels = s.levels := rfl
@[simp] theorem installImage_calls (image : List Byte) (L : Nat) (s : State) : (installImage image L s).calls = s.calls := rfl
@[simp] theorem installImage_queries (image : List Byte) (L : Nat) (s : State) : (installImage image L s).queries = s.queries := rfl
@[simp] theorem installImage_log (image : List Byte) (L : Nat) (s : State) : (installImage image L s).log = s.log := rfl
@[simp] theorem installImage_env (image : List Byte) (L : Nat) (s : State) : (installImage image L s).env = s.env := rfl

@[simp] theorem commitBlock_wram (q : Snapshot) (s : State) : (commitBlock q s).wram = Memory.ofBytes q.wram := rfl
@[simp] theorem commitBlock_rom (q : Snapshot) (s : State) : (commitBlock q s).rom = s.rom := rfl
@[simp] theorem commitBlock_ram (q : Snapshot) (s : State) : (commitBlock q s).ram = Memory.ofBytes q.cram := rfl
@[simp] theorem commitBlock_wcr (q : Snapshot) (s : State) : (commitBlock q s).wcr = (q.busreg.getD 0 0).extractLsb' 0 2 := rfl
@[simp] theorem commitBlock_irq (q : Snapshot) (s : State) : (commitBlock q s).irq = (q.busreg.getD 1 0).extractLsb' 0 5 := rfl
@[simp] theorem commitBlock_acf (q : Snapshot) (s : State) : (commitBlock q s).acf = (q.busreg.getD 2 0).extractLsb' 0 2 := rfl
@[simp] theorem commitBlock_evVideo (q : Snapshot) (s : State) : (commitBlock q s).evVideo = s.evVideo := rfl
@[simp] theorem commitBlock_evTimer (q : Snapshot) (s : State) : (commitBlock q s).evTimer = s.evTimer := rfl
@[simp] theorem commitBlock_evInput (q : Snapshot) (s : State) : (commitBlock q s).evInput = s.evInput := rfl
@[simp] theorem commitBlock_halt (q : Snapshot) (s : State) : (commitBlock q s).halt = s.halt := rfl
@[simp] theorem commitBlock_halted (q : Snapshot) (s : State) : (commitBlock q s).halted = s.halted := rfl
@[simp] theorem commitBlock_loaded (q : Snapshot) (s : State) : (commitBlock q s).loaded = s.loaded := rfl
@[simp] theorem commitBlock_cfg (q : Snapshot) (s : State) : (commitBlock q s).cfg = s.cfg := rfl
@[simp] theorem commitBlock_requests (q : Snapshot) (s : State) : (commitBlock q s).requests = s.requests := rfl
@[simp] theorem commitBlock_payloadIn (q : Snapshot) (s : State) : (commitBlock q s).payloadIn = s.payloadIn := rfl
@[simp] theorem commitBlock_payloadOut (q : Snapshot) (s : State) : (commitBlock q s).payloadOut = s.payloadOut := rfl
@[simp] theorem commitBlock_response (q : Snapshot) (s : State) : (commitBlock q s).response = s.response := rfl
@[simp] theorem commitBlock_levels (q : Snapshot) (s : State) : (commitBlock q s).levels = s.levels := rfl
@[simp] theorem commitBlock_calls (q : Snapshot) (s : State) : (commitBlock q s).calls = s.calls := rfl
@[simp] theorem commitBlock_queries (q : Snapshot) (s : State) : (commitBlock q s).queries = s.queries := rfl
@[simp] theorem commitBlock_log (q : Snapshot) (s : State) : (commitBlock q s).log = s.log := rfl
@[simp] theorem commitBlock_env (q : Snapshot) (s : State) : (commitBlock q s).env = s.env := rfl

@[simp] theorem clearSchedule_wram (s : State) : (clearSchedule s).wram = s.wram := rfl
@[simp] theorem clearSchedule_rom (s : State) : (clearSchedule s).rom = s.rom := rfl
@[simp] theorem clearSchedule_ram (s : State) : (clearSchedule s).ram = s.ram := rfl
@[simp] theorem clearSchedule_wcr (s : State) : (clearSchedule s).wcr = s.wcr := rfl
@[simp] theorem clearSchedule_irq (s : State) : (clearSchedule s).irq = s.irq := rfl
@[simp] theorem clearSchedule_acf (s : State) : (clearSchedule s).acf = s.acf := rfl
@[simp] theorem clearSchedule_evVideo (s : State) : (clearSchedule s).evVideo = .none := rfl
@[simp] theorem clearSchedule_evTimer (s : State) : (clearSchedule s).evTimer = .none := rfl
@[simp] theorem clearSchedule_evInput (s : State) : (clearSchedule s).evInput = .none := rfl
@[simp] theorem clearSchedule_halt (s : State) : (clearSchedule s).halt = .none := rfl
@[simp] theorem clearSchedule_halted (s : State) : (clearSchedule s).halted = s.halted := rfl
@[simp] theorem clearSchedule_loaded (s : State) : (clearSchedule s).loaded = s.loaded := rfl
@[simp] theorem clearSchedule_cfg (s : State) : (clearSchedule s).cfg = s.cfg := rfl
@[simp] theorem clearSchedule_requests (s : State) : (clearSchedule s).requests = s.requests := rfl
@[simp] theorem clearSchedule_payloadIn (s : State) : (clearSchedule s).payloadIn = s.payloadIn := rfl
@[simp] theorem clearSchedule_payloadOut (s : State) : (clearSchedule s).payloadOut = s.payloadOut := rfl
@[simp] theorem clearSchedule_response (s : State) : (clearSchedule s).response = s.response := rfl
@[simp] theorem clearSchedule_levels (s : State) : (clearSchedule s).levels = s.levels := rfl
@[simp] theorem clearSchedule_calls (s : State) : (clearSchedule s).calls = s.calls := rfl
@[simp] theorem clearSchedule_queries (s : State) : (clearSchedule s).queries = s.queries := rfl
@[simp] theorem clearSchedule_log (s : State) : (clearSchedule s).log = s.log := rfl
@[simp] theorem clearSchedule_env (s : State) : (clearSchedule s).env = s.env := rfl

@[simp] theorem setEv_wram (p : EvClass) (T : Time) (s : State) : (setEv p T s).wram = s.wram := by cases p <;> rfl
@[simp] theorem setEv_rom (p : EvClass) (T : Time) (s : State) : (setEv p T s).rom = s.rom := by cases p <;> rfl
@[simp] theorem setEv_ram (p : EvClass) (T : Time) (s : State) : (setEv p T s).ram = s.ram := by cases p <;> rfl
@[simp] theorem setEv_wcr (p : EvClass) (T : Time) (s : State) : (setEv p T s).wcr = s.wcr := by cases p <;> rfl
@[simp] theorem setEv_irq (p : EvClass) (T : Time) (s : State) : (setEv p T s).irq = s.irq := by cases p <;> rfl
@[simp] theorem setEv_acf (p : EvClass) (T : Time) (s : State) : (setEv p T s).acf = s.acf := by cases p <;> rfl
@[simp] theorem setEv_evVideo (p : EvClass) (T : Time) (s : State) :
    (setEv p T s).evVideo = if p = .video then T else s.evVideo := by cases p <;> rfl
@[simp] theorem setEv_evTimer (p : EvClass) (T : Time) (s : State) :
    (setEv p T s).evTimer = if p = .timer then T else s.evTimer := by cases p <;> rfl
@[simp] theorem setEv_evInput (p : EvClass) (T : Time) (s : State) :
    (setEv p T s).evInput = if p = .input then T else s.evInput := by cases p <;> rfl
@[simp] theorem setEv_halt (p : EvClass) (T : Time) (s : State) : (setEv p T s).halt = s.halt := by cases p <;> rfl
@[simp] theorem setEv_halted (p : EvClass) (T : Time) (s : State) : (setEv p T s).halted = s.halted := by cases p <;> rfl
@[simp] theorem setEv_loaded (p : EvClass) (T : Time) (s : State) : (setEv p T s).loaded = s.loaded := by cases p <;> rfl
@[simp] theorem setEv_cfg (p : EvClass) (T : Time) (s : State) : (setEv p T s).cfg = s.cfg := by cases p <;> rfl
@[simp] theorem setEv_requests (p : EvClass) (T : Time) (s : State) : (setEv p T s).requests = s.requests := by cases p <;> rfl
@[simp] theorem setEv_payloadIn (p : EvClass) (T : Time) (s : State) : (setEv p T s).payloadIn = s.payloadIn := by cases p <;> rfl
@[simp] theorem setEv_payloadOut (p : EvClass) (T : Time) (s : State) : (setEv p T s).payloadOut = s.payloadOut := by cases p <;> rfl
@[simp] theorem setEv_response (p : EvClass) (T : Time) (s : State) : (setEv p T s).response = s.response := by cases p <;> rfl
@[simp] theorem setEv_levels (p : EvClass) (T : Time) (s : State) : (setEv p T s).levels = s.levels := by cases p <;> rfl
@[simp] theorem setEv_calls (p : EvClass) (T : Time) (s : State) : (setEv p T s).calls = s.calls := by cases p <;> rfl
@[simp] theorem setEv_queries (p : EvClass) (T : Time) (s : State) : (setEv p T s).queries = s.queries := by cases p <;> rfl
@[simp] theorem setEv_log (p : EvClass) (T : Time) (s : State) : (setEv p T s).log = s.log := by cases p <;> rfl
@[simp] theorem setEv_env (p : EvClass) (T : Time) (s : State) : (setEv p T s).env = s.env := by cases p <;> rfl

@[simp] theorem setEv_ev_same (p : EvClass) (T : Time) (s : State) : (setEv p T s).ev p = T := by cases p <;> rfl

theorem setEv_ev_other (p q : EvClass) (h : q ≠ p) (T : Time) (s : State) : (setEv p T s).ev q = s.ev q := by
  cases p <;> cases q <;> first | rfl | exact absurd rfl h

theorem setEv_ev (p q : EvClass) (T : Time) (s : State) :
    (setEv p T s).ev q = if p = q then T else s.ev q := by cases p <;> cases q <;> rfl

end Sys2Proof.Machine
end

