-- ==== Sys2Proof/Laws/Ops.lean ====
section
/-! SUPPORT. What the shared operations can do, said once each: what a contract call may change, the schedule after the
sequencer's helpers, the invariant through each of them, and when a request is admitted. -/

namespace Sys2Proof.Machine

/-! ## What a peripheral's answer may change: EV, HALT, IRQ, the driven levels, the trace of calls -/

/-- `t` differs from `s` at most in EV, HALT, IRQ, the driven levels and the calls made (R100, R126). -/
structure ScheduleOnly (s t : State) : Prop where
  wram : t.wram = s.wram
  rom : t.rom = s.rom
  ram : t.ram = s.ram
  wcr : t.wcr = s.wcr
  acf : t.acf = s.acf
  halted : t.halted = s.halted
  loaded : t.loaded = s.loaded
  cfg : t.cfg = s.cfg
  requests : t.requests = s.requests
  payloadIn : t.payloadIn = s.payloadIn
  payloadOut : t.payloadOut = s.payloadOut
  queries : t.queries = s.queries
  response : t.response = s.response
  log : t.log = s.log
  env : t.env = s.env

theorem ScheduleOnly.refl (s : State) : ScheduleOnly s s := by constructor <;> rfl

theorem ScheduleOnly.trans {s t u : State} (h : ScheduleOnly s t) (k : ScheduleOnly t u) : ScheduleOnly s u := by
  constructor
  · exact k.wram.trans h.wram
  · exact k.rom.trans h.rom
  · exact k.ram.trans h.ram
  · exact k.wcr.trans h.wcr
  · exact k.acf.trans h.acf
  · exact k.halted.trans h.halted
  · exact k.loaded.trans h.loaded
  · exact k.cfg.trans h.cfg
  · exact k.requests.trans h.requests
  · exact k.payloadIn.trans h.payloadIn
  · exact k.payloadOut.trans h.payloadOut
  · exact k.queries.trans h.queries
  · exact k.response.trans h.response
  · exact k.log.trans h.log
  · exact k.env.trans h.env

theorem setEv_schedule (p : EvClass) (T : Time) (s : State) : ScheduleOnly s (setEv p T s) := by
  constructor <;> simp

theorem setHalt_schedule (T : Time) (s : State) : ScheduleOnly s (setHalt T s) := by
  constructor <;> simp

theorem pushLevel_schedule (s : State) : ScheduleOnly s (pushLevel s) := by
  constructor <;> simp

theorem recordCall_schedule (q : Call) (s : State) : ScheduleOnly s (recordCall q s) := by
  constructor <;> simp

theorem clearSchedule_schedule (s : State) : ScheduleOnly s (clearSchedule s) := by
  constructor <;> simp

theorem rebaseEvents_schedule (c : Int) (s : State) : ScheduleOnly s (rebaseEvents c s) := by
  constructor <;> simp

theorem fixNonEvents_schedule (s : State) : ScheduleOnly s (fixNonEvents s) := by
  constructor <;> simp

theorem setEvent_schedule (p : EvClass) (T : Time) (s : State) : ScheduleOnly s (setEvent p T s) := by
  unfold setEvent
  dsimp only
  split
  · exact (setEv_schedule p T s).trans (setHalt_schedule T _)
  · exact setEv_schedule p T s

theorem assertSource_schedule (src : Fin 5) (on : Bool) (s : State) : ScheduleOnly s (assertSource src on s) := by
  constructor <;> simp [assertSource]

theorem applyCallback_schedule (s : State) (cb : Callback) : ScheduleOnly s (applyCallback s cb) := by
  cases cb
  · exact setEvent_schedule _ _ s
  · exact assertSource_schedule _ _ s

theorem applyCallbacks_schedule (cbs : List Callback) (s : State) : ScheduleOnly s (applyCallbacks cbs s) := by
  induction cbs generalizing s with
  | nil => exact ScheduleOnly.refl s
  | cons cb cbs ih => exact (applyCallback_schedule s cb).trans (ih _)

/-- No callback makes a contract call. -/
@[simp] theorem setEvent_calls (p : EvClass) (T : Time) (s : State) : (setEvent p T s).calls = s.calls := by
  unfold setEvent; dsimp only; split <;> simp

@[simp] theorem assertSource_calls (src : Fin 5) (on : Bool) (s : State) : (assertSource src on s).calls = s.calls := by
  simp [assertSource]

@[simp] theorem applyCallbacks_calls (cbs : List Callback) (s : State) : (applyCallbacks cbs s).calls = s.calls := by
  induction cbs generalizing s with
  | nil => rfl
  | cons cb cbs ih =>
    have : (applyCallback s cb).calls = s.calls := by cases cb <;> simp [applyCallback]
    exact (ih _).trans this

@[simp] theorem applyCallbacks_nil (s : State) : applyCallbacks [] s = s := rfl

@[simp] theorem applyCallbacks_cons (cb : Callback) (cbs : List Callback) (s : State) :
    applyCallbacks (cb :: cbs) s = applyCallbacks cbs (applyCallback s cb) := rfl

theorem callPeriph_schedule (q : Call) (s : State) : ScheduleOnly s (callPeriph q s) :=
  (recordCall_schedule q s).trans (applyCallbacks_schedule _ _)

@[simp] theorem callPeriph_calls (q : Call) (s : State) : (callPeriph q s).calls = q :: s.calls := by
  simp [callPeriph]

/-- A call answered without callbacks is only noted. -/
theorem callPeriph_quiet {q : Call} {s : State} (h : (s.answer q).callbacks = []) : callPeriph q s = recordCall q s := by
  simp [callPeriph, h]

/-- The oracle's answer depends on the environment and on the calls made so far, and on nothing else. -/
theorem answer_congr {s t : State} (he : t.env.answers = s.env.answers) (hs : t.env.seed = s.env.seed)
    (hc : t.calls = s.calls) (q : Call) : t.answer q = s.answer q := by
  simp [State.answer, he, hs, hc]

theorem reply_congr {s t : State} (he : t.env.replies = s.env.replies) (hs : t.env.seed = s.env.seed)
    (hc : t.calls = s.calls) (q : Query) : t.reply q = s.reply q := by
  simp [State.reply, he, hs, hc]

theorem service_schedule (p : EvClass) (c : Int) (s : State) : ScheduleOnly s (service p c s) :=
  (callPeriph_schedule _ s).trans (setEv_schedule _ _ _)

@[simp] theorem service_calls (p : EvClass) (c : Int) (s : State) : (service p c s).calls = .update p c :: s.calls := by
  simp [service]

/-- R143: the returned time is stored last. -/
@[simp] theorem service_ev (p : EvClass) (c : Int) (s : State) :
    (service p c s).ev p = (s.answer (.update p c)).time := by
  simp [service]

theorem serviceIfDue_schedule (p : EvClass) (c : Int) (s : State) : ScheduleOnly s (serviceIfDue p c s) := by
  unfold serviceIfDue
  split
  · exact service_schedule p c s
  · exact ScheduleOnly.refl s

theorem rearm_schedule (s : State) : ScheduleOnly s (rearm s) := setHalt_schedule _ _

theorem forceUpdateAll_schedule (c : Int) (s : State) : ScheduleOnly s (forceUpdateAll c s) :=
  ((service_schedule _ _ _).trans ((service_schedule _ _ _).trans (service_schedule _ _ _))).trans (rearm_schedule _)

@[simp] theorem rearm_calls (s : State) : (rearm s).calls = s.calls := rfl

@[simp] theorem forceUpdateAll_calls (c : Int) (s : State) :
    (forceUpdateAll c s).calls = .update .input c :: .update .timer c :: .update .video c :: s.calls := by
  simp [forceUpdateAll]

theorem powerPeripherals_schedule (s : State) : ScheduleOnly s (powerPeripherals s) :=
  ((callPeriph_schedule _ _).trans (callPeriph_schedule _ _)).trans
    ((callPeriph_schedule _ _).trans (callPeriph_schedule _ _))

@[simp] theorem powerPeripherals_calls (s : State) :
    (powerPeripherals s).calls = .power .audio :: .power .input :: .power .timer :: .power .video :: s.calls := by
  simp [powerPeripherals]

/-- Everything of PWR but the schedule and the interrupt state is the cleared block. -/
theorem powerOn_schedule (s : State) : ScheduleOnly (clearBlock s) (powerOn s) :=
  (powerPeripherals_schedule _).trans ((pushLevel_schedule _).trans (forceUpdateAll_schedule _ _))

/-! ## The schedule -/

theorem nextBoundary_val (s : State) :
    (nextBoundary s).val = min s.evVideo.val (min s.evTimer.val s.evInput.val) := by
  simp [nextBoundary, Time.minT_val]

/-- R32, R142: a re-armed halt point bounds every due time. -/
theorem rearm_haltBound (s : State) : (rearm s).HaltBound := by
  intro p
  show (nextBoundary s).val ≤ (s.ev p).val
  rw [nextBoundary_val]
  cases p
  · exact min_le_left _ _
  · exact le_trans (min_le_right _ _) (min_le_left _ _)
  · exact le_trans (min_le_right _ _) (min_le_right _ _)

theorem forceUpdateAll_haltBound (c : Int) (s : State) : (forceUpdateAll c s).HaltBound := rearm_haltBound _

/-- R141: eager lowering keeps the halt point below every due time. -/
theorem setEvent_haltBound {s : State} (h : s.HaltBound) (p : EvClass) (T : Time) : (setEvent p T s).HaltBound := by
  intro q
  unfold setEvent
  dsimp only
  split
  · rename_i hlt
    have hlt := (Time.before_iff _ _).1 hlt
    show T.val ≤ ((setEv p T s).ev q).val
    rw [setEv_ev]
    split
    · exact le_rfl
    · exact le_trans (by simpa using hlt.le) (h q)
  · rename_i hge
    have hge : (setEv p T s).halt.val ≤ T.val := not_lt.1 fun k => hge ((Time.before_iff _ _).2 k)
    rw [setEv_ev]
    split
    · exact hge
    · simpa using h q

/-- The bound is about HALT and the three event registers. -/
theorem State.HaltBound.congr {s t : State} (h : s.HaltBound) (hh : t.halt = s.halt) (hv : t.evVideo = s.evVideo)
    (ht : t.evTimer = s.evTimer) (hi : t.evInput = s.evInput) : t.HaltBound := fun p => by
  have := h p
  cases p <;> simpa [State.ev, hh, hv, ht, hi] using this

theorem assertSource_haltBound {s : State} (h : s.HaltBound) (src : Fin 5) (on : Bool) :
    (assertSource src on s).HaltBound := h.congr rfl rfl rfl rfl

theorem applyCallbacks_haltBound {s : State} (h : s.HaltBound) (cbs : List Callback) :
    (applyCallbacks cbs s).HaltBound := by
  induction cbs generalizing s with
  | nil => exact h
  | cons cb cbs ih =>
    refine ih ?_
    cases cb
    · exact setEvent_haltBound h _ _
    · exact assertSource_haltBound h _ _

theorem callPeriph_haltBound {s : State} (h : s.HaltBound) (q : Call) : (callPeriph q s).HaltBound :=
  applyCallbacks_haltBound (s := recordCall q s) (h.congr rfl rfl rfl rfl) _

/-! ## The invariant -/

/-- What differs only in the schedule and the interrupt state keeps the invariant. -/
theorem ScheduleOnly.inv {s t : State} (h : ScheduleOnly s t) (hi : s.Inv) : t.Inv where
  cfg := h.cfg ▸ hi.cfg
  wram := h.wram ▸ hi.wram
  ram := by rw [h.ram, h.cfg]; exact hi.ram
  rom := h.rom ▸ hi.rom
  image := by rw [h.loaded, h.rom]; exact hi.image
  latch := by rw [h.loaded, h.halted]; exact hi.latch

/-- The invariant is about six items: what keeps them keeps it. -/
theorem State.Inv.congr {s t : State} (hi : s.Inv) (hcfg : t.cfg = s.cfg) (hw : t.wram = s.wram) (hr : t.ram = s.ram)
    (hrom : t.rom = s.rom) (hl : t.loaded = s.loaded) (hh : t.halted = s.halted) : t.Inv where
  cfg := hcfg ▸ hi.cfg
  wram := hw ▸ hi.wram
  ram := by rw [hr, hcfg]; exact hi.ram
  rom := hrom ▸ hi.rom
  image := by rw [hl, hrom]; exact hi.image
  latch := by rw [hl, hh]; exact hi.latch

theorem respond_inv {s : State} (hi : s.Inv) (r : Response) : (respond r s).Inv := hi.congr rfl rfl rfl rfl rfl rfl

theorem consume_inv {s : State} (hi : s.Inv) (n : Nat) : (consume n s).Inv := hi.congr rfl rfl rfl rfl rfl rfl

theorem emit_inv {s : State} (hi : s.Inv) (bs : List Byte) : (emit bs s).Inv := hi.congr rfl rfl rfl rfl rfl rfl

theorem writeLog_inv {s : State} (hi : s.Inv) (r : LogRecord) : (writeLog r s).Inv :=
  hi.congr rfl rfl rfl rfl rfl rfl

/-- Raising an error on a loaded block keeps the invariant. -/
theorem raiseError_inv {s : State} (hi : s.Inv) (st : Status) (hl : st = .schedViolation → s.loaded = true)
    (what : LogRecord) : (raiseError st what s).Inv where
  cfg := hi.cfg
  wram := hi.wram
  ram := hi.ram
  rom := hi.rom
  image := hi.image
  latch := fun h => by
    have h : (s.halted || decide (st = .schedViolation)) = true := h
    rw [Bool.or_eq_true, decide_eq_true_eq] at h
    exact h.elim hi.latch hl

theorem setWram_inv {s : State} (hi : s.Inv) {m : Memory} (h : Memory.wf m ∧ Memory.below m 65536) :
    (setWram m s).Inv where
  cfg := hi.cfg
  wram := h
  ram := hi.ram
  rom := hi.rom
  image := hi.image
  latch := hi.latch

theorem setRam_inv {s : State} (hi : s.Inv) {m : Memory} (h : Memory.wf m ∧ Memory.below m s.cfg.ramSize) :
    (setRam m s).Inv where
  cfg := hi.cfg
  wram := hi.wram
  ram := h
  rom := hi.rom
  image := hi.image
  latch := hi.latch

theorem clearBlock_inv {s : State} (hi : s.Inv) : (clearBlock s).Inv where
  cfg := hi.cfg
  wram := ⟨Memory.wf_nil, by simp [Memory.below]⟩
  ram := hi.ram
  rom := hi.rom
  image := hi.image
  latch := fun h => by simp at h

theorem powerOn_inv {s : State} (hi : s.Inv) : (powerOn s).Inv := (powerOn_schedule s).inv (clearBlock_inv hi)

@[simp] theorem payload_length (n : Nat) (s : State) : (payload n s).length = n := by
  simp [payload]; omega

theorem installImage_inv {s : State} (hi : s.Inv) {image : List Byte} {L : Nat} (hL : ImageLength L)
    (hlen : image.length = L) : (installImage image L s).Inv where
  cfg := hi.cfg
  wram := hi.wram
  ram := hi.cfg
  rom := ⟨Memory.ofBytes_wf _, by have := Memory.ofBytes_below image; rwa [hlen] at this⟩
  image := fun _ => hL
  latch := fun _ => rfl

/-- Where a store into WorkRAM lands. -/
theorem wram_store_fits (A : Word) (n : Width) : wramIndex (busAddr n A) + n.bytes ≤ 65536 := by
  cases n
  · rw [wramIndex_eq]; simp [Width.bytes]; omega
  · rw [wramIndex_eq, busAddr_half_toNat]; simp only [Width.bytes]
    have := even_index_fits (k := 16) (by omega) (A.toNat % 134217728 / 2)
    norm_num at this ⊢
    omega

/-- Where a store into a present CartRAM lands. -/
theorem ram_store_fits {cfg : Config} (h : cfg.ramSize ≠ 0) (A : Word) (n : Width) :
    maskIndex cfg.ramSize (busAddr n A) + n.bytes ≤ cfg.ramSize := by
  rcases cfg.ramSize_pow with h0 | ⟨k, h1, h24, hk⟩
  · exact absurd h0 h
  · rw [hk, maskIndex_pow]
    cases n
    · have := Nat.mod_lt (busAddr .byte A).toNat (Nat.two_pow_pos k)
      simp only [Width.bytes]; omega
    · rw [busAddr_half_toNat]; simp only [Width.bytes]
      exact even_index_fits h1 _

/-- Every read keeps the invariant. -/
theorem memRead_inv {s : State} (hi : s.Inv) (A : Word) (n : Width) (c : Int) : (memRead A n c s).after.Inv := by
  have fwd : ∀ p w, (forwardRead p c (busAddr n A) w s).after.Inv := fun p w => (callPeriph_schedule _ s).inv hi
  unfold memRead
  dsimp only
  split
  · exact fwd _ _
  · exact hi
  · unfold hwRead
    split
    · exact fwd _ _
    · exact fwd _ _
    · exact hi
    · exact writeLog_inv hi _
  · exact hi
  · exact hi
  · exact hi
  · unfold cartRamRead
    split
    · exact writeLog_inv hi _
    · exact hi
  · exact hi

/-- Every write keeps the invariant. -/
theorem memWrite_inv {s : State} (hi : s.Inv) (A : Word) (n : Width) (v : Half) (c : Int) :
    (memWrite A n v c s).after.Inv := by
  have fwd : ∀ p ts w, (forwardWrite p ts (busAddr n A) w v s).after.Inv := fun p ts w => (callPeriph_schedule _ s).inv hi
  unfold memWrite
  dsimp only
  split
  · exact fwd _ _ _
  · exact fwd _ _ _
  · unfold hwWrite
    split
    · exact fwd _ _ _
    · exact fwd _ _ _
    · exact hi.congr rfl rfl rfl rfl rfl rfl
    · exact writeLog_inv hi _
  · exact hi
  · exact hi
  · exact setWram_inv hi ⟨bufWrite_wf hi.wram.1 _ _ _, bufWrite_below hi.wram.2 n (wram_store_fits A n) v⟩
  · unfold cartRamWrite
    split
    · exact writeLog_inv hi _
    · rename_i h
      exact setRam_inv hi ⟨bufWrite_wf hi.ram.1 _ _ _, bufWrite_below hi.ram.2 n (ram_store_fits h A n) v⟩
  · exact hi

/-! ## The checks of a restore -/

/-- R188 phase 1: no requirement on the block's own records fails exactly when all of them hold. -/
theorem layoutMismatch_none_iff (q : Snapshot) (s : State) : layoutMismatch q s = none ↔
    q.busreg.length = 3 ∧ q.wram.length = 65536 ∧ q.cram.length = s.cfg.ramSize ∧
      (q.busreg.getD 0 0).toNat ≤ 3 ∧ (q.busreg.getD 1 0).toNat ≤ 31 ∧ (q.busreg.getD 2 0).toNat ≤ 3 := by
  unfold layoutMismatch
  constructor
  · intro h
    split_ifs at h with h1 h2 h3 h4
    exact ⟨by tauto, by tauto, by tauto, by omega, by omega, by omega⟩
  · rintro ⟨h1, h2, h3, h4, h5, h6⟩
    rw [if_neg (by simp [h1]), if_neg (by simp [h2]), if_neg (by simp [h3]), if_neg (by omega)]

theorem blockMismatch_none_iff (q : Snapshot) (s : State) (ps : List Periph) :
    blockMismatch q s ps = none ↔ ∀ p ∈ ps, s.accepts q p = true := by
  induction ps with
  | nil => simp [blockMismatch]
  | cons p ps ih => unfold blockMismatch; split <;> simp_all

theorem snapshotMismatch_none {q : Snapshot} {s : State} (h : snapshotMismatch q s = none) :
    layoutMismatch q s = none ∧ blockMismatch q s periphOrder = none := by
  unfold snapshotMismatch at h
  split at h
  · cases h
  · exact ⟨by assumption, h⟩

theorem checkSnapshot_lengths {bs : List Byte} {s : State} {q : Snapshot} (h : checkSnapshot bs s = .ok q) :
    q.wram.length = 65536 ∧ q.cram.length = s.cfg.ramSize := by
  unfold checkSnapshot at h
  split at h
  · cases h
  · split at h
    · cases h
    · cases h
      obtain ⟨_, hw, hc, _⟩ := (layoutMismatch_none_iff _ _).1 (snapshotMismatch_none (by assumption)).1
      exact ⟨hw, hc⟩

/-- R234: the checks of a restore note their calls and do nothing else. -/
theorem validateBlocks_eq (q : Snapshot) (ps : List Periph) (s : State) :
    ∃ l, validateBlocks q ps s = { s with queries := l ++ s.queries } ∧
      ∀ x ∈ l, ∃ p, x = (s.calls.length, .validateState p (q.block p)) := by
  induction ps generalizing s with
  | nil => exact ⟨[], rfl, by simp⟩
  | cons p ps ih =>
    unfold validateBlocks
    dsimp only
    split
    · obtain ⟨l, h, hl⟩ := ih (recordQuery (.validateState p (q.block p)) s)
      refine ⟨l ++ [(s.calls.length, .validateState p (q.block p))], by rw [h]; simp [recordQuery], fun x hx => ?_⟩
      rcases List.mem_append.1 hx with hx | hx
      · exact hl x hx
      · exact ⟨p, by simpa using hx⟩
    · exact ⟨[_], rfl, by simp⟩

theorem validatePass_eq (bs : List Byte) (s : State) :
    ∃ l, validatePass bs s = { s with queries := l ++ s.queries } ∧
      ∀ x ∈ l, ∃ p block, x = (s.calls.length, .validateState p block) := by
  unfold validatePass
  split
  · exact ⟨[], rfl, by simp⟩
  · split
    · exact ⟨[], rfl, by simp⟩
    · obtain ⟨l, h, hl⟩ := validateBlocks_eq (by assumption) periphOrder s
      exact ⟨l, h, fun x hx => (hl x hx).imp fun p hp => ⟨_, hp⟩⟩

/-- R180: with every block accepted, one call each, Video, Timer, Input, Audio. -/
theorem validateBlocks_all {q : Snapshot} {s : State} (h : ∀ p, s.accepts q p = true) :
    validateBlocks q periphOrder s = recordQuery (.validateState .audio q.audio) (recordQuery (.validateState .input q.input)
      (recordQuery (.validateState .timer q.timer) (recordQuery (.validateState .video q.video) s))) := by
  have e : ∀ p x t, (recordQuery x t).accepts q p = t.accepts q p := fun p x t => rfl
  simp [validateBlocks, periphOrder, e, h, Snapshot.block]

theorem validatePass_inv {s : State} (hi : s.Inv) (bs : List Byte) : (validatePass bs s).Inv := by
  obtain ⟨l, h, _⟩ := validatePass_eq bs s
  rw [h]; exact hi.congr rfl rfl rfl rfl rfl rfl

theorem commitSnapshot_inv {s : State} (hi : s.Inv) {q : Snapshot} (hw : q.wram.length = 65536)
    (hr : q.cram.length = s.cfg.ramSize) (c : Int) : (commitSnapshot q c s).Inv := by
  have h1 : (commitBlock q s).Inv :=
    { cfg := hi.cfg
      wram := ⟨Memory.ofBytes_wf _, by have := Memory.ofBytes_below q.wram; rwa [hw] at this⟩
      ram := ⟨Memory.ofBytes_wf _, by have := Memory.ofBytes_below q.cram; rwa [hr] at this⟩
      rom := hi.rom
      image := hi.image
      latch := hi.latch }
  have h2 : ∀ (t : State) (p : Periph), t.Inv → (deserialize q p t).Inv := fun t p ht => (recordCall_schedule _ t).inv ht
  exact (forceUpdateAll_schedule c _).inv ((pushLevel_schedule _).inv ((clearSchedule_schedule _).inv
    (h2 _ _ (h2 _ _ (h2 _ _ (h2 _ _ h1))))))

/-! ## Admission -/

/-- The one equation a meaning needs: an admitted request takes its rule's state. -/
theorem runAdmitted_next {i : Instr} {s t : State} (h : admission i s = none) : runAdmitted i s t = .next t := by
  simp [runAdmitted, h]

theorem runAdmitted_eq_next {i : Instr} {s t u : State} (h : runAdmitted i s t = .next u) :
    admission i s = none ∧ u = t := by
  unfold runAdmitted at h
  split at h
  · cases h
  · cases h; exact ⟨by assumption, rfl⟩

/-- A ready block admits a well-formed request whose cycle is not negative. -/
theorem admission_ready {i : Instr} {s : State} (hs : s.Ready) (hc : ∀ c, i.cycle = some c → 0 ≤ c.toInt)
    (hw : i.wellFormed = true) : admission i s = none := by
  obtain ⟨hl, hh⟩ := hs
  have hneg : negativeCycle i.cycle = false := by
    cases hcy : i.cycle with
    | none => rfl
    | some c => simpa [negativeCycle] using hc c hcy
  simp [admission, hl, hh, hneg, hw]

/-- What an admitted request tells of the state and the operands. -/
theorem admission_none {i : Instr} {s : State} (h : admission i s = none) :
    (s.loaded = true ∨ i.allowedUnloaded = true) ∧ (s.halted = false ∨ i.allowedHalted = true) ∧
      (∀ c, i.cycle = some c → 0 ≤ c.toInt) ∧ i.wellFormed = true := by
  unfold admission at h
  split_ifs at h with h1 h2 h3 h4
  refine ⟨?_, ?_, ?_, ?_⟩
  · cases hl : s.loaded <;> cases hu : i.allowedUnloaded <;> simp_all
  · cases hl : s.halted <;> cases hu : i.allowedHalted <;> simp_all
  · intro c hc
    simpa [hc, negativeCycle] using h3
  · simpa using h4

end Sys2Proof.Machine
end

