-- ==== Sys2Proof/Laws/Bus.lean ====
section
/-! SUPPORT. What a bus access does, once for all provers: the address it acts on, the handler it reaches, what state it
leaves, and the contract call it makes. -/

namespace Sys2Proof

theorem low_toNat (n : Width) (v : Half) : (n.low v).toNat = v.toNat % 2 ^ (8 * n.bytes) := by
  have := v.isLt
  cases n
  · simp [Width.low, Width.bytes]; omega
  · simp only [Width.low, Width.bytes]; norm_num; omega

theorem low_setWidth_32 (n : Width) (v : Half) :
    (n.low v).setWidth 32 = BitVec.ofNat 32 (v.toNat % 2 ^ (8 * n.bytes)) := by
  apply BitVec.eq_of_toNat_eq
  rw [← low_toNat]; simp

theorem low_eq_ofNat (n : Width) (v : Half) : n.low v = BitVec.ofNat 16 (v.toNat % 2 ^ (8 * n.bytes)) := by
  apply BitVec.eq_of_toNat_eq
  rw [← low_toNat]; simp

theorem low_low (n : Width) (v : Half) : n.low (n.low v) = n.low v := by
  apply BitVec.eq_of_toNat_eq; simp [low_toNat]

theorem low_bits_2 (n : Width) (v : Half) : (n.low v).extractLsb' 0 2 = BitVec.ofNat 2 v.toNat := by
  apply BitVec.eq_of_toNat_eq
  simp only [BitVec.extractLsb'_toNat, low_toNat, BitVec.toNat_ofNat]
  cases n <;> simp [Width.bytes]

/-- A halfword of a buffer as a number, low byte first. -/
theorem bufRead_half_toNat (f : Nat → Byte) (i : Nat) :
    ((bufRead f i .half).setWidth 32).toNat = (f i).toNat + 256 * (f (i + 1)).toNat := by
  have h1 := (f i).isLt
  have h2 := (f (i + 1)).isLt
  simp only [bufRead, BitVec.toNat_setWidth, BitVec.toNat_append]
  rw [← Nat.shiftLeft_add_eq_or_of_lt h1, Nat.shiftLeft_eq]
  omega

/-- A cycle count that is not negative is its bits read as a number. -/
theorem toInt_eq_toNat {c : Word} (hc : 0 ≤ c.toInt) : c.toInt = c.toNat := by
  rw [BitVec.toInt_eq_toNat_cond] at *
  split
  · rfl
  · rename_i h; rw [if_neg h] at hc; have := c.isLt; omega

theorem toInt_add_of_lt {a b : Word} (ha : 0 ≤ a.toInt) (hb : 0 ≤ b.toInt) (h : a.toInt + b.toInt < 2 ^ 31) :
    (a + b).toInt = a.toInt + b.toInt := by
  rw [BitVec.toInt_add, Int.bmod_eq_of_le (by omega) (by omega)]

/-- R111: the quarter-rate time of a cycle count that is not negative. -/
theorem audioTime_eq {c : Word} (acf : BitVec 2) (hc : 0 ≤ c.toInt) :
    audioTime c.toInt acf = (((c.toNat + acf.toNat) / 4 : Nat) : Int) := by
  unfold audioTime
  rw [toInt_eq_toNat hc]; push_cast; rfl

/-- R158: the carry as a number. -/
theorem acfCarry_toNat (x : Nat) (a : BitVec 2) : (acfCarry (x : Int) a).toNat = (x + a.toNat) % 4 := by
  unfold acfCarry
  rw [show ((x : Int) + (a.toNat : Int)) = ((x + a.toNat : Nat) : Int) by push_cast; rfl, BitVec.ofInt_natCast]
  simp

end Sys2Proof

namespace Sys2Proof.Machine

theorem busAddr_toNat (n : Width) (A : Word) : (busAddr n A).toNat = accessAddr n A := by
  cases n
  · exact busAddr_byte_toNat A
  · exact busAddr_half_toNat A

theorem busAddr_ofNat (n : Width) (A : Word) : BitVec.ofNat 27 (accessAddr n A) = busAddr n A := by
  rw [← busAddr_toNat]; simp

theorem accessAddr_lt (n : Width) (A : Word) : accessAddr n A < 2 ^ 27 := by
  rw [← busAddr_toNat]; exact (busAddr n A).isLt

/-- R51, R128 (a): two addresses that agree in their low 27 bits are one address. -/
theorem busAddr_congr {A B : Word} (h : A.toNat % 134217728 = B.toNat % 134217728) (n : Width) :
    busAddr n A = busAddr n B := by
  apply BitVec.eq_of_toNat_eq
  rw [busAddr_toNat, busAddr_toNat]
  unfold accessAddr
  rw [h]

/-- R128 (a): a read acts on the low 27 bits of its address. -/
theorem memRead_tiles {A B : Word} (h : A.toNat % 134217728 = B.toNat % 134217728) (n : Width) (c : Int) (s : State) :
    memRead A n c s = memRead B n c s := by
  unfold memRead; rw [busAddr_congr h n]

/-- R128 (a): so does a write. -/
theorem memWrite_tiles {A B : Word} (h : A.toNat % 134217728 = B.toNat % 134217728) (n : Width) (v : Half) (c : Int)
    (s : State) : memWrite A n v c s = memWrite B n v c s := by
  unfold memWrite; rw [busAddr_congr h n]

/-- R101 by the number of the segment. -/
theorem memRead_at (n : Width) (A : Word) (c : Int) (s : State) : memRead A n c s =
    match accessAddr n A / 16777216 with
    | 0 => forwardRead .video c (busAddr n A) n s
    | 1 => ⟨0, false, s⟩
    | 2 => hwRead c (busAddr n A) s
    | 3 => ⟨0, false, s⟩
    | 4 => ⟨0, false, s⟩
    | 5 => ⟨bufRead (Memory.read s.wram) (wramIndex (busAddr n A)) n, false, s⟩
    | 6 => cartRamRead (busAddr n A) n s
    | _ => ⟨bufRead s.rom.read (maskIndex s.rom.size (busAddr n A)) n, false, s⟩ := by
  unfold memRead
  dsimp only
  rw [segmentOf_eq, busAddr_toNat]
  have : accessAddr n A / 16777216 < 8 := by have := accessAddr_lt n A; omega
  generalize accessAddr n A / 16777216 = k at this ⊢
  interval_cases k <;> rfl

/-- R102 by the number of the segment. -/
theorem memWrite_at (n : Width) (A : Word) (v : Half) (c : Int) (s : State) : memWrite A n v c s =
    match accessAddr n A / 16777216 with
    | 0 => forwardWrite .video c (busAddr n A) n v s
    | 1 => forwardWrite .audio (audioTime c s.acf) (busAddr n A) n v s
    | 2 => hwWrite c (busAddr n A) v s
    | 3 => ⟨false, s⟩
    | 4 => ⟨false, s⟩
    | 5 => ⟨false, setWram (bufWrite s.wram (wramIndex (busAddr n A)) n v) s⟩
    | 6 => cartRamWrite (busAddr n A) n v s
    | _ => ⟨false, s⟩ := by
  unfold memWrite
  dsimp only
  rw [segmentOf_eq, busAddr_toNat]
  have : accessAddr n A / 16777216 < 8 := by have := accessAddr_lt n A; omega
  generalize accessAddr n A / 16777216 = k at this ⊢
  interval_cases k <;> rfl

/-- R24: the index mask of an accepted image is a remainder. -/
theorem maskIndex_rom {s : State} (hl : s.loaded = true) (hi : s.Inv) (a : Addr) :
    maskIndex s.rom.size a = a.toNat % max s.rom.len 65536 := by
  obtain ⟨k, h1, h2, hk⟩ := hi.image hl
  have : s.rom.size = 2 ^ (max k 16) := by
    unfold Rom.size
    rw [hk]
    rcases le_total k 16 with h | h
    · rw [max_eq_right h, max_eq_right]
      rw [show 65536 = 2 ^ 16 by norm_num]
      exact Nat.pow_le_pow_right (by omega : 0 < 2) h
    · rw [max_eq_left h, max_eq_left]
      exact le_trans (by norm_num) (Nat.pow_le_pow_right (by omega : 0 < 2) h)
  rw [this, maskIndex_pow, ← this]
  rfl

/-- Everything a read can leave: the state as it was, one contract call with its callbacks, or one log record. -/
theorem memRead_after (A : Word) (n : Width) (c : Int) (s : State) :
    (memRead A n c s).after = s ∨ (∃ q, (memRead A n c s).after = callPeriph q s) ∨
      ∃ r, (memRead A n c s).after = writeLog r s := by
  unfold memRead; dsimp only
  split
  · exact .inr (.inl ⟨_, rfl⟩)
  · exact .inl rfl
  · unfold hwRead
    split
    · exact .inr (.inl ⟨_, rfl⟩)
    · exact .inr (.inl ⟨_, rfl⟩)
    · exact .inl rfl
    · exact .inr (.inr ⟨_, rfl⟩)
  · exact .inl rfl
  · exact .inl rfl
  · exact .inl rfl
  · unfold cartRamRead
    split
    · exact .inr (.inr ⟨_, rfl⟩)
    · exact .inl rfl
  · exact .inl rfl

/-- Everything a write can leave. -/
theorem memWrite_after (A : Word) (n : Width) (v : Half) (c : Int) (s : State) :
    (memWrite A n v c s).after = s ∨ (∃ q, (memWrite A n v c s).after = callPeriph q s) ∨
      (∃ r, (memWrite A n v c s).after = writeLog r s) ∨ (∃ x, (memWrite A n v c s).after = setWcr x s) ∨
      (∃ m, (memWrite A n v c s).after = setWram m s) ∨ ∃ m, (memWrite A n v c s).after = setRam m s := by
  unfold memWrite; dsimp only
  split
  · exact .inr (.inl ⟨_, rfl⟩)
  · exact .inr (.inl ⟨_, rfl⟩)
  · unfold hwWrite
    split
    · exact .inr (.inl ⟨_, rfl⟩)
    · exact .inr (.inl ⟨_, rfl⟩)
    · exact .inr (.inr (.inr (.inl ⟨_, rfl⟩)))
    · exact .inr (.inr (.inl ⟨_, rfl⟩))
  · exact .inl rfl
  · exact .inl rfl
  · exact .inr (.inr (.inr (.inr (.inl ⟨_, rfl⟩))))
  · unfold cartRamWrite
    split
    · exact .inr (.inr (.inl ⟨_, rfl⟩))
    · exact .inr (.inr (.inr (.inr (.inr ⟨_, rfl⟩))))
  · exact .inl rfl

theorem applyCallback_recordCall (q : Call) (cb : Callback) (s : State) :
    applyCallback (recordCall q s) cb = recordCall q (applyCallback s cb) := by
  cases cb with
  | setEvent p T =>
    simp only [applyCallback, setEvent, setEv_halt, recordCall_halt]
    by_cases h : T.before s.halt = true
    · simp only [h, if_true]; cases p <;> rfl
    · simp only [h]; cases p <;> rfl
  | assert src on => rfl

/-- Noting a call and applying its callbacks commute. -/
theorem applyCallbacks_recordCall (q : Call) (cbs : List Callback) (s : State) :
    applyCallbacks cbs (recordCall q s) = recordCall q (applyCallbacks cbs s) := by
  induction cbs generalizing s with
  | nil => rfl
  | cons cb cbs ih => simp only [applyCallbacks_cons, applyCallback_recordCall, ih]

theorem callPeriph_eq (q : Call) (s : State) :
    callPeriph q s = recordCall q (applyCallbacks (s.answer q).callbacks s) := applyCallbacks_recordCall _ _ _

/-- R107, R126: a contract call, answered, is a forwarded access. -/
theorem callPeriph_forwarded (q : Call) (s : State) (r : Response) : Forwarded q s (respond r (callPeriph q s)) := by
  have hs := applyCallbacks_schedule (s.answer q).callbacks s
  rw [callPeriph_eq]
  refine ⟨?_, rfl, rfl, ⟨hs.wram, hs.rom, hs.ram, hs.wcr, hs.acf, hs.halted, hs.loaded⟩, hs.cfg, hs.requests,
    hs.payloadIn, hs.payloadOut, hs.queries, hs.env⟩
  simp

end Sys2Proof.Machine
end

