-- ==== Sys2Proof/Laws/Cpu.lean ====
section
/-! SUPPORT. What a boundary of a CPU run can do, said once: which action it is, what requests it issues, and where the
run goes on. -/

namespace Sys2Proof.Machine

/-- R161: the CPU executes an instruction exactly when no stop is requested and the halt point is later than its count. -/
theorem cpuBoundary_executeOne_iff (b : CpuBoundary) (c : Int) (s : State) (i : CpuInstruction) :
    cpuBoundary b c s = .executeOne i ↔ b.stop = false ∧ s.halt.dueBy c = false ∧ b.instruction = i := by
  unfold cpuBoundary
  cases b.stop <;> cases s.halt.dueBy c <;> simp

/-- R162: it returns exactly when a stop is requested, with its count. -/
theorem cpuBoundary_return_iff (b : CpuBoundary) (c e : Int) (s : State) :
    cpuBoundary b c s = .returnFromRun e ↔ b.stop = true ∧ e = c := by
  unfold cpuBoundary
  cases b.stop <;> cases s.halt.dueBy c <;> simp [eq_comm]

/-- R161: an access is one of the four bus operations, at the count of its boundary. -/
theorem BusAccess.request_cases (c : Word) (x : BusAccess) :
    (∃ a, x.request c = .rdb c a) ∨ (∃ a, x.request c = .rdh c a) ∨ (∃ a d, x.request c = .wrb c a d) ∨
      ∃ a d, x.request c = .wrh c a d := by
  cases x with
  | readByte a => exact .inl ⟨a, rfl⟩
  | readHalf a => exact .inr (.inl ⟨a, rfl⟩)
  | writeByte a d => exact .inr (.inr (.inl ⟨a, d, rfl⟩))
  | writeHalf a d => exact .inr (.inr (.inr ⟨a, d, rfl⟩))

/-- R161: every request of an action is a bus access or the one STEP. -/
theorem CpuAction.requests_cases {c : Int} {a : CpuAction} {i : Instr} (h : i ∈ a.requests c) :
    i = .step (BitVec.ofInt 32 c) ∨ ∃ x : BusAccess, i = x.request (BitVec.ofInt 32 c) := by
  cases a with
  | returnFromRun e => simp [CpuAction.requests] at h
  | issueStep => exact .inl (by simpa [CpuAction.requests] using h)
  | executeOne j =>
    obtain ⟨x, _, hx⟩ := List.mem_map.1 h
    exact .inr ⟨x, hx.symm⟩

/-- R161, R250: no action takes the count back. -/
theorem CpuAction.le_cycleAfter (c : Int) (a : CpuAction) : c ≤ a.cycleAfter c := by
  cases a <;> simp [CpuAction.cycleAfter, CpuInstruction.cost]
  omega

/-- R66: what every operation of a sequence keeps, the sequence keeps. -/
theorem execAll_keeps {P : State → Prop} {is : List Instr} {s t : State}
    (hk : ∀ i ∈ is, ∀ u v, P u → exec i u = .next v → P v) (hs : P s) (h : execAll is s = .next t) : P t := by
  induction is generalizing s with
  | nil => cases h; exact hs
  | cons i is ih =>
    unfold execAll at h
    split at h
    · rename_i v hv
      exact ih (fun j hj => hk j (List.mem_cons_of_mem _ hj)) (hk i (List.mem_cons_self ..) _ _ hs hv) h
    · cases h
    · cases h

/-- R161: everything a boundary of a run can do: the count is out of range, the run returns, or the requests of its action
run and the run goes on from there, or one of them has no next state. -/
theorem cpuRun_cons (b : CpuBoundary) (rest : List CpuBoundary) (c : Int) (s : State) :
    (2 ^ 31 ≤ c ∧ cpuRun (b :: rest) c s = .outOfRange c s) ∨
    (c < 2 ^ 31 ∧ b.stop = true ∧ cpuRun (b :: rest) c s = .returned c s) ∨
    (c < 2 ^ 31 ∧ b.stop = false ∧
      ((∃ t, execAll ((cpuBoundary b c s).requests c) s = .next t ∧
          cpuRun (b :: rest) c s = cpuRun rest ((cpuBoundary b c s).cycleAfter c) t) ∨
        (∃ r, execAll ((cpuBoundary b c s).requests c) s = .refused r ∧ cpuRun (b :: rest) c s = .refused r) ∨
        ∃ f, execAll ((cpuBoundary b c s).requests c) s = .fault f ∧ cpuRun (b :: rest) c s = .fault f)) := by
  by_cases hc : c < 2 ^ 31
  · refine .inr ?_
    cases hb : b.stop with
    | true =>
      refine .inl ⟨hc, rfl, ?_⟩
      rw [cpuRun, if_pos hc, (cpuBoundary_return_iff b c c s).2 ⟨hb, rfl⟩]
    | false =>
      refine .inr ⟨hc, rfl, ?_⟩
      have ha : ∀ e, cpuBoundary b c s ≠ .returnFromRun e := fun e h => by
        have := ((cpuBoundary_return_iff b c e s).1 h).1
        rw [hb] at this; cases this
      rw [cpuRun, if_pos hc]
      generalize cpuBoundary b c s = a at ha ⊢
      cases a with
      | returnFromRun e => exact absurd rfl (ha e)
      | issueStep | executeOne i =>
        dsimp only
        split
        · exact .inl ⟨_, by assumption, rfl⟩
        · exact .inr (.inl ⟨_, by assumption, rfl⟩)
        · exact .inr (.inr ⟨_, by assumption, rfl⟩)
  · exact .inl ⟨not_lt.1 hc, by rw [cpuRun, if_neg hc]⟩

end Sys2Proof.Machine
end

