-- ==== Sys2Proof/Laws/Encode.lean ====
section
/-! SUPPORT. The fields of a packed request word (R81), and decoding by opcode. -/

namespace Sys2Proof

@[simp] theorem fieldOp_pack (op : BitVec 8) (c a d : Word) : fieldOp (pack op c a d) = op := by
  apply BitVec.eq_of_toNat_eq
  have h1 := op.isLt; have h2 := c.isLt; have h3 := a.isLt; have h4 := d.isLt
  simp only [fieldOp, pack, BitVec.extractLsb'_toNat, BitVec.toNat_append, Nat.shiftRight_eq_div_pow]
  rw [← Nat.shiftLeft_add_eq_or_of_lt h4, ← Nat.shiftLeft_add_eq_or_of_lt h3, ← Nat.shiftLeft_add_eq_or_of_lt h2]
  simp only [Nat.shiftLeft_eq]
  omega

@[simp] theorem fieldC_pack (op : BitVec 8) (c a d : Word) : fieldC (pack op c a d) = c := by
  apply BitVec.eq_of_toNat_eq
  have h1 := op.isLt; have h2 := c.isLt; have h3 := a.isLt; have h4 := d.isLt
  simp only [fieldC, pack, BitVec.extractLsb'_toNat, BitVec.toNat_append, Nat.shiftRight_eq_div_pow]
  rw [← Nat.shiftLeft_add_eq_or_of_lt h4, ← Nat.shiftLeft_add_eq_or_of_lt h3, ← Nat.shiftLeft_add_eq_or_of_lt h2]
  simp only [Nat.shiftLeft_eq]
  omega

@[simp] theorem fieldA_pack (op : BitVec 8) (c a d : Word) : fieldA (pack op c a d) = a := by
  apply BitVec.eq_of_toNat_eq
  have h1 := op.isLt; have h2 := c.isLt; have h3 := a.isLt; have h4 := d.isLt
  simp only [fieldA, pack, BitVec.extractLsb'_toNat, BitVec.toNat_append, Nat.shiftRight_eq_div_pow]
  rw [← Nat.shiftLeft_add_eq_or_of_lt h4, ← Nat.shiftLeft_add_eq_or_of_lt h3, ← Nat.shiftLeft_add_eq_or_of_lt h2]
  simp only [Nat.shiftLeft_eq]
  omega

@[simp] theorem fieldD_pack (op : BitVec 8) (c a d : Word) : fieldD (pack op c a d) = d := by
  apply BitVec.eq_of_toNat_eq
  have h1 := op.isLt; have h2 := c.isLt; have h3 := a.isLt; have h4 := d.isLt
  simp only [fieldD, pack, BitVec.extractLsb'_toNat, BitVec.toNat_append, Nat.shiftRight_eq_div_pow]
  rw [← Nat.shiftLeft_add_eq_or_of_lt h4, ← Nat.shiftLeft_add_eq_or_of_lt h3, ← Nat.shiftLeft_add_eq_or_of_lt h2]
  simp only [Nat.shiftLeft_eq]
  omega

/-- The reserved opcode bytes of R88. -/
theorem decode_error_iff (w : Request) :
    (∃ e, decode w = .error e) ↔
      (fieldOp w).toNat ∉
        [0x00, 0x01, 0x02, 0x03, 0x10, 0x11, 0x12, 0x13, 0x14, 0x15, 0x16, 0x17, 0x20, 0x30, 0x31, 0x32, 0x33, 0x34, 0x35] := by
  unfold decode
  dsimp only
  split <;> simp_all

/-- Decoding a packed word, field by field. -/
theorem decode_pack (op : BitVec 8) (c a d : Word) :
    decode (pack op c a d) = match op.toNat with
      | 0x00 => .ok (.rdb c a)
      | 0x01 => .ok (.rdh c a)
      | 0x02 => .ok (.wrb c a (d.extractLsb' 0 8))
      | 0x03 => .ok (.wrh c a (d.extractLsb' 0 16))
      | 0x10 => .ok (.setev (a.extractLsb' 0 2) (timeOfWire (a.getLsbD 2) d))
      | 0x11 => .ok .nextb
      | 0x12 => .ok (.step c)
      | 0x13 => .ok (.fupd c)
      | 0x14 => .ok (.rebase c)
      | 0x15 => .ok .fixne
      | 0x16 => .ok (.frend c)
      | 0x17 => .ok (.acarry c)
      | 0x20 => .ok (.irqa (a.extractLsb' 0 3) (d.getLsbD 0))
      | 0x30 => .ok .pwr
      | 0x31 => .ok (.ldimg a)
      | 0x32 => .ok .svsz
      | 0x33 => .ok (.save a)
      | 0x34 => .ok (.rstr c a)
      | 0x35 => .ok (.expt (regionOfWire (a.getLsbD 0)))
      | _ => .error (.reservedOpcode op) := by
  unfold decode
  rw [fieldOp_pack, fieldC_pack, fieldA_pack, fieldD_pack] <;> rfl

theorem fieldOp_toNat (w : Request) : (fieldOp w).toNat = w.toNat / 2 ^ 96 := by
  have := w.isLt
  rw [fieldOp, BitVec.extractLsb'_toNat, Nat.shiftRight_eq_div_pow]
  omega

/-- R82: a Time survives the wire. -/
@[simp] theorem timeOfWire_tag_bits (T : Time) : timeOfWire T.tag T.bits = T := by cases T <;> rfl

@[simp] theorem regionOfWire_bit (r : Region) : regionOfWire r.bit = r := by cases r <;> rfl

theorem setev_class_bits (tag : Bool) (cls : BitVec 2) :
    ((BitVec.ofBool tag ++ cls).setWidth 32).extractLsb' 0 2 = cls ∧
      ((BitVec.ofBool tag ++ cls).setWidth 32).getLsbD 2 = tag := by
  revert tag cls; decide

theorem irqa_source_bits (src : BitVec 3) : (src.setWidth 32).extractLsb' 0 3 = src := by revert src; decide

theorem low_bit (b : Bool) : ((BitVec.ofBool b).setWidth 32).getLsbD 0 = b := by revert b; decide

theorem low_byte (d : Byte) : (d.setWidth 32).extractLsb' 0 8 = d := by
  apply BitVec.eq_of_toNat_eq
  have := d.isLt
  simp
  omega

theorem low_half (d : Half) : (d.setWidth 32).extractLsb' 0 16 = d := by
  apply BitVec.eq_of_toNat_eq
  have := d.isLt
  simp
  omega

end Sys2Proof
end

