-- ==== Sys2Proof/Laws/Exec.lean ====
section
/-! SUPPORT. Each operation once: the state it takes when admitted, and the inversion of a next state. -/

namespace Sys2Proof.Machine

theorem exec_rdb (c a : Word) (s : State) (h : admission (.rdb c a) s = none) :
    exec (.rdb c a) s = .next (busRead a .byte c.toInt s) := runAdmitted_next h
theorem exec_rdb_inv (c a : Word) {s t : State} (h : exec (.rdb c a) s = .next t) :
    admission (.rdb c a) s = none ∧ t = busRead a .byte c.toInt s := runAdmitted_eq_next h

theorem exec_rdh (c a : Word) (s : State) (h : admission (.rdh c a) s = none) :
    exec (.rdh c a) s = .next (busRead a .half c.toInt s) := runAdmitted_next h
theorem exec_rdh_inv (c a : Word) {s t : State} (h : exec (.rdh c a) s = .next t) :
    admission (.rdh c a) s = none ∧ t = busRead a .half c.toInt s := runAdmitted_eq_next h

theorem exec_wrb (c a : Word) (d : Byte) (s : State) (h : admission (.wrb c a d) s = none) :
    exec (.wrb c a d) s = .next (busWrite a .byte (d.setWidth 16) c.toInt s) := runAdmitted_next h
theorem exec_wrb_inv (c a : Word) (d : Byte) {s t : State} (h : exec (.wrb c a d) s = .next t) :
    admission (.wrb c a d) s = none ∧ t = busWrite a .byte (d.setWidth 16) c.toInt s := runAdmitted_eq_next h

theorem exec_wrh (c a : Word) (d : Half) (s : State) (h : admission (.wrh c a d) s = none) :
    exec (.wrh c a d) s = .next (busWrite a .half d c.toInt s) := runAdmitted_next h
theorem exec_wrh_inv (c a : Word) (d : Half) {s t : State} (h : exec (.wrh c a d) s = .next t) :
    admission (.wrh c a d) s = none ∧ t = busWrite a .half d c.toInt s := runAdmitted_eq_next h

theorem exec_nextb (s : State) (h : admission (.nextb) s = none) :
    exec (.nextb) s = .next (respond (okTime (nextBoundary s)) s) := runAdmitted_next h
theorem exec_nextb_inv {s t : State} (h : exec (.nextb) s = .next t) :
    admission (.nextb) s = none ∧ t = respond (okTime (nextBoundary s)) s := runAdmitted_eq_next h

theorem exec_step (c : Word) (s : State) (h : admission (.step c) s = none) :
    exec (.step c) s = .next (stepEvents c.toInt s) := runAdmitted_next h
theorem exec_step_inv (c : Word) {s t : State} (h : exec (.step c) s = .next t) :
    admission (.step c) s = none ∧ t = stepEvents c.toInt s := runAdmitted_eq_next h

theorem exec_fupd (c : Word) (s : State) (h : admission (.fupd c) s = none) :
    exec (.fupd c) s = .next (respond (okValue false 0) (forceUpdateAll c.toInt s)) := runAdmitted_next h
theorem exec_fupd_inv (c : Word) {s t : State} (h : exec (.fupd c) s = .next t) :
    admission (.fupd c) s = none ∧ t = respond (okValue false 0) (forceUpdateAll c.toInt s) := runAdmitted_eq_next h

theorem exec_rebase (c : Word) (s : State) (h : admission (.rebase c) s = none) :
    exec (.rebase c) s = .next (rebaseAll c.toInt s) := runAdmitted_next h
theorem exec_rebase_inv (c : Word) {s t : State} (h : exec (.rebase c) s = .next t) :
    admission (.rebase c) s = none ∧ t = rebaseAll c.toInt s := runAdmitted_eq_next h

theorem exec_fixne (s : State) (h : admission (.fixne) s = none) :
    exec (.fixne) s = .next (respond (okValue false 0) (fixNonEvents s)) := runAdmitted_next h
theorem exec_fixne_inv {s t : State} (h : exec (.fixne) s = .next t) :
    admission (.fixne) s = none ∧ t = respond (okValue false 0) (fixNonEvents s) := runAdmitted_eq_next h

theorem exec_frend (c : Word) (s : State) (h : admission (.frend c) s = none) :
    exec (.frend c) s = .next (frameEnd c.toInt s) := runAdmitted_next h
theorem exec_frend_inv (c : Word) {s t : State} (h : exec (.frend c) s = .next t) :
    admission (.frend c) s = none ∧ t = frameEnd c.toInt s := runAdmitted_eq_next h

theorem exec_acarry (c : Word) (s : State) (h : admission (.acarry c) s = none) :
    exec (.acarry c) s = .next (respond (okValue false 0) (audioCarry c.toInt s)) := runAdmitted_next h
theorem exec_acarry_inv (c : Word) {s t : State} (h : exec (.acarry c) s = .next t) :
    admission (.acarry c) s = none ∧ t = respond (okValue false 0) (audioCarry c.toInt s) := runAdmitted_eq_next h

theorem exec_pwr (s : State) (h : admission (.pwr) s = none) :
    exec (.pwr) s = .next (respond (okValue false 0) (powerOn s)) := runAdmitted_next h
theorem exec_pwr_inv {s t : State} (h : exec (.pwr) s = .next t) :
    admission (.pwr) s = none ∧ t = respond (okValue false 0) (powerOn s) := runAdmitted_eq_next h

theorem exec_ldimg (len : Word) (s : State) (h : admission (.ldimg len) s = none) :
    exec (.ldimg len) s = .next (loadImage len s) := runAdmitted_next h
theorem exec_ldimg_inv (len : Word) {s t : State} (h : exec (.ldimg len) s = .next t) :
    admission (.ldimg len) s = none ∧ t = loadImage len s := runAdmitted_eq_next h

theorem exec_svsz (s : State) (h : admission (.svsz) s = none) :
    exec (.svsz) s = .next (querySize s) := runAdmitted_next h
theorem exec_svsz_inv {s t : State} (h : exec (.svsz) s = .next t) :
    admission (.svsz) s = none ∧ t = querySize s := runAdmitted_eq_next h

theorem exec_rstr (c len : Word) (s : State) (h : admission (.rstr c len) s = none) :
    exec (.rstr c len) s = .next (restoreSnapshot c.toInt len s) := runAdmitted_next h
theorem exec_rstr_inv (c len : Word) {s t : State} (h : exec (.rstr c len) s = .next t) :
    admission (.rstr c len) s = none ∧ t = restoreSnapshot c.toInt len s := runAdmitted_eq_next h

theorem exec_expt (r : Region) (s : State) (h : admission (.expt r) s = none) :
    exec (.expt r) s = .next (respond (okValue false (BitVec.ofNat 32 (regionLength r s))) (emit (regionBytes r s) s)) := runAdmitted_next h
theorem exec_expt_inv (r : Region) {s t : State} (h : exec (.expt r) s = .next t) :
    admission (.expt r) s = none ∧ t = respond (okValue false (BitVec.ofNat 32 (regionLength r s))) (emit (regionBytes r s) s) := runAdmitted_eq_next h

theorem exec_setev {cls : BitVec 2} {p : EvClass} (T : Time) (s : State) (h : admission (.setev cls T) s = none)
    (hp : evClassOf cls = some p) : exec (.setev cls T) s = .next (respond (okValue false 0) (setEvent p T s)) := by
  simp [exec, execSetev, h, hp]
theorem exec_setev_inv {cls : BitVec 2} {T : Time} {s t : State} (h : exec (.setev cls T) s = .next t) :
    ∃ p, admission (.setev cls T) s = none ∧ evClassOf cls = some p ∧
      t = respond (okValue false 0) (setEvent p T s) := by
  simp only [exec, execSetev] at h
  split at h
  · cases h
  · cases h; exact ⟨_, by assumption, by assumption, rfl⟩
  · cases h

theorem exec_irqa {src : BitVec 3} {k : Fin 5} (on : Bool) (s : State) (h : admission (.irqa src on) s = none)
    (hk : sourceOf src = some k) : exec (.irqa src on) s = .next (irqaRule k on s) := by
  simp [exec, execIrqa, h, hk]
theorem exec_irqa_inv {src : BitVec 3} {on : Bool} {s t : State} (h : exec (.irqa src on) s = .next t) :
    ∃ k, admission (.irqa src on) s = none ∧ sourceOf src = some k ∧ t = irqaRule k on s := by
  simp only [exec, execIrqa] at h
  split at h
  · cases h
  · cases h; exact ⟨_, by assumption, by assumption, rfl⟩
  · cases h

theorem exec_save {cap : Word} (s : State) (h : admission (.save cap) s = none) (hc : snapshotSize s ≤ cap.toNat) :
    exec (.save cap) s = .next (saveSnapshot s) := by
  simp [exec, execSave, h, Nat.not_lt.2 hc]
theorem exec_save_inv {cap : Word} {s t : State} (h : exec (.save cap) s = .next t) :
    admission (.save cap) s = none ∧ snapshotSize s ≤ cap.toNat ∧ t = saveSnapshot s := by
  simp only [exec, execSave] at h
  split at h
  · cases h
  · split at h
    · cases h
    · cases h; exact ⟨by assumption, by omega, rfl⟩

/-- R87: a request that fails an admission test is refused for it, whatever the operation. -/
theorem exec_refused {i : Instr} {s : State} {r : Refusal} (h : admission i s = some r) : exec i s = .refused r := by
  cases i <;>
    simp [exec, execRdb, execRdh, execWrb, execWrh, execSetev, execNextb, execStep, execFupd, execRebase, execFixne,
      execFrend, execAcarry, execIrqa, execPwr, execLdimg, execSvsz, execSave, execRstr, execExpt, runAdmitted, h]

end Sys2Proof.Machine
end

