-- ==== Sys2Proof/Laws/PerInstr.lean ====
section
/-! SUPPORT. A statement about every operation as syntax, one lemma per constructor: the encoder writes the opcode byte of
R80 into bits 103:96. -/

namespace Sys2Proof.Laws.EncodedOpcode

/-- R80, R81: the opcode byte of the encoded request. -/
def Statement (i : Instr) : Prop := fieldOp (encode i) = i.opcode

theorem rdb (c a : Word) : Statement (.rdb c a) := fieldOp_pack _ _ _ _
theorem rdh (c a : Word) : Statement (.rdh c a) := fieldOp_pack _ _ _ _
theorem wrb (c a : Word) (d : Byte) : Statement (.wrb c a d) := fieldOp_pack _ _ _ _
theorem wrh (c a : Word) (d : Half) : Statement (.wrh c a d) := fieldOp_pack _ _ _ _
theorem setev (cls : BitVec 2) (t : Time) : Statement (.setev cls t) := fieldOp_pack _ _ _ _
theorem nextb : Statement .nextb := fieldOp_pack _ _ _ _
theorem step (c : Word) : Statement (.step c) := fieldOp_pack _ _ _ _
theorem fupd (c : Word) : Statement (.fupd c) := fieldOp_pack _ _ _ _
theorem rebase (c : Word) : Statement (.rebase c) := fieldOp_pack _ _ _ _
theorem fixne : Statement .fixne := fieldOp_pack _ _ _ _
theorem frend (c : Word) : Statement (.frend c) := fieldOp_pack _ _ _ _
theorem acarry (c : Word) : Statement (.acarry c) := fieldOp_pack _ _ _ _
theorem irqa (src : BitVec 3) (on : Bool) : Statement (.irqa src on) := fieldOp_pack _ _ _ _
theorem pwr : Statement .pwr := fieldOp_pack _ _ _ _
theorem ldimg (len : Word) : Statement (.ldimg len) := fieldOp_pack _ _ _ _
theorem svsz : Statement .svsz := fieldOp_pack _ _ _ _
theorem save (cap : Word) : Statement (.save cap) := fieldOp_pack _ _ _ _
theorem rstr (c len : Word) : Statement (.rstr c len) := fieldOp_pack _ _ _ _
theorem expt (region : Region) : Statement (.expt region) := fieldOp_pack _ _ _ _

end Sys2Proof.Laws.EncodedOpcode
end

