-- ==== Sys2Proof/Laws/Schedule.lean ====
section
/-! SUPPORT. What the sequencer's operations do to the schedule, once for all provers: the boundary, the tests of STEP, a
service without callbacks, the rebase, the order of a frame end, and what power-on leaves. -/

namespace Sys2Proof.Machine

/-- R142: the boundary is one of the three due times. -/
theorem nextBoundary_mem (s : State) : ∃ p, nextBoundary s = s.ev p := by
  unfold nextBoundary
  rcases Time.minT_eq s.evVideo (s.evTimer.minT s.evInput) with h | h
  · exact ⟨.video, h⟩
  · rcases Time.minT_eq s.evTimer s.evInput with h' | h'
    · exact ⟨.timer, h.trans h'⟩
    · exact ⟨.input, h.trans h'⟩

/-- R144: one test of STEP. -/
theorem serviceIfDue_eq (p : EvClass) (c : Int) (s : State) :
    if (s.ev p).val ≤ (c : WithTop Int) then serviceIfDue p c s = service p c s else serviceIfDue p c s = s := by
  split
  · rename_i h; unfold serviceIfDue; rw [if_pos ((Time.dueBy_iff _ _).2 h)]
  · rename_i h; unfold serviceIfDue; rw [if_neg (fun k => h ((Time.dueBy_iff _ _).1 k))]

/-- R143: a service whose Update calls nothing back. -/
theorem service_quiet {p : EvClass} {c : Int} {s : State} (h : (s.answer (.update p c)).callbacks = []) :
    service p c s = setEv p (s.answer (.update p c)).time (recordCall (.update p c) s) := by
  unfold service; rw [callPeriph_quiet h]

/-- R148: an update of all three without callbacks. -/
theorem forceUpdateAll_quiet {c : Int} {s : State} (h : QuietUpdates c s) :
    forceUpdateAll c s =
      rearm (setEv .input (returnedTime c s .input) (recordCall (.update .input c)
        (setEv .timer (returnedTime c s .timer) (recordCall (.update .timer c)
          (setEv .video (returnedTime c s .video) (recordCall (.update .video c) s)))))) := by
  obtain ⟨h1, h2, h3⟩ := h
  unfold forceUpdateAll
  rw [service_quiet h1]
  have h2' := service_quiet (p := .timer) (c := c)
    (s := setEv .video (s.answer (.update .video c)).time (recordCall (.update .video c) s)) h2
  rw [h2']
  have h3' := service_quiet (p := .input) (c := c)
    (s := setEv .timer ((setEv .video (s.answer (.update .video c)).time (recordCall (.update .video c) s)).answer
      (.update .timer c)).time (recordCall (.update .timer c)
        (setEv .video (s.answer (.update .video c)).time (recordCall (.update .video c) s)))) h3
  rw [h3']
  rfl

theorem forceUpdateAll_quiet_ev {c : Int} {s : State} (h : QuietUpdates c s) (p : EvClass) :
    (forceUpdateAll c s).ev p = returnedTime c s p := by
  rw [forceUpdateAll_quiet h]; cases p <;> rfl

theorem forceUpdateAll_halt (c : Int) (s : State) : (forceUpdateAll c s).halt.val =
    min (forceUpdateAll c s).evVideo.val (min (forceUpdateAll c s).evTimer.val (forceUpdateAll c s).evInput.val) := by
  unfold forceUpdateAll
  generalize service .input c _ = u
  exact nextBoundary_val u

/-- Which answers three Updates get depends on the environment's answers and on the calls made before. -/
theorem QuietUpdates.congr {c : Int} {s t : State} (he : t.env.answers = s.env.answers) (hs : t.env.seed = s.env.seed)
    (hc : t.calls = s.calls) (h : QuietUpdates c s) : QuietUpdates c t := by
  obtain ⟨a, b, d⟩ := h
  refine ⟨?_, ?_, ?_⟩
  · rw [answer_congr he hs hc]; exact a
  · rw [answer_congr (s := recordCall (.update .video c) s) (by simp [he]) (by simp [hs]) (by simp [hc])]; exact b
  · rw [answer_congr (s := recordCall (.update .timer c) (recordCall (.update .video c) s)) (by simp [he]) (by simp [hs])
      (by simp [hc])]
    exact d

theorem returnedTime_congr {c : Int} {s t : State} (he : t.env.answers = s.env.answers) (hs : t.env.seed = s.env.seed)
    (hc : t.calls = s.calls) (p : EvClass) : returnedTime c t p = returnedTime c s p := by
  cases p
  · exact congrArg Answer.time (answer_congr he hs hc _)
  · exact congrArg Answer.time
      (answer_congr (s := recordCall (.update .video c) s) (by simp [he]) (by simp [hs]) (by simp [hc]) _)
  · exact congrArg Answer.time
      (answer_congr (s := recordCall (.update .timer c) (recordCall (.update .video c) s)) (by simp [he]) (by simp [hs])
        (by simp [hc]) _)

/-- The same for the four Power calls. -/
theorem QuietPowers.congr {s t : State} (he : t.env.answers = s.env.answers) (hs : t.env.seed = s.env.seed)
    (hc : t.calls = s.calls) (h : QuietPowers s) : QuietPowers t := by
  obtain ⟨a, b, d, e⟩ := h
  refine ⟨?_, ?_, ?_, ?_⟩
  · rw [answer_congr he hs hc]; exact a
  · rw [answer_congr (s := recordCall (.power .video) s) (by simp [he]) (by simp [hs]) (by simp [hc])]; exact b
  · rw [answer_congr (s := recordCall (.power .timer) (recordCall (.power .video) s)) (by simp [he]) (by simp [hs])
      (by simp [hc])]
    exact d
  · rw [answer_congr (s := recordCall (.power .input) (recordCall (.power .timer) (recordCall (.power .video) s)))
      (by simp [he]) (by simp [hs]) (by simp [hc])]
    exact e

/-- R151: the precondition of REBASE. -/
theorem rebaseOk_iff (c : Int) (s : State) : rebaseOk c s = true ↔ ∀ p, (c : WithTop Int) < (s.ev p).val := by
  simp only [rebaseOk, Bool.and_eq_true, Time.after_iff]
  constructor
  · rintro ⟨⟨h1, h2⟩, h3⟩ p
    cases p <;> assumption
  · intro h; exact ⟨⟨h .video, h .timer⟩, h .input⟩

theorem rebaseEvents_ev (c : Int) (s : State) (p : EvClass) : (rebaseEvents c s).ev p = (s.ev p).rebase c := by
  cases p <;> rfl

/-- Two subtractions, each allowed, are one allowed subtraction of the sum. -/
theorem rebase_rebase {T : Time} {c1 c2 : Int} (h1 : 0 ≤ c1) (k1 : (c1 : WithTop Int) < T.val)
    (k2 : (c2 : WithTop Int) < (T.rebase c1).val) :
    ((c1 + c2 : Int) : WithTop Int) < T.val ∧ (T.rebase c1).rebase c2 = T.rebase (c1 + c2) := by
  cases T with
  | none => exact ⟨by simp [Time.val], rfl⟩
  | fin w =>
    have k1' : c1 < w.toInt := by simpa [Time.val] using k1
    have e := Time.rebase_fin_toInt h1 k1'
    have k2' : c2 < w.toInt - c1 := by
      have : c2 < (BitVec.ofInt 32 (w.toInt - c1)).toInt := by simpa [Time.val, Time.rebase] using k2
      rwa [e] at this
    refine ⟨?_, ?_⟩
    · simp only [Time.val]; norm_cast; omega
    · simp only [Time.rebase, e]
      congr 2; omega

/-! No sequencer operation reads the latest response, so answering commutes with each of them. -/

theorem applyCallback_respond (r : Response) (cb : Callback) (s : State) :
    applyCallback (respond r s) cb = respond r (applyCallback s cb) := by
  cases cb with
  | setEvent p T =>
    simp only [applyCallback, setEvent, setEv_halt, respond_halt]
    by_cases h : T.before s.halt = true
    · simp only [h, if_true]; cases p <;> rfl
    · simp only [h]; cases p <;> rfl
  | assert src on => rfl

theorem applyCallbacks_respond (r : Response) (cbs : List Callback) (s : State) :
    applyCallbacks cbs (respond r s) = respond r (applyCallbacks cbs s) := by
  induction cbs generalizing s with
  | nil => rfl
  | cons cb cbs ih => simp only [applyCallbacks_cons, applyCallback_respond, ih]

theorem service_respond (r : Response) (p : EvClass) (c : Int) (s : State) :
    service p c (respond r s) = respond r (service p c s) := by
  have : callPeriph (.update p c) (respond r s) = respond r (callPeriph (.update p c) s) :=
    applyCallbacks_respond r _ (recordCall (.update p c) s)
  unfold service
  rw [this]
  cases p <;> rfl

theorem forceUpdateAll_respond (r : Response) (c : Int) (s : State) :
    forceUpdateAll c (respond r s) = respond r (forceUpdateAll c s) := by
  unfold forceUpdateAll
  rw [service_respond, service_respond, service_respond]; rfl

/-! The driven levels: each IRQ change drives one, so no new level means no change (R171, R173). -/

/-- The levels driven on the way from `s` to `t`: none only if IRQ is as it was. -/
def DrivesEachChange (s t : State) : Prop := ∃ l, t.levels = l ++ s.levels ∧ (l = [] → t.irq = s.irq)

theorem DrivesEachChange.trans {s t u : State} (h : DrivesEachChange s t) (k : DrivesEachChange t u) :
    DrivesEachChange s u := by
  obtain ⟨l1, h1, k1⟩ := h
  obtain ⟨l2, h2, k2⟩ := k
  refine ⟨l2 ++ l1, by rw [h2, h1, List.append_assoc], fun h => ?_⟩
  obtain ⟨rfl, rfl⟩ := List.append_eq_nil_iff.1 h
  rw [k2 rfl, k1 rfl]

theorem applyCallbacks_drives (cbs : List Callback) (s : State) : DrivesEachChange s (applyCallbacks cbs s) := by
  induction cbs generalizing s with
  | nil => exact ⟨[], rfl, fun _ => rfl⟩
  | cons cb cbs ih =>
    have h : DrivesEachChange s (applyCallback s cb) := by
      cases cb with
      | setEvent p T =>
        refine ⟨[], ?_, fun _ => ?_⟩ <;> (simp only [applyCallback, setEvent]; split <;> cases p <;> rfl)
      | assert src on => exact ⟨[_], rfl, by simp⟩
    exact h.trans (ih _)

theorem callPeriph_drives (q : Call) (s : State) : DrivesEachChange s (callPeriph q s) :=
  applyCallbacks_drives _ (recordCall q s)

theorem service_drives (p : EvClass) (c : Int) (s : State) : DrivesEachChange s (service p c s) :=
  (callPeriph_drives (.update p c) s).trans
    ⟨[], by unfold service; cases p <;> rfl, fun _ => by unfold service; cases p <;> rfl⟩

theorem forceUpdateAll_drives (c : Int) (s : State) : DrivesEachChange s (forceUpdateAll c s) :=
  ((service_drives .video c s).trans (service_drives .timer c _)).trans
    ((service_drives .input c _).trans ⟨[], rfl, fun _ => rfl⟩)

theorem powerPeripherals_drives (s : State) : DrivesEachChange s (powerPeripherals s) :=
  ((callPeriph_drives _ _).trans (callPeriph_drives _ _)).trans
    ((callPeriph_drives _ _).trans (callPeriph_drives _ _))

/-- R181: the contract calls of a power-on, newest first. -/
theorem powerOn_calls (s : State) : (powerOn s).calls =
    [.update .input 0, .update .timer 0, .update .video 0, .power .audio, .power .input, .power .timer, .power .video] ++
      s.calls := by
  unfold powerOn
  rw [forceUpdateAll_calls]
  simp

theorem powerOn_halt (s : State) :
    (powerOn s).halt.val = min (powerOn s).evVideo.val (min (powerOn s).evTimer.val (powerOn s).evInput.val) := by
  unfold powerOn
  exact forceUpdateAll_halt 0 _

/-- R181: four Power calls without callbacks. -/
theorem powerPeripherals_quiet {s : State} (h : QuietPowers s) : powerPeripherals s = afterPowers s := by
  obtain ⟨h1, h2, h3, h4⟩ := h
  unfold powerPeripherals afterPowers
  rw [callPeriph_quiet h1, callPeriph_quiet h2, callPeriph_quiet h3, callPeriph_quiet h4]

/-- R181: a power-on none of whose calls is answered with a callback leaves no source asserted and drives one level. -/
theorem powerOn_quiet {s : State} (hp : QuietPowers s) (hu : QuietUpdates 0 (afterPowers s)) :
    (powerOn s).irq = 0 ∧ (powerOn s).levels = none :: s.levels ∧
      ∀ p, (powerOn s).ev p = returnedTime 0 (afterPowers s) p := by
  have hu' : QuietUpdates 0 (pushLevel (afterPowers (clearBlock s))) := hu.congr rfl rfl rfl
  unfold powerOn
  rw [powerPeripherals_quiet (hp.congr (t := clearBlock s) rfl rfl rfl)]
  refine ⟨?_, ?_, fun p => ?_⟩
  · rw [forceUpdateAll_quiet hu']; rfl
  · rw [forceUpdateAll_quiet hu', show (none : Level) = level 0 by decide] <;> rfl
  · exact (forceUpdateAll_quiet_ev hu' p).trans (returnedTime_congr rfl rfl rfl p)

end Sys2Proof.Machine
end

