-- ==== Sys2Proof/Laws/Snapshot.lean ====
section
/-! SUPPORT. The snapshot's records: what one looks like, and that taking records off a byte string undoes writing them. -/

namespace Sys2Proof.Machine

theorem snapRecord_length (name data : List Byte) : (snapRecord name data).length = name.length + 4 + data.length := by
  simp [snapRecord, le32]; omega

theorem ofLe32_le32 {n : Nat} (h : n < 2 ^ 32) : ofLe32 (le32 n) = n := by
  simp [ofLe32, le32]; omega

theorem le32_ofLe32 (a b c d : Byte) : le32 (ofLe32 [a, b, c, d]) = [a, b, c, d] := by
  have := a.isLt; have := b.isLt; have := c.isLt; have := d.isLt
  simp only [le32, ofLe32, List.getD_cons_zero, List.getD_cons_succ, List.cons.injEq, and_true]
  refine ⟨?_, ?_, ?_, ?_⟩ <;> apply BitVec.eq_of_toNat_eq <;> simp only [BitVec.toNat_ofNat] <;> omega

/-- R188: a record is taken off the front of what follows it. -/
theorem takeRecord_snapRecord {name : List Byte} (hn : name.length = 8) (d r : List Byte) (h : d.length < 2 ^ 32) :
    takeRecord name (snapRecord name d ++ r) = some (d, r) := by
  have e : snapRecord name d ++ r = name ++ (le32 d.length ++ (d ++ r)) := by simp [snapRecord]
  have hl : (le32 d.length).length = 4 := rfl
  have d8 : (snapRecord name d ++ r).drop 8 = le32 d.length ++ (d ++ r) := by
    rw [e, ← hn, List.drop_left]
  have d12 : (snapRecord name d ++ r).drop 12 = d ++ r := by
    rw [show 12 = 8 + 4 from rfl, ← List.drop_drop, d8, ← hl, List.drop_left]
  have t4 : ((snapRecord name d ++ r).drop 8).take 4 = le32 d.length := by
    rw [d8, ← hl, List.take_left]
  have t8 : (snapRecord name d ++ r).take 8 = name := by rw [e, ← hn, List.take_left]
  unfold takeRecord
  dsimp only
  rw [t4, d12, t8, ofLe32_le32 h, if_pos]
  · simp
  · refine ⟨?_, rfl, by simp⟩
    rw [e]; simp [hn, hl]; omega

/-- R188: what is taken off is a record that stood there. -/
theorem takeRecord_some {name bs d r : List Byte} (h : takeRecord name bs = some (d, r)) :
    bs = snapRecord name d ++ r := by
  unfold takeRecord at h
  dsimp only at h
  split_ifs at h with hc
  obtain ⟨h12, hname, hlen⟩ := hc
  simp only [Option.some.injEq, Prod.mk.injEq] at h
  obtain ⟨rfl, rfl⟩ := h
  have h4 : ∃ a b c e, (bs.drop 8).take 4 = [a, b, c, e] := by
    have hl : ((bs.drop 8).take 4).length = 4 := by simp; omega
    match (bs.drop 8).take 4, hl with
    | [a, b, c, e], _ => exact ⟨a, b, c, e, rfl⟩
  obtain ⟨a, b, c, e, h4⟩ := h4
  have hd : ((bs.drop 12).take (ofLe32 ((bs.drop 8).take 4))).length = ofLe32 ((bs.drop 8).take 4) := by
    rw [List.length_take]; omega
  unfold snapRecord
  rw [hd, List.append_assoc, List.append_assoc, List.take_append_drop]
  rw [show le32 (ofLe32 ((bs.drop 8).take 4)) = (bs.drop 8).take 4 by rw [h4, le32_ofLe32]]
  rw [show bs.drop 12 = (bs.drop 8).drop 4 by rw [List.drop_drop], List.take_append_drop, ← hname,
    List.take_append_drop]

/-- The seven records of a snapshot back to back. -/
def Snapshot.records (q : Snapshot) : List Byte :=
  snapRecord nameBusreg q.busreg ++ snapRecord nameWram q.wram ++ snapRecord nameCram q.cram ++
    snapRecord (namePeriph .video) q.video ++ snapRecord (namePeriph .timer) q.timer ++
    snapRecord (namePeriph .input) q.input ++ snapRecord (namePeriph .audio) q.audio

/-- R188: the parser accepts exactly seven records that use up every byte. -/
theorem parseSnapshot_iff {bs : List Byte} (hb : bs.length < 2 ^ 32) (q : Snapshot) :
    parseSnapshot bs = some q ↔ bs = q.records := by
  constructor
  · intro h
    unfold parseSnapshot at h
    simp only [Option.bind_eq_bind, Option.bind_eq_some_iff, Prod.exists] at h
    obtain ⟨b, r1, h1, w, r2, h2, c, r3, h3, v, r4, h4, t, r5, h5, i, r6, h6, a, r7, h7, h8⟩ := h
    split_ifs at h8 with h9
    subst h9
    cases h8
    rw [takeRecord_some h1, takeRecord_some h2, takeRecord_some h3, takeRecord_some h4, takeRecord_some h5,
      takeRecord_some h6, takeRecord_some h7]
    simp [Snapshot.records]
  · rintro rfl
    unfold parseSnapshot Snapshot.records
    unfold Snapshot.records at hb
    simp only [List.length_append, snapRecord_length] at hb
    have e : ∀ (x1 x2 x3 x4 x5 x6 x7 : List Byte), x1 ++ x2 ++ x3 ++ x4 ++ x5 ++ x6 ++ x7 =
        x1 ++ (x2 ++ (x3 ++ (x4 ++ (x5 ++ (x6 ++ (x7 ++ [])))))) := by intros; simp
    rw [e]
    rw [takeRecord_snapRecord rfl _ _ (by omega)]; simp only [Option.bind_eq_bind, Option.bind_some]
    rw [takeRecord_snapRecord rfl _ _ (by omega)]; simp only [Option.bind_some]
    rw [takeRecord_snapRecord rfl _ _ (by omega)]; simp only [Option.bind_some]
    rw [takeRecord_snapRecord rfl _ _ (by omega)]; simp only [Option.bind_some]
    rw [takeRecord_snapRecord rfl _ _ (by omega)]; simp only [Option.bind_some]
    rw [takeRecord_snapRecord rfl _ _ (by omega)]; simp only [Option.bind_some]
    rw [takeRecord_snapRecord rfl _ _ (by omega)]; simp

/-- R188 phase 1: no requirement fails exactly when all of them hold. -/
theorem snapshotMismatch_none_iff (q : Snapshot) (s : State) : snapshotMismatch q s = none ↔
    q.busreg.length = 3 ∧ q.wram.length = 65536 ∧ q.cram.length = s.cfg.ramSize ∧
      (q.busreg.getD 0 0).toNat ≤ 3 ∧ (q.busreg.getD 1 0).toNat ≤ 31 ∧ (q.busreg.getD 2 0).toNat ≤ 3 ∧
      ∀ p, (s.reply (.validateState p (q.block p))).ok = true := by
  unfold snapshotMismatch
  constructor
  · intro h
    obtain ⟨hl, hb⟩ := snapshotMismatch_none (q := q) (s := s) h
    obtain ⟨h1, h2, h3, h4, h5, h6⟩ := (layoutMismatch_none_iff q s).1 hl
    refine ⟨h1, h2, h3, h4, h5, h6, fun p => (blockMismatch_none_iff q s _).1 hb p ?_⟩
    cases p <;> simp [periphOrder]
  · rintro ⟨h1, h2, h3, h4, h5, h6, h7⟩
    rw [(layoutMismatch_none_iff q s).2 ⟨h1, h2, h3, h4, h5, h6⟩]
    exact (blockMismatch_none_iff q s _).2 fun p _ => h7 p

/-- R180, R234: a pass over the four state blocks notes its calls and does nothing else. -/
theorem serializePass_eq (s : State) : serializePass s = { s with
    queries := [(s.calls.length, .serializeState .audio), (s.calls.length, .serializeState .input),
      (s.calls.length, .serializeState .timer), (s.calls.length, .serializeState .video)] ++ s.queries } := rfl

/-- R186: what a size query changes. -/
theorem querySize_eq (s : State) : querySize s = respond (okValue false (sizeWord s)) { s with
    queries := [(s.calls.length, .serializeState .audio), (s.calls.length, .serializeState .input),
      (s.calls.length, .serializeState .timer), (s.calls.length, .serializeState .video)] ++ s.queries
    env := { s.env with drawn := s.env.drawn + 1 } } := by
  unfold querySize
  generalize sizeWord s = v
  rw [serializePass_eq] <;> rfl

/-- R187: what a SAVE changes: the outgoing stream, and two passes of pure calls. -/
theorem saveSnapshot_eq (s : State) : saveSnapshot s = respond (okValue false (BitVec.ofNat 32 (snapshotSize s))) { s with
    queries := ([(s.calls.length, .serializeState .audio), (s.calls.length, .serializeState .input),
      (s.calls.length, .serializeState .timer), (s.calls.length, .serializeState .video)] ++
      [(s.calls.length, .serializeState .audio), (s.calls.length, .serializeState .input),
      (s.calls.length, .serializeState .timer), (s.calls.length, .serializeState .video)]) ++ s.queries
    payloadOut := s.payloadOut ++ snapshot s } := by
  unfold saveSnapshot
  generalize snapshot s = bs
  generalize BitVec.ofNat 32 (snapshotSize s) = v
  rw [serializePass_eq, serializePass_eq] <;> rfl

/-- R188: a payload that passes every check is committed, after one ValidateState call for each peripheral. -/
theorem restoreSnapshot_ok {c : Int} {len : Word} {s : State} {q : Snapshot}
    (h : checkSnapshot (payload len.toNat s) s = .ok q) :
    restoreSnapshot c len s = respond (okValue false 0) (commitSnapshot q c
      (validateBlocks q periphOrder (consume len.toNat s))) := by
  have hv : validatePass (payload len.toNat s) (consume len.toNat s) =
      validateBlocks q periphOrder (consume len.toNat s) := by
    unfold checkSnapshot at h
    unfold validatePass
    cases hp : parseSnapshot (payload len.toNat s) with
    | none => rw [hp] at h; cases h
    | some q' =>
      rw [hp] at h
      dsimp only at h ⊢
      split at h
      · cases h
      · cases h
        have hl : layoutMismatch q (consume len.toNat s) = none := (snapshotMismatch_none (by assumption)).1
        rw [hl]
  unfold restoreSnapshot
  dsimp only
  rw [h, hv]

/-- R190: any other payload is refused, and only the stream and the list of pure calls differ. -/
theorem restoreSnapshot_error {c : Int} {len : Word} {s : State} {why : Mismatch}
    (h : checkSnapshot (payload len.toNat s) s = .error why) :
    ∃ l, restoreSnapshot c len s = raiseError .serMismatch (.serMismatch why)
        { consume len.toNat s with queries := l ++ s.queries } ∧
      ∀ x ∈ l, ∃ p block, x = (s.calls.length, .validateState p block) := by
  obtain ⟨l, hv, hl⟩ := validatePass_eq (payload len.toNat s) (consume len.toNat s)
  refine ⟨l, ?_, hl⟩
  unfold restoreSnapshot
  dsimp only
  rw [h, hv]; rfl

/-- R188: what the checks let through: exactly the payloads that are seven records and pass every requirement. -/
theorem checkSnapshot_ok_iff {bs : List Byte} (hb : bs.length < 2 ^ 32) (s : State) (q : Snapshot) :
    checkSnapshot bs s = .ok q ↔ bs = q.records ∧ snapshotMismatch q s = none := by
  unfold checkSnapshot
  cases hp : parseSnapshot bs with
  | none =>
    refine ⟨fun h => by simp at h, fun h => ?_⟩
    rw [(parseSnapshot_iff hb q).2 h.1] at hp; cases hp
  | some q' =>
    have e := (parseSnapshot_iff hb q').1 hp
    constructor
    · intro h
      dsimp only at h
      split at h
      · cases h
      · cases h; exact ⟨e, by assumption⟩
    · rintro ⟨h1, h2⟩
      have : q' = q := by
        have := (parseSnapshot_iff hb q).2 h1
        rw [hp] at this; exact Option.some.inj this
      subst this
      dsimp only
      rw [h2]

end Sys2Proof.Machine
end

