-- ==== Sys2Proof/Tests/Slice0.lean ====
section
/-! SUPPORT. Tests. Every expected value is one of spec/95_test_vectors.md (V0 to V6, P1 to P5) or worked out by hand from
the rule named; the request words are those of V0. -/

namespace Sys2Proof.Tests

open Sys2Proof.Machine

/-! WellFormed: an ill-formed term for each check, which the check refuses. -/

theorem test_wf_refuses_class_3 : (Instr.setev 3 (.fin 0)).wellFormed = false := by decide
theorem test_wf_refuses_source_5 : (Instr.irqa 5 true).wellFormed = false := by decide
theorem test_wf_refuses_source_7 : (Instr.irqa 7 false).wellFormed = false := by decide

/-! Decoding: the words of section V0, each read to the operation it is written for. -/

theorem test_decode_rdb : decode 0x0000000007FD00001000000000 = .ok (.rdb 7 0xFD000010) := by decide
theorem test_decode_rdh : decode 0x01000000070500001100000000 = .ok (.rdh 7 0x05000011) := by decide
theorem test_decode_wrb : decode 0x020000000A05000010000000AB = .ok (.wrb 10 0x05000010 0xAB) := by decide
theorem test_decode_wrh : decode 0x030000000A0500FFFE00001234 = .ok (.wrh 10 0x0500FFFE 0x1234) := by decide
theorem test_decode_setev : decode 0x10000000000000000100000050 = .ok (.setev 1 (.fin 80)) := by decide
theorem test_decode_setev_none : decode 0x10000000000000000600000000 = .ok (.setev 2 .none) := by decide
theorem test_decode_setev_past : decode 0x100000000000000000FFFFFFFB = .ok (.setev 0 (.fin (-5))) := by decide
theorem test_decode_nextb : decode 0x11000000000000000000000000 = .ok .nextb := by decide
theorem test_decode_step : decode 0x12000000FC0000000000000000 = .ok (.step 252) := by decide
theorem test_decode_fupd : decode 0x13000002590000000000000000 = .ok (.fupd 601) := by decide
theorem test_decode_rebase : decode 0x14000000C80000000000000000 = .ok (.rebase 200) := by decide
theorem test_decode_fixne : decode 0x15000000000000000000000000 = .ok .fixne := by decide
theorem test_decode_frend : decode 0x16000002590000000000000000 = .ok (.frend 601) := by decide
theorem test_decode_acarry : decode 0x17000002590000000000000000 = .ok (.acarry 601) := by decide
theorem test_decode_irqa : decode 0x20000000000000000400000001 = .ok (.irqa 4 true) := by decide
theorem test_decode_pwr : decode 0x30000000000000000000000000 = .ok .pwr := by decide
theorem test_decode_ldimg : decode 0x31000000000000010000000000 = .ok (.ldimg 256) := by decide
theorem test_decode_svsz : decode 0x32000000000000000000000000 = .ok .svsz := by decide
theorem test_decode_save : decode 0x33000000000002005700000000 = .ok (.save 131159) := by decide
theorem test_decode_rstr : decode 0x34000002590002005700000000 = .ok (.rstr 601 131159) := by decide
theorem test_decode_expt : decode 0x35000000000000000100000000 = .ok (.expt .cram) := by decide
theorem test_decode_reserved : decode 0x04000000000000000000000000 = .error (.reservedOpcode 4) := by decide
theorem test_encode_wrb : encode (.wrb 10 0x05000010 0xAB) = 0x020000000A05000010000000AB := by decide
theorem test_encode_setev : encode (.setev 1 (.fin 80)) = 0x10000000000000000100000050 := by decide

/-! A small block for the rest: the image of P1 as far as the tests read it, EV = (400, 250, 1000), HALT = 250, the stub
peripherals of section 95 as written-down answers. -/

/-- The stub peripherals' answer to an Update: the given time, nothing called back. -/
def due (t : Word) : Answer := ⟨.fin t, 0, []⟩

/-- A loaded block with the default parameters. -/
def booted : State :=
  { State.reset with
    loaded := true
    rom := ⟨[(4, 4), (5, 5), (254, 254), (255, 255)], 256⟩
    evVideo := .fin 400
    evTimer := .fin 250
    evInput := .fin 1000
    halt := .fin 250 }

/-- The same, with the answers the environment gives next. -/
def bootedWith (answers : List (Nat × Call × Answer)) : State := { booted with env := ⟨0, 0, answers, []⟩ }

/-- The state after an operation, if there is one. -/
def next? (i : Instr) (s : State) : Option State :=
  match exec i s with
  | .next t => some t
  | _ => none

/-- The response word of an operation. -/
def resp? (i : Instr) (s : State) : Option (BitVec 38) := (responseOf (exec i s)).map Response.word

/-- The schedule after an operation: EV[Video], EV[Timer], EV[Input], HALT. -/
def sched? (i : Instr) (s : State) : Option (Time × Time × Time × Time) :=
  (next? i s).map fun t => (t.evVideo, t.evTimer, t.evInput, t.halt)

/-! Bus (V1). -/

/-- R104, V0: little-endian, address bit 0 ignored. -/
theorem test_rdh_little_endian :
    resp? (.rdh 7 0x05000011) { booted with wram := [(0x10, 0xAB), (0x11, 0xCD)] } = some 0x000000CDAB := by decide
/-- V1 row 3: tiling. -/
theorem test_rdb_tiled : resp? (.rdb 11 0xFD000010) { booted with wram := [(0x10, 0xAB)] } = some 0x00000000AB := by
  decide
/-- V1 row 10: the image is mirrored. -/
theorem test_rdb_rom_mirror : resp? (.rdb 0 0x07000105) booted = some 0x0000000005 := by decide
/-- V1 row 12. -/
theorem test_rdh_rom_end : resp? (.rdh 0 0x0700FFFE) booted = some 0x000000FFFE := by decide
/-- V1 row 7: no wrap at the end of WRAM. -/
theorem test_wrh_wram_end :
    (next? (.wrh 14 0x0500FFFF 0x1234) booted).map (·.wram) = some [(0xFFFE, 0x34), (0xFFFF, 0x12)] := by decide
/-- V1 row 23: two bits are kept. -/
theorem test_wrb_wcr : (next? (.wrb 0 0x02000024 0xFE) { booted with wcr := 1 }).map (·.wcr) = some 2 := by decide
/-- V1 row 20: the audio timestamp, the width and the whole address. -/
theorem test_wrh_audio_time :
    (next? (.wrh 1003 0x01000401 0x1234)
      { bootedWith [(0, .writeRegister .audio 251 0x1000400 .half 0x1234, ⟨.none, 0, []⟩)] with acf := 1 }).map (·.calls) =
      some [.writeRegister .audio 251 0x1000400 .half 0x1234] := by decide
/-- P2 step 2: a callback lowers the halt point before the response. -/
theorem test_wrb_callback :
    sched? (.wrb 100 0x02000020 0x0D)
      (bootedWith [(0, .writeRegister .timer 100 0x2000020 .byte 0x0D, ⟨.none, 0, [.setEvent .timer (.fin 120)]⟩)]) =
      some (.fin 400, .fin 120, .fin 1000, .fin 120) := by decide

/-! Sequencer (V2). -/

/-- A block with the given schedule. -/
def scheduled (v t i h : Time) : State := { booted with evVideo := v, evTimer := t, evInput := i, halt := h }

/-- V2 row 2: HALT is not raised. -/
theorem test_setev_later :
    sched? (.setev 1 (.fin 300)) (scheduled (.fin 400) (.fin 80) .none (.fin 80)) =
      some (.fin 400, .fin 300, .none, .fin 80) := by decide
/-- V2 row 5: a time in the past lowers HALT. -/
theorem test_setev_past :
    sched? (.setev 0 (.fin (-5))) booted = some (.fin (-5), .fin 250, .fin 1000, .fin (-5)) := by decide
/-- V0. -/
theorem test_nextb : resp? .nextb booted = some 0x00000000FA := by decide
/-- V0, V2 row 7. -/
theorem test_nextb_none : resp? .nextb (scheduled .none .none .none .none) = some 0x0100000000 := by decide
/-- V2 row 9: due at equality. -/
theorem test_step_due :
    sched? (.step 250) (bootedWith [(0, .update .timer 250, due 500)]) =
      some (.fin 400, .fin 500, .fin 1000, .fin 400) := by decide
/-- V2 row 14: a callback of the Video update makes the timer due in the same STEP. -/
theorem test_step_callback :
    sched? (.step 400)
      (bootedWith [(0, .update .video 400, ⟨.fin 800, 0, [.setEvent .timer (.fin 100)]⟩), (1, .update .timer 400, due 650)]) =
      some (.fin 800, .fin 650, .fin 1000, .fin 650) := by decide
/-- V2 row 15. -/
theorem test_fupd :
    sched? (.fupd 601)
      (bootedWith [(0, .update .video 601, due 1001), (1, .update .timer 601, due 851), (2, .update .input 601, due 1601)]) =
      some (.fin 1001, .fin 851, .fin 1601, .fin 851) := by decide
/-- V2 row 16: HALT is not changed. -/
theorem test_rebase :
    sched? (.rebase 200) (scheduled (.fin 484) (.fin 250) .none (.fin 250)) =
      some (.fin 284, .fin 50, .none, .fin 250) := by decide
/-- V2 row 18, V0. -/
theorem test_rebase_violation :
    (next? (.rebase 250) (scheduled (.fin 484) (.fin 250) .none (.fin 250))).map
      (fun t => (t.halted, t.evVideo, t.evTimer, t.response.map Response.word)) =
      some (true, .fin 484, .fin 250, some 0x0600000000) := by decide
/-- V2 row 20. -/
theorem test_fixne :
    sched? .fixne (scheduled (.fin 1073741824) (.fin 1073741823) .none .none) =
      some (.none, .fin 1073741823, .none, .none) := by decide
/-- V2 row 21. -/
theorem test_fixne_negative :
    sched? .fixne (scheduled (.fin (-7)) (.fin 2147483647) (.fin 0) .none) =
      some (.fin (-7), .none, .fin 0, .none) := by decide
/-- V2 row 26. -/
theorem test_frend :
    (next? (.frend 601)
      { bootedWith [(0, .update .video 601, due 1001), (1, .update .timer 601, due 851), (2, .update .input 601, due 1601)]
        with evVideo := .fin 800, evTimer := .fin 755, halt := .fin 755 }).map
      (fun t => (t.evVideo, t.evTimer, t.evInput, t.halt, t.acf)) =
      some (.fin 400, .fin 250, .fin 1000, .fin 250, 1) := by decide
/-- V2 row 27: after a violation the update and the carry stay done. -/
theorem test_frend_violation :
    (next? (.frend 601)
      { bootedWith [(0, .update .video 601, due 1001), (1, .update .timer 601, due 601), (2, .update .input 601, due 1601)]
        with evVideo := .fin 800, evTimer := .fin 755, halt := .fin 755 }).map
      (fun t => (t.evVideo, t.evTimer, t.evInput, t.halt, t.acf, t.halted)) =
      some (.fin 1001, .fin 601, .fin 1601, .fin 601, 1, true) := by decide
/-- V2 row 23. -/
theorem test_acarry : (next? (.acarry 1003) { booted with acf := 1 }).map (·.acf) = some 0 := by decide
/-- V2 row 24: the sum is exact. -/
theorem test_acarry_top : (next? (.acarry 0x7FFFFFFF) { booted with acf := 3 }).map (·.acf) = some 2 := by decide

/-! The CPU's run (R161, R233). -/

/-- R144's example inside a run: two instructions to 252, past the halt point 250, then STEP, then the stop. -/
theorem test_cpuRun :
    (match cpuRun [⟨false, ⟨[.readByte 0x05000010], 248⟩⟩, ⟨false, ⟨[], 2⟩⟩, ⟨false, ⟨[], 0⟩⟩, ⟨true, ⟨[], 0⟩⟩] 0
        (bootedWith [(0, .update .timer 252, due 502)]) with
      | .returned elapsed t => some (elapsed, t.evTimer, t.halt, t.calls)
      | _ => none) = some (252, .fin 502, .fin 400, [.update .timer 252]) := by decide
/-- V2 row 26 as a frame of the host's loop: after it the CPU counts from 0. -/
theorem test_cpuFrame :
    (match cpuFrame [⟨true, ⟨[], 0⟩⟩] 601
        (bootedWith [(0, .update .video 601, due 1001), (1, .update .timer 601, due 851), (2, .update .input 601, due 1601)]) with
      | .running c t => some (c, t.evVideo, t.evTimer, t.evInput, t.halt)
      | _ => none) = some (0, .fin 400, .fin 250, .fin 1000, .fin 250) := by decide

/-! Interrupt arbiter (V3, P3). -/

/-- P3 step 3: a level is driven though it does not change. -/
theorem test_irqa_on :
    (next? (.irqa 0 true) { booted with irq := 0b10010, levels := [some 4] }).map (fun t => (t.irq, t.levels)) =
      some (0b10011, [some 4, some 4]) := by decide
/-- V0, P3 step 6: no source asserted. -/
theorem test_irqa_off : resp? (.irqa 0 false) { booted with irq := 1 } = some 0x0100000000 := by decide
/-- V3, a few rows: the wires. -/
theorem test_level_wires :
    [0b00000, 0b00001, 0b00110, 0b01011, 0b10101].map (fun q => levelWires (level q)) =
      [0b1000, 0b0000, 0b0010, 0b0011, 0b0100] := by decide

/-! Host port (V4, P5). -/

/-- The stub peripherals' answers to a power-on after which nothing is called back. -/
def powered : List (Nat × Call × Answer) :=
  [(0, .power .video, ⟨.none, 0, []⟩), (1, .power .timer, ⟨.none, 0, []⟩), (2, .power .input, ⟨.none, 0, []⟩),
    (3, .power .audio, ⟨.none, 0, []⟩), (4, .update .video 0, due 400), (5, .update .timer 0, due 250),
    (6, .update .input 0, due 1000)]

/-- V4 row 11. -/
theorem test_pwr :
    (next? .pwr { bootedWith powered with wram := [(1, 1)], ram := [(0, 0x5A)], wcr := 2, irq := 3, acf := 1 }).map
      (fun t => (t.wram.length, t.ram.length, t.wcr, t.irq, t.acf)) = some (0, 1, 0, 0, 0) := by decide
/-- P5 step 5: out of the halted state, with a fresh schedule. -/
theorem test_pwr_halted :
    (next? .pwr { bootedWith powered with halted := true }).map (fun t => (t.halted, t.evVideo, t.evTimer, t.halt)) =
      some (false, .fin 400, .fin 250, .fin 250) := by decide
/-- V4 row 3, V0: 384 is no power of two. -/
theorem test_ldimg_refused : resp? (.ldimg 384) State.reset = some 0x0400000000 := by decide
/-- V4 row 4, V0: the cold block takes an image of 256 bytes. -/
theorem test_ldimg :
    (next? (.ldimg 256) { State.reset with payloadIn := List.replicate 256 7, env := ⟨0, 0, powered, []⟩ }).map
      (fun t => (t.loaded, t.rom.len, t.rom.read 0x105, t.payloadIn, t.response.map Response.word)) =
      some (true, 256, 7, [], some 0x0000010000) := by decide
/-- Stub peripherals with empty state blocks (section 95): their answers to the pure calls. -/
def emptyBlocks : List (Nat × Query × Reply) :=
  [(0, .serializeState .video, ⟨[], true⟩), (0, .serializeState .timer, ⟨[], true⟩), (0, .serializeState .input, ⟨[], true⟩),
    (0, .serializeState .audio, ⟨[], true⟩), (0, .validateState .video [], ⟨[], true⟩),
    (0, .validateState .timer [], ⟨[], true⟩), (0, .validateState .input [], ⟨[], true⟩),
    (0, .validateState .audio [], ⟨[], true⟩)]

/-- A booted block with those peripherals; their Updates after a restore at 601 return later times. -/
def stub : State :=
  { booted with
    env := ⟨0, 0, [(4, .update .video 601, due 1001), (5, .update .timer 601, due 851), (6, .update .input 601, due 1601)],
      emptyBlocks⟩ }

/-- V4 row 12, V0. -/
theorem test_svsz : resp? .svsz stub = some 0x0000020057 := by decide
/-- R180, R234: the pure calls of a size query, newest first. -/
theorem test_svsz_queries : (next? .svsz stub).map (·.queries) = some [(0, .serializeState .audio),
    (0, .serializeState .input), (0, .serializeState .timer), (0, .serializeState .video)] := by decide
/-- V4 row 15: one byte short. -/
theorem test_save_short : resp? (.save 131158) stub = some 0x0200000000 := by decide
/-- V0: an empty payload is no snapshot. -/
theorem test_rstr_empty : resp? (.rstr 0 0) stub = some 0x0800000000 := by decide
/-- V0, with RAM_SIZE = 0: nothing is emitted. -/
theorem test_expt_absent :
    resp? (.expt .cram) { booted with cfg := { Config.default with ramBits := none } } = some 0x0000000000 := by decide
/-- V1: a RAM of two bytes. -/
theorem test_expt_ram :
    (next? (.expt .cram) { booted with cfg := { Config.default with ramBits := some 0 }, ram := [(1, 9)] }).map
      (·.payloadOut) = some [0, 9] := by decide

/-! Admission (V5) and the machine's step. -/

/-- V5: the order of the tests. -/
theorem test_refused :
    resp? (.rdb 0 0) State.reset = some 0x0200000000 ∧ resp? (.rdb 0xFFFFFFFF 0) booted = some 0x0200000000 ∧
      resp? .nextb { booted with halted := true } = some 0x0200000000 := by decide
/-- V0: a HWControl miss sets `ua`. -/
theorem test_ua : resp? (.rdb 0 0x02000000) booted = some 0x2000000000 := by decide
/-- A step takes the request off the queue; V0's `setev timer, 80`. -/
theorem test_step_request :
    (match step { booted with requests := [0x10000000000000000100000050, 0] } with
      | .next t => some (t.requests, t.evTimer, t.halt)
      | _ => none) = some ([0], .fin 80, .fin 80) := by decide
/-- The host's placing of a table word: the first step after it runs it. -/
theorem test_withFetchWord :
    (match step (State.reset.withFetchWord 104 0x10000000000000000100000050) with
      | .next t => some (t.requests, t.evTimer, t.loaded)
      | _ => none) = some ([], .fin 80, true) ∧
      decodeTableWord 104 0x10000000000000000100000050 = some (.setev 1 (.fin 80)) := by decide
/-- R92: a 32-bit store is two halfword stores, lower address first. -/
theorem test_wrw :
    (match execAll (expand (.wrw 0 0x05000000 0x12345678)) booted with
      | .next t => some t.wram
      | _ => none) = some [(0, 0x78), (1, 0x56), (2, 0x34), (3, 0x12)] := by decide

/-! Witnesses: for each statement with hypotheses, states and operands that meet them, one for each of its clauses. -/

theorem booted_ready : booted.Ready := ⟨rfl, rfl⟩

theorem stub_ready : stub.Ready := ⟨rfl, rfl⟩

theorem booted_inv : booted.Inv where
  cfg := ⟨by decide, by decide⟩
  wram := ⟨by decide, by decide⟩
  ram := ⟨by decide, by simp [booted, State.reset, Memory.below]⟩
  rom := ⟨by decide, by decide⟩
  image := fun _ => ⟨8, by decide, by decide, rfl⟩
  latch := fun h => absurd h (by decide)

/-- The same block without a CartRAM. -/
def noRam : State := { booted with cfg := { Config.default with ramBits := none } }

theorem noRam_inv : noRam.Inv where
  cfg := ⟨by decide, by decide⟩
  wram := ⟨by decide, by decide⟩
  ram := ⟨by decide, by simp [noRam, booted, State.reset, Memory.below]⟩
  rom := ⟨by decide, by decide⟩
  image := fun _ => ⟨8, by decide, by decide, rfl⟩
  latch := fun h => absurd h (by decide)

theorem not_imageLength {L : Nat} (h : imageLengthOk L = false) : ¬ ImageLength L := fun k => by
  rw [(imageLengthOk_iff L).2 k] at h; cases h

theorem witness_DecodeEncodeRoundTrip :
    (Instr.setev 2 .none).wellFormed = true ∧ (Instr.irqa 4 false).wellFormed = true ∧ Instr.pwr.wellFormed = true := by
  decide

/-- Every end of every range of reserved opcodes, and an operation beside each. -/
theorem witness_ReservedOpcodesRefused :
    [0x04, 0x0F, 0x18, 0x1F, 0x21, 0x2F, 0x36, 0xFF].all (fun op =>
      match step { booted with requests := [BitVec.ofNat 104 (op * 2 ^ 96)] } with
      | .refused r => r == .reservedOpcode (BitVec.ofNat 8 op)
      | _ => false) = true ∧
    [0x03, 0x10, 0x17, 0x20, 0x30, 0x35].all (fun op =>
      match decode (BitVec.ofNat 104 (op * 2 ^ 96)) with
      | .ok _ => true
      | _ => false) = true := by decide

theorem witness_StepRunsOldestRequest :
    { booted with requests := [0x11000000000000000000000000] }.requests = 0x11000000000000000000000000 :: [] ∧
      decode 0x11000000000000000000000000 = .ok .nextb ∧ State.reset.requests = [] := ⟨rfl, by decide, rfl⟩

theorem witness_StepKeepsInvariant : booted.Inv ∧ ∃ t, step booted = .next t := ⟨booted_inv, _, rfl⟩

theorem booted_haltBound : booted.HaltBound := fun p => by cases p <;> simp [booted, State.ev, Time.val] <;> decide

/-- An operation, a run that returns, a run that goes on, an instruction one cycle before the halt point. -/
theorem witness_HaltNeverLaterThanDueTimes :
    (∀ c, Instr.nextb ≠ .rebase c) ∧ booted.HaltBound ∧ (∃ t, exec .nextb booted = .next t) ∧
      (∃ t, cpuRun [⟨false, ⟨[.readByte 0x05000010], 2⟩⟩, ⟨true, ⟨[], 0⟩⟩] 0 booted = .returned 3 t) ∧
      (∃ t, cpuRun [⟨false, ⟨[.writeByte 0x05000010 1], 2⟩⟩] 0 booted = .running 3 t) ∧
      cpuBoundary ⟨false, ⟨[], 2⟩⟩ 249 booted = .executeOne ⟨[], 2⟩ :=
  ⟨fun _ => by simp, booted_haltBound, ⟨_, rfl⟩, ⟨_, rfl⟩, ⟨_, rfl⟩, by decide⟩

theorem witness_OnlyLdimgChangesRom :
    (∃ t, exec .nextb booted = .next t) ∧ (∀ len, Instr.nextb ≠ .ldimg len) ∧ ∃ t, exec (.ldimg 384) booted = .next t :=
  ⟨⟨_, rfl⟩, fun _ => by simp, _, rfl⟩

theorem witness_IrqOnlyByAssert :
    ∃ t, exec .nextb booted = .next t ∧ (∀ src on, Instr.nextb ≠ .irqa src on) ∧ t.calls = booted.calls :=
  ⟨_, rfl, fun _ _ => by simp, rfl⟩

theorem witness_UnloadedRefusesAllButLdimg :
    State.reset.loaded = false ∧ (∀ len, Instr.pwr ≠ .ldimg len) ∧ ¬ ImageLength (255 : Word).toNat ∧
      ¬ ImageLength (0x2000000 : Word).toNat :=
  ⟨rfl, fun _ => by simp, not_imageLength (by decide), not_imageLength (by decide)⟩

theorem witness_HaltedBlockRecoversByResetOnly :
    { booted with halted := true }.loaded = true ∧ { booted with halted := true }.halted = true ∧
      (Instr.svsz ≠ .pwr ∧ (∀ len, Instr.svsz ≠ .ldimg len) ∧ ∀ r, Instr.svsz ≠ .expt r) ∧
      ImageLength (256 : Word).toNat ∧ ImageLength (0x1000000 : Word).toNat ∧ ¬ ImageLength (128 : Word).toNat :=
  ⟨rfl, rfl, ⟨by simp, fun _ => by simp, fun _ => by simp⟩, ⟨8, by decide, by decide, rfl⟩, ⟨24, by decide, by decide, rfl⟩,
    not_imageLength (by decide)⟩

/-- One request for each of the five tests, each failing a later test as well where it can, one that runs, one SAVE too
small. -/
theorem witness_AdmissionTestsInOrder :
    let refusal := fun (s : State) (w : Request) =>
      match step { s with requests := [w] } with
      | .refused r => some r
      | _ => none
    let halted := { booted with halted := true }
    refusal { halted with loaded := false } 0x04FFFFFFFF0000000000000000 = some (.reservedOpcode 4) ∧
    refusal { halted with loaded := false } 0x00FFFFFFFF0000000000000000 = some .notLoaded ∧
    refusal halted 0x00FFFFFFFF0000000000000000 = some .halted ∧
    refusal booted 0x00FFFFFFFF0000000000000000 = some .negativeCycle ∧
    refusal booted 0x10FFFFFFFF0000000300000000 = some .reservedOperand ∧
    refusal booted 0x20FFFFFFFF0000000500000000 = some .reservedOperand ∧
    refusal booted 0x20FFFFFFFF0000000400000000 = none ∧
    refusal stub 0x33FFFFFFFF0002005600000000 = some .bufferTooSmall := by decide

theorem witness_NegativeCycleRefused :
    booted.Ready ∧ (0xFFFFFFFF : Word).toInt < 0 ∧ (0x80000000 : Word).toInt < 0 := ⟨booted_ready, by decide, by decide⟩

theorem witness_ReservedOperandsRefused : booted.Ready ∧ 5 ≤ (5 : BitVec 3).toNat ∧ 5 ≤ (7 : BitVec 3).toNat :=
  ⟨booted_ready, by decide, by decide⟩

theorem stub_snapshotSize : snapshotSize stub = 131159 := rfl

theorem witness_EveryAdmittedRequestIsAnswered :
    stub.Ready ∧ (Instr.save 131159).wellFormed = true ∧
      (∀ c, (Instr.save 131159).cycle = some c → 0 ≤ c.toInt) ∧
      (∀ cap, Instr.save 131159 = .save cap → snapshotSize stub ≤ cap.toNat) ∧
      (∀ c, (Instr.frend 0x7FFFFFFF).cycle = some c → 0 ≤ c.toInt) := by
  refine ⟨stub_ready, rfl, by simp [Instr.cycle], fun cap h => ?_, fun c h => ?_⟩
  · cases h; rw [stub_snapshotSize]; decide
  · cases h; decide

/-- The first and the last address of every segment the memory statements cover, with and without a CartRAM. -/
theorem witness_RdbReadsMemory :
    booted.Ready ∧ booted.Inv ∧ noRam.Ready ∧ noRam.Inv ∧ 0 ≤ (0 : Word).toInt ∧ 0 ≤ (0x7FFFFFFF : Word).toInt ∧
      ([0x01000000, 0x01FFFFFF, 0x03000000, 0x04FFFFFF, 0x05000000, 0x05FFFFFF, 0x06000000, 0x06FFFFFF, 0x07000000,
        0xFFFFFFFF].map fun A : Word => A.toNat % 2 ^ 27 / 2 ^ 24) = [1, 1, 3, 4, 5, 5, 6, 6, 7, 7] ∧
      noRam.cfg.ramSize = 0 ∧ booted.cfg.ramSize ≠ 0 :=
  ⟨booted_ready, booted_inv, ⟨rfl, rfl⟩, noRam_inv, by decide, by decide, by decide, rfl, by decide⟩

theorem witness_RdhReadsMemory :
    booted.Ready ∧ booted.Inv ∧ noRam.Ready ∧ noRam.Inv ∧ 0 ≤ (0x7FFFFFFF : Word).toInt ∧
      ([0x01000000, 0x01FFFFFF, 0x03000000, 0x04FFFFFF, 0x05000000, 0x05FFFFFF, 0x06000000, 0x06FFFFFF, 0x07000000,
        0xFFFFFFFF].map fun A : Word => 2 * (A.toNat % 2 ^ 27 / 2) / 2 ^ 24) = [1, 1, 3, 4, 5, 5, 6, 6, 7, 7] ∧
      noRam.cfg.ramSize = 0 ∧ booted.cfg.ramSize ≠ 0 :=
  ⟨booted_ready, booted_inv, ⟨rfl, rfl⟩, noRam_inv, by decide, by decide, rfl, by decide⟩

theorem witness_WrbStoresOneByte :
    booted.Ready ∧ booted.Inv ∧ noRam.Ready ∧ noRam.Inv ∧ 0 ≤ (0 : Word).toInt ∧
      [0x03000000, 0x05000000, 0x05FFFFFF, 0x06000000, 0x07FFFFFF].all
        (fun A : Word => decide (3 ≤ A.toNat % 2 ^ 27 / 2 ^ 24)) = true :=
  ⟨booted_ready, booted_inv, ⟨rfl, rfl⟩, noRam_inv, by decide, by decide⟩

theorem witness_WrhStoresTwoBytes :
    booted.Ready ∧ booted.Inv ∧ noRam.Ready ∧ noRam.Inv ∧ 0 ≤ (0 : Word).toInt ∧
      [0x03000001, 0x05000000, 0x05FFFFFF, 0x06FFFFFF, 0x07FFFFFF].all
        (fun A : Word => decide (3 ≤ 2 * (A.toNat % 2 ^ 27 / 2) / 2 ^ 24)) = true :=
  ⟨booted_ready, booted_inv, ⟨rfl, rfl⟩, noRam_inv, by decide, by decide⟩

theorem witness_VideoReadIsForwarded :
    booted.Ready ∧ 0 ≤ (500 : Word).toInt ∧ accessAddr .half 0x0005F800 / 2 ^ 24 = 0 ∧
      accessAddr .byte 0x08FFFFFF / 2 ^ 24 = 0 := ⟨booted_ready, by decide, by decide, by decide⟩

theorem witness_VideoAndAudioWritesAreForwarded :
    booted.Ready ∧ 0 ≤ (0x7FFFFFFF : Word).toInt ∧ accessAddr .byte 0x00FFFFFF / 2 ^ 24 = 0 ∧
      accessAddr .half 0x01000000 / 2 ^ 24 = 1 ∧ accessAddr .half 0x01FFFFFF / 2 ^ 24 = 1 :=
  ⟨booted_ready, by decide, by decide, by decide, by decide⟩

/-- One address of each kind of register, by the default map. -/
theorem witness_HwControlReads :
    booted.Ready ∧ 0 ≤ (0 : Word).toInt ∧
      [0x02000020, 0x02000010, 0x02FFFF24, 0x02000000].all (fun A : Word => decide (accessAddr .byte A / 2 ^ 24 = 2)) = true ∧
      ([0x02000020, 0x02000010, 0x02FFFF24, 0x02000000].map fun A : Word =>
        hwKindOf booted.cfg.hwmap (BitVec.ofNat 27 (accessAddr .byte A))) = [.timer, .input, .wcr, .none] :=
  ⟨booted_ready, by decide, by decide, by decide⟩

theorem witness_HwControlWrites :
    booted.Ready ∧ 0 ≤ (0 : Word).toInt ∧
      [0x02000020, 0x02000010, 0x02FFFF25, 0x02000000].all (fun A : Word => decide (accessAddr .half A / 2 ^ 24 = 2)) = true ∧
      ([0x02000020, 0x02000010, 0x02FFFF25, 0x02000000].map fun A : Word =>
        hwKindOf booted.cfg.hwmap (BitVec.ofNat 27 (accessAddr .half A))) = [.timer, .input, .wcr, .none] :=
  ⟨booted_ready, by decide, by decide, by decide⟩

theorem witness_HwControlDecodesLowByte : (0x2FFFF24 : Addr).toNat % 256 = (0x2000024 : Addr).toNat % 256 := by decide

theorem witness_ReadAfterWriteInBuffers :
    booted.Ready ∧ booted.Inv ∧ 0 ≤ (0 : Word).toInt ∧ accessAddr .half 0x05FFFFFF / 2 ^ 24 = 5 ∧
      (accessAddr .byte 0x06000000 / 2 ^ 24 = 6 ∧ booted.cfg.ramSize ≠ 0) :=
  ⟨booted_ready, booted_inv, by decide, by decide, by decide, by decide⟩

theorem witness_WordWriteThenWordRead :
    booted.Ready ∧ booted.Inv ∧ 0 ≤ (0 : Word).toInt ∧
      (0xFDFFFFFC : Word).toNat % 4 = 0 ∧ (0xFDFFFFFC : Word).toNat % 2 ^ 27 / 2 ^ 24 = 5 ∧
      (0x06000000 : Word).toNat % 4 = 0 ∧ (0x06000000 : Word).toNat % 2 ^ 27 / 2 ^ 24 = 6 ∧ 4 ≤ booted.cfg.ramSize :=
  ⟨booted_ready, booted_inv, by decide, by decide, by decide, by decide, by decide, by decide⟩

theorem witness_BusTrafficWithoutCallbacks :
    ∃ t, exec (readRequest .byte 0 0x05000000) booted = .next t ∧
      ∀ q, t.calls = q :: booted.calls → (booted.answer q).callbacks = [] :=
  ⟨_, rfl, fun _ h => by cases h⟩

theorem witness_SetevStoresAndLowersHalt :
    booted.Ready ∧ (1 : BitVec 2).toNat = 1 ∧ (Time.fin 80).val < booted.halt.val ∧ ¬ (Time.fin 250).val < booted.halt.val ∧
      ¬ Time.none.val < booted.halt.val := by
  refine ⟨booted_ready, by decide, (Time.before_iff _ _).1 (by decide), fun h => ?_, fun h => ?_⟩
  · exact absurd ((Time.before_iff _ _).2 h) (by decide)
  · exact absurd ((Time.before_iff _ _).2 h) (by decide)

theorem witness_NextbAnswersLeastDueTime : booted.Ready := booted_ready

/-- One cycle short of the timer's due time nothing is due, at it the timer is. -/
theorem witness_StepServicesWhatIsDue :
    booted.Ready ∧ 0 ≤ (250 : Word).toInt ∧ booted.evTimer.val ≤ ((250 : Word).toInt : WithTop Int) :=
  ⟨booted_ready, by decide, (Time.dueBy_iff _ _).1 (by decide)⟩

/-- A callback that lowers the halt point, one at it that does not; another class; the first and the last source. -/
theorem witness_ServiceStoresReturnedTimeLast :
    (Time.fin 249).val < booted.halt.val ∧ ¬ (Time.fin 250).val < booted.halt.val ∧ EvClass.video ≠ .timer ∧
      (0 : Fin 5).val < 5 ∧ (4 : Fin 5).val < 5 :=
  ⟨(Time.before_iff _ _).1 (by decide), fun h => absurd ((Time.before_iff _ _).2 h) (by decide), by decide, by decide,
    by decide⟩

theorem witness_StepWithNothingDue :
    booted.Ready ∧ 0 ≤ (249 : Word).toInt ∧ ∀ p, ((249 : Word).toInt : WithTop Int) < (booted.ev p).val :=
  ⟨booted_ready, by decide, fun p => (Time.after_iff _ _).1 (by cases p <;> decide)⟩

/-- A block whose three Updates at 601 call nothing back and return later times. -/
def atFrameEnd : State :=
  bootedWith [(0, .update .video 601, due 1001), (1, .update .timer 601, due 851), (2, .update .input 601, due 1601)]

theorem atFrameEnd_quiet : QuietUpdates (601 : Word).toInt atFrameEnd := ⟨by decide, by decide, by decide⟩

theorem witness_FupdUpdatesAllThree :
    atFrameEnd.Ready ∧ 0 ≤ (601 : Word).toInt ∧ QuietUpdates (601 : Word).toInt atFrameEnd :=
  ⟨⟨rfl, rfl⟩, by decide, atFrameEnd_quiet⟩

theorem witness_RebaseSubtractsOrHalts :
    booted.Ready ∧ 0 ≤ (249 : Word).toInt ∧ (∀ p, ((249 : Word).toInt : WithTop Int) < (booted.ev p).val) ∧
      (booted.ev .timer).val ≤ ((250 : Word).toInt : WithTop Int) ∧
      booted.ev .timer = .fin 250 ∧ (scheduled (.fin 484) (.fin 250) .none (.fin 250)).ev .input = .none :=
  ⟨booted_ready, by decide, fun p => (Time.after_iff _ _).1 (by cases p <;> decide), (Time.dueBy_iff _ _).1 (by decide),
    rfl, rfl⟩

/-- A frame end whose Timer Update returns the frame's own last cycle. -/
def lateTimer : State :=
  bootedWith [(0, .update .video 601, due 1001), (1, .update .timer 601, due 601), (2, .update .input 601, due 1601)]

theorem witness_RebaseViolationHaltsTheBlock :
    booted.Ready ∧ 0 ≤ (250 : Word).toInt ∧ (booted.ev .timer).val ≤ ((250 : Word).toInt : WithTop Int) ∧
      lateTimer.Ready ∧ 0 ≤ (601 : Word).toInt ∧
      ((audioCarry 601 (forceUpdateAll 601 (fixNonEvents lateTimer))).ev .timer).val ≤ ((601 : Int) : WithTop Int) ∧
      Instr.nextb ≠ .pwr ∧ (∀ len, Instr.nextb ≠ .ldimg len) ∧ ∀ r, Instr.nextb ≠ .expt r :=
  ⟨booted_ready, by decide, (Time.dueBy_iff _ _).1 (by decide), ⟨rfl, rfl⟩, by decide,
    (Time.dueBy_iff _ _).1 (by decide), by simp, fun _ => by simp, fun _ => by simp⟩

/-- X3's two rebases, on the default schedule. -/
theorem witness_RebaseComposes :
    (100 : Word).toInt + (120 : Word).toInt < 2 ^ 31 ∧
      ∃ s1 s2, exec (.rebase 100) booted = .next s1 ∧ s1.halted = false ∧ exec (.rebase 120) s1 = .next s2 ∧
        s2.halted = false :=
  ⟨by decide, _, _, rfl, rfl, rfl, rfl⟩

theorem witness_FramesWithoutRescheduling :
    ∃ s1 s2 t, exec (.rebase 100) booted = .next s1 ∧ s1.halted = false ∧ exec (.rebase 120) s1 = .next s2 ∧
      s2.halted = false ∧ exec .nextb booted = .next t ∧ t.response = some ⟨false, .ok, false, 250⟩ :=
  ⟨_, _, _, rfl, rfl, rfl, rfl, rfl, rfl⟩

theorem witness_FramesWithoutRescheduling_none :
    ∃ s1 s2 t, exec (.rebase 100) (scheduled .none .none .none .none) = .next s1 ∧ s1.halted = false ∧
      exec (.rebase 120) s1 = .next s2 ∧ s2.halted = false ∧
      exec .nextb (scheduled .none .none .none .none) = .next t ∧ t.response = some ⟨false, .ok, true, 0⟩ :=
  ⟨_, _, _, rfl, rfl, rfl, rfl, rfl, rfl⟩

theorem witness_FixneClearsFarTimes : booted.Ready := booted_ready

theorem witness_AcarryCarriesLowBits : booted.Ready ∧ 0 ≤ (0x7FFFFFFF : Word).toInt := ⟨booted_ready, by decide⟩

theorem witness_AudioTimeIsContinuous :
    (601 : Word).toInt + (1003 : Word).toInt < 2 ^ 31 ∧
      ∃ t u, exec (.acarry 601) booted = .next t ∧ exec (.acarry 1003) t = .next u :=
  ⟨by decide, _, _, rfl, rfl⟩

theorem witness_FrendIsTheSequence :
    atFrameEnd.Ready ∧ 0 ≤ (601 : Word).toInt ∧ (resp? (.frend 601) atFrameEnd = some 0) ∧
      resp? (.frend 601) (bootedWith [(0, .update .video 601, due 1001), (1, .update .timer 601, due 601),
        (2, .update .input 601, due 1601)]) = some 0x0600000000 := ⟨⟨rfl, rfl⟩, by decide, by decide, by decide⟩

theorem witness_FrendSucceedsWhenScheduledAhead :
    atFrameEnd.Ready ∧ 0 ≤ (601 : Word).toInt ∧ SchedulesAhead (601 : Word).toInt atFrameEnd :=
  ⟨⟨rfl, rfl⟩, by decide, atFrameEnd_quiet, fun p => (Time.after_iff _ _).1 (by cases p <;> decide)⟩

theorem witness_IrqaWritesOneBit : booted.Ready ∧ (0 : BitVec 3).toNat < 5 ∧ (4 : BitVec 3).toNat < 5 :=
  ⟨booted_ready, by decide, by decide⟩

theorem witness_AssertThenDeassertRestores :
    booted.irq.getLsbD (4 : BitVec 3).toNat = false ∧
      ∃ t u, exec (.irqa 4 true) booted = .next t ∧ exec (.irqa 4 false) t = .next u := ⟨by decide, _, _, rfl, rfl⟩

/-- A loaded block none of whose power-on calls is answered with a callback. -/
theorem witness_PwrRebuildsTheBlock :
    (bootedWith powered).loaded = true ∧ QuietPowers (bootedWith powered) ∧
      QuietUpdates 0 (afterPowers (bootedWith powered)) :=
  ⟨rfl, ⟨by decide, by decide, by decide, by decide⟩, by decide, by decide, by decide⟩

/-- A cold block in the same environment, with six bytes of an image on the stream. -/
def coldPowered : State := { State.reset with payloadIn := List.replicate 6 7, env := ⟨0, 0, powered, []⟩ }

theorem witness_LdimgInstallsTheImage :
    ImageLength (256 : Word).toNat ∧ ImageLength (0x1000000 : Word).toNat ∧
      0x105 % (256 : Word).toNat < coldPowered.payloadIn.length ∧ QuietPowers coldPowered ∧
      QuietUpdates 0 (afterPowers coldPowered) :=
  ⟨⟨8, by decide, by decide, rfl⟩, ⟨24, by decide, by decide, rfl⟩, by decide,
    ⟨by decide, by decide, by decide, by decide⟩, by decide, by decide, by decide⟩

theorem witness_LdimgRejectsBadLength :
    ¬ ImageLength (0 : Word).toNat ∧ ¬ ImageLength (255 : Word).toNat ∧ ¬ ImageLength (257 : Word).toNat ∧
      ¬ ImageLength (0x1000001 : Word).toNat :=
  ⟨not_imageLength (by decide), not_imageLength (by decide), not_imageLength (by decide), not_imageLength (by decide)⟩

theorem stub_snapshot_length : (snapshot stub).length = 131159 := by
  unfold snapshot
  simp only [List.length_append, snapRecord_length, Memory.toBytes_length]
  rfl

theorem witness_SvszAnswersSnapshotLength : stub.Ready ∧ (snapshot stub).length < 2 ^ 32 :=
  ⟨stub_ready, by rw [stub_snapshot_length]; norm_num⟩

theorem witness_SnapshotLayout : 65535 < 65536 ∧ 0 < stub.cfg.ramSize := by decide

theorem witness_SaveEmitsSnapshot :
    stub.Ready ∧ (snapshot stub).length ≤ (131159 : Word).toNat ∧ (131158 : Word).toNat < (snapshot stub).length :=
  ⟨stub_ready, by rw [stub_snapshot_length]; decide, by rw [stub_snapshot_length]; decide⟩

/-- `bs` on the payload stream of another block like `stub`. -/
def restoring (bs : List Byte) : State := { stub with payloadIn := bs ++ [] }

theorem restoring_ready (bs : List Byte) : (restoring bs).Ready := ⟨rfl, rfl⟩

theorem restoring_accepts (bs block : List Byte) (p : Periph) :
    ((restoring bs).reply (.validateState p block)).ok = (stub.reply (.validateState p block)).ok := by
  rw [reply_congr (s := stub) (t := restoring bs) rfl rfl rfl]

theorem restoring_payload (bs : List Byte) : payload bs.length (restoring bs) = bs := by
  simp [payload, restoring]

theorem stub_accepts (p : Periph) : (stub.reply (.validateState p (stub.stateBlock p))).ok = true := by cases p <;> rfl

/-- The four blocks handed out, newest first: what the calls of a restore of `stub`'s snapshot leave before its Updates. -/
def handedOut : List Call :=
  [.deserializeState .audio (stub.stateBlock .audio), .deserializeState .input (stub.stateBlock .input),
    .deserializeState .timer (stub.stateBlock .timer), .deserializeState .video (stub.stateBlock .video)]

theorem handedOut_eq : handedOut = [.deserializeState .audio [], .deserializeState .input [], .deserializeState .timer [],
    .deserializeState .video []] := rfl

/-- The state of the last clause is one after those four calls, in the environment of the block restored into. -/
theorem witness_SaveThenRestoreRoundTrip :
    stub.Inv ∧ (restoring (snapshot stub)).Ready ∧ (restoring (snapshot stub)).cfg = stub.cfg ∧
      0 ≤ (601 : Word).toInt ∧ (131159 : Word).toNat = (snapshot stub).length ∧
      (restoring (snapshot stub)).payloadIn = snapshot stub ++ [] ∧
      (∀ p, ((restoring (snapshot stub)).reply (.validateState p (stub.stateBlock p))).ok = true) ∧
      ∃ s1 : State, s1.env = (restoring (snapshot stub)).env ∧
        s1.calls = handedOut ++ (restoring (snapshot stub)).calls ∧ QuietUpdates (601 : Word).toInt s1 := by
  have hl := stub_snapshot_length
  generalize snapshot stub = bs at hl ⊢
  exact ⟨booted_inv.congr rfl rfl rfl rfl rfl rfl, restoring_ready bs, rfl, by decide, by rw [hl]; decide, rfl,
    fun p => (restoring_accepts bs _ p).trans (stub_accepts p), { stub with calls := handedOut }, rfl, rfl,
    by rw [handedOut_eq]; exact ⟨by decide, by decide, by decide⟩⟩

/-- The data of the records of `stub`'s snapshot. -/
def stubSnapshot : Snapshot :=
  ⟨busregData stub, Memory.toBytes stub.wram 65536, Memory.toBytes stub.ram stub.cfg.ramSize, stub.stateBlock .video,
    stub.stateBlock .timer, stub.stateBlock .input, stub.stateBlock .audio⟩

theorem stubSnapshot_records : snapshot stub = stubSnapshot.records := by
  unfold snapshot Snapshot.records stubSnapshot
  simp only

theorem stubSnapshot_lengths :
    stubSnapshot.busreg.length = 3 ∧ stubSnapshot.wram.length = 65536 ∧ stubSnapshot.cram.length = stub.cfg.ramSize := by
  unfold stubSnapshot
  simp only [Memory.toBytes_length, and_true]
  decide

theorem stubSnapshot_busreg :
    stubSnapshot.busreg = [0, 0, 0] ∧ ∀ p, stubSnapshot.block p = stub.stateBlock p := by
  unfold stubSnapshot
  exact ⟨by simp only; decide, fun p => by cases p <;> (unfold Snapshot.block; simp only)⟩

/-- A payload that is a snapshot every peripheral accepts, and one that is no snapshot. -/
theorem witness_RestoreIsAllOrNothing :
    (restoring (snapshot stub)).Ready ∧ 0 ≤ (601 : Word).toInt ∧
      (∃ q : Snapshot, payload (131159 : Word).toNat (restoring (snapshot stub)) = q.records ∧
        q.busreg.length = 3 ∧ q.wram.length = 65536 ∧ q.cram.length = (restoring (snapshot stub)).cfg.ramSize ∧
        (q.busreg.getD 0 0).toNat ≤ 3 ∧ (q.busreg.getD 1 0).toNat ≤ 31 ∧ (q.busreg.getD 2 0).toNat ≤ 3 ∧
        ∀ p, ((restoring (snapshot stub)).reply (.validateState p (q.block p))).ok = true) ∧
      stub.Ready ∧ ¬ ∃ q : Snapshot, payload (0 : Word).toNat stub = q.records := by
  have hl := stub_snapshot_length
  have hr := stubSnapshot_records
  obtain ⟨h1, h2, h3⟩ := stubSnapshot_lengths
  obtain ⟨h4, h5⟩ := stubSnapshot_busreg
  generalize stubSnapshot = q at *
  generalize snapshot stub = bs at *
  have h : (131159 : Word).toNat = bs.length := by rw [hl]; decide
  refine ⟨restoring_ready bs, by decide, ⟨q, ?_, h1, h2, h3, by rw [h4]; decide, by rw [h4]; decide, by rw [h4]; decide,
    fun p => ?_⟩, stub_ready, fun ⟨q', h'⟩ => ?_⟩
  · rw [h, restoring_payload, hr]
  · rw [h5]; exact (restoring_accepts bs _ p).trans (stub_accepts p)
  · have := congrArg List.length h'
    simp [Snapshot.records, snapRecord_length, nameBusreg] at this
    omega

theorem witness_ExptEmitsRegion : booted.loaded = true ∧ { booted with halted := true }.loaded = true := ⟨rfl, rfl⟩

end Sys2Proof.Tests
end

/-! PROOFS. The scope statements (00_scope.md): which request a step runs, what no request changes, and that every
admitted request is answered. -/

namespace Sys2Proof.Machine

/-! ## The request a step runs -/

/-- R13, R81: the oldest request is decoded and run on the state without it. -/
theorem step_of_request {s : State} {w : Request} {rest : List Request} {i : Instr} (hr : s.requests = w :: rest)
    (hd : decode w = .ok i) : step s = exec i { s with requests := rest } := by
  simp [step, hr, hd]

theorem step_of_no_request {s : State} (hr : s.requests = []) : step s = .next s := by
  simp [step, hr]

/-- Settles O5: the two arms of `step` on the waiting requests. -/
theorem stepRunsOldestRequest : Obligations.StepRunsOldestRequest := by
  unfold Obligations.StepRunsOldestRequest
  exact ⟨fun _ _ _ _ => step_of_request, fun _ => step_of_no_request⟩

/-! ## What no request changes, and what only LDIMG changes -/

/-- R7, R11, R13: what no request changes: the parameters, the requests that wait, and the environment but for the count of
free values taken. -/
structure Setting where
  cfg : Config
  requests : List Request
  answers : List (Nat × Call × Answer)
  replies : List (Nat × Query × Reply)
  seed : Nat

/-- The setting of a state. -/
def State.setting (s : State) : Setting := ⟨s.cfg, s.requests, s.env.answers, s.env.replies, s.env.seed⟩

/-- R24, R34: the setting, ROM and LOADED: what every request but LDIMG leaves alone. -/
def State.fixture (s : State) : Setting × Rom × Bool := (s.setting, s.rom, s.loaded)

theorem setting_eq_iff {s t : State} : t.setting = s.setting ↔
    t.cfg = s.cfg ∧ t.requests = s.requests ∧ t.env.answers = s.env.answers ∧ t.env.replies = s.env.replies ∧
      t.env.seed = s.env.seed := by
  simp [State.setting]

theorem fixture_eq_iff {s t : State} :
    t.fixture = s.fixture ↔ t.setting = s.setting ∧ t.rom = s.rom ∧ t.loaded = s.loaded := by
  simp [State.fixture]

theorem setting_eq_of_fixture_eq {s t : State} (h : t.fixture = s.fixture) : t.setting = s.setting :=
  congrArg Prod.fst h

@[simp] theorem respond_fixture (r : Response) (s : State) : (respond r s).fixture = s.fixture := rfl
@[simp] theorem writeLog_fixture (r : LogRecord) (s : State) : (writeLog r s).fixture = s.fixture := rfl
@[simp] theorem emit_fixture (bs : List Byte) (s : State) : (emit bs s).fixture = s.fixture := rfl
@[simp] theorem consume_fixture (n : Nat) (s : State) : (consume n s).fixture = s.fixture := rfl
@[simp] theorem setAcf_fixture (v : BitVec 2) (s : State) : (setAcf v s).fixture = s.fixture := rfl
@[simp] theorem setWcr_fixture (v : BitVec 2) (s : State) : (setWcr v s).fixture = s.fixture := rfl
@[simp] theorem setWram_fixture (m : Memory) (s : State) : (setWram m s).fixture = s.fixture := rfl
@[simp] theorem setRam_fixture (m : Memory) (s : State) : (setRam m s).fixture = s.fixture := rfl
@[simp] theorem clearBlock_fixture (s : State) : (clearBlock s).fixture = s.fixture := rfl
@[simp] theorem commitBlock_fixture (q : Snapshot) (s : State) : (commitBlock q s).fixture = s.fixture := rfl
@[simp] theorem raiseError_fixture (st : Status) (what : LogRecord) (s : State) :
    (raiseError st what s).fixture = s.fixture := rfl
@[simp] theorem audioCarry_fixture (c : Int) (s : State) : (audioCarry c s).fixture = s.fixture := rfl
@[simp] theorem serializePass_fixture (s : State) : (serializePass s).fixture = s.fixture := rfl
@[simp] theorem drawOne_fixture (s : State) : (drawOne s).fixture = s.fixture := rfl
@[simp] theorem installImage_setting (image : List Byte) (L : Nat) (s : State) :
    (installImage image L s).setting = s.setting := rfl

theorem ScheduleOnly.fixture_eq {s t : State} (h : ScheduleOnly s t) : t.fixture = s.fixture := by
  simp [State.fixture, State.setting, h.cfg, h.requests, h.env, h.rom, h.loaded]

@[simp] theorem callPeriph_fixture (q : Call) (s : State) : (callPeriph q s).fixture = s.fixture :=
  (callPeriph_schedule q s).fixture_eq
@[simp] theorem setEvent_fixture (p : EvClass) (T : Time) (s : State) : (setEvent p T s).fixture = s.fixture :=
  (setEvent_schedule p T s).fixture_eq
@[simp] theorem assertSource_fixture (src : Fin 5) (on : Bool) (s : State) :
    (assertSource src on s).fixture = s.fixture :=
  (assertSource_schedule src on s).fixture_eq
@[simp] theorem serviceIfDue_fixture (p : EvClass) (c : Int) (s : State) : (serviceIfDue p c s).fixture = s.fixture :=
  (serviceIfDue_schedule p c s).fixture_eq
@[simp] theorem rearm_fixture (s : State) : (rearm s).fixture = s.fixture := (rearm_schedule s).fixture_eq
@[simp] theorem rebaseEvents_fixture (c : Int) (s : State) : (rebaseEvents c s).fixture = s.fixture :=
  (rebaseEvents_schedule c s).fixture_eq
@[simp] theorem fixNonEvents_fixture (s : State) : (fixNonEvents s).fixture = s.fixture :=
  (fixNonEvents_schedule s).fixture_eq
@[simp] theorem forceUpdateAll_fixture (c : Int) (s : State) : (forceUpdateAll c s).fixture = s.fixture :=
  (forceUpdateAll_schedule c s).fixture_eq
@[simp] theorem powerOn_fixture (s : State) : (powerOn s).fixture = s.fixture :=
  (powerOn_schedule s).fixture_eq.trans (clearBlock_fixture s)

theorem busRead_fixture (A : Word) (n : Width) (c : Int) (s : State) : (busRead A n c s).fixture = s.fixture := by
  rcases memRead_after A n c s with h | ⟨q, h⟩ | ⟨r, h⟩ <;> simp [busRead, h]

theorem busWrite_fixture (A : Word) (n : Width) (v : Half) (c : Int) (s : State) :
    (busWrite A n v c s).fixture = s.fixture := by
  rcases memWrite_after A n v c s with h | ⟨q, h⟩ | ⟨r, h⟩ | ⟨x, h⟩ | ⟨m, h⟩ | ⟨m, h⟩ <;> simp [busWrite, h]

theorem stepEvents_fixture (c : Int) (s : State) : (stepEvents c s).fixture = s.fixture := by
  simp [stepEvents]

theorem rebaseAll_fixture (c : Int) (s : State) : (rebaseAll c s).fixture = s.fixture := by
  unfold rebaseAll
  split
  · simp
  · exact raiseError_fixture _ _ s

theorem frameEnd_fixture (c : Int) (s : State) : (frameEnd c s).fixture = s.fixture := by
  have h : (audioCarry c (forceUpdateAll c (fixNonEvents s))).fixture = s.fixture := by simp
  unfold frameEnd
  dsimp only
  split
  · simp
  · exact (raiseError_fixture _ _ _).trans h

theorem commitSnapshot_fixture (q : Snapshot) (c : Int) (s : State) : (commitSnapshot q c s).fixture = s.fixture :=
  (forceUpdateAll_fixture c _).trans (commitBlock_fixture q s)

theorem validateBlocks_fixture (q : Snapshot) (ps : List Periph) (s : State) :
    (validateBlocks q ps s).fixture = s.fixture := by
  obtain ⟨l, h, -⟩ := validateBlocks_eq q ps s
  rw [h]; rfl

theorem restoreSnapshot_fixture (c : Int) (len : Word) (s : State) : (restoreSnapshot c len s).fixture = s.fixture := by
  cases h : checkSnapshot (payload len.toNat s) s with
  | ok q => simp [restoreSnapshot_ok h, commitSnapshot_fixture, validateBlocks_fixture]
  | error why =>
    obtain ⟨l, hr, -⟩ := restoreSnapshot_error (c := c) h
    rw [hr]; rfl

theorem querySize_fixture (s : State) : (querySize s).fixture = s.fixture := by
  rw [querySize, respond_fixture, drawOne_fixture, serializePass_fixture]

theorem saveSnapshot_fixture (s : State) : (saveSnapshot s).fixture = s.fixture := by
  rw [saveSnapshot, respond_fixture, emit_fixture, serializePass_fixture, serializePass_fixture]

/-- R128 (c): of all requests only LDIMG changes ROM or LOADED, and none of the others the setting. -/
theorem exec_fixture {i : Instr} {s t : State} (h : exec i s = .next t) (hi : ∀ len, i ≠ .ldimg len) :
    t.fixture = s.fixture := by
  cases i with
  | rdb c a => obtain ⟨-, rfl⟩ := exec_rdb_inv c a h; exact busRead_fixture _ _ _ s
  | rdh c a => obtain ⟨-, rfl⟩ := exec_rdh_inv c a h; exact busRead_fixture _ _ _ s
  | wrb c a d => obtain ⟨-, rfl⟩ := exec_wrb_inv c a d h; exact busWrite_fixture _ _ _ _ s
  | wrh c a d => obtain ⟨-, rfl⟩ := exec_wrh_inv c a d h; exact busWrite_fixture _ _ _ _ s
  | setev cls T => obtain ⟨p, -, -, rfl⟩ := exec_setev_inv h; exact (respond_fixture _ _).trans (setEvent_fixture p T s)
  | nextb => obtain ⟨-, rfl⟩ := exec_nextb_inv h; exact respond_fixture _ s
  | step c => obtain ⟨-, rfl⟩ := exec_step_inv c h; exact stepEvents_fixture _ s
  | fupd c => obtain ⟨-, rfl⟩ := exec_fupd_inv c h; exact (respond_fixture _ _).trans (forceUpdateAll_fixture _ s)
  | rebase c => obtain ⟨-, rfl⟩ := exec_rebase_inv c h; exact rebaseAll_fixture _ s
  | fixne => obtain ⟨-, rfl⟩ := exec_fixne_inv h; exact (respond_fixture _ _).trans (fixNonEvents_fixture s)
  | frend c => obtain ⟨-, rfl⟩ := exec_frend_inv c h; exact frameEnd_fixture _ s
  | acarry c => obtain ⟨-, rfl⟩ := exec_acarry_inv c h; exact (respond_fixture _ _).trans (audioCarry_fixture _ s)
  | irqa src on => obtain ⟨k, -, -, rfl⟩ := exec_irqa_inv h; exact (respond_fixture _ _).trans (assertSource_fixture k on s)
  | pwr => obtain ⟨-, rfl⟩ := exec_pwr_inv h; exact (respond_fixture _ _).trans (powerOn_fixture s)
  | ldimg len => exact absurd rfl (hi len)
  | svsz => obtain ⟨-, rfl⟩ := exec_svsz_inv h; exact querySize_fixture s
  | save cap => obtain ⟨-, -, rfl⟩ := exec_save_inv h; exact saveSnapshot_fixture s
  | rstr c len => obtain ⟨-, rfl⟩ := exec_rstr_inv c len h; exact restoreSnapshot_fixture _ len s
  | expt r => obtain ⟨-, rfl⟩ := exec_expt_inv r h; exact (respond_fixture _ _).trans (emit_fixture _ s)

/-- R183, R184: an LDIMG, accepted or not, leaves the setting alone. -/
theorem loadImage_setting (len : Word) (s : State) : (loadImage len s).setting = s.setting := by
  unfold loadImage
  dsimp only
  split
  · calc
      _ = (installImage (payload len.toNat s) len.toNat (consume len.toNat s)).setting :=
        setting_eq_of_fixture_eq ((respond_fixture _ _).trans (powerOn_fixture _))
      _ = (consume len.toNat s).setting := installImage_setting _ _ _
      _ = s.setting := setting_eq_of_fixture_eq (consume_fixture _ s)
  · exact setting_eq_of_fixture_eq ((raiseError_fixture _ _ _).trans (consume_fixture _ s))

theorem exec_setting {i : Instr} {s t : State} (h : exec i s = .next t) : t.setting = s.setting := by
  by_cases hi : ∃ len, i = .ldimg len
  · obtain ⟨len, rfl⟩ := hi
    obtain ⟨-, rfl⟩ := exec_ldimg_inv len h
    exact loadImage_setting len s
  · exact setting_eq_of_fixture_eq (exec_fixture h (not_exists.1 hi))

/-- Settles O10: the setting through every operation, and ROM and LOADED through every operation but LDIMG. -/
theorem onlyLdimgChangesRom : Obligations.OnlyLdimgChangesRom := by
  unfold Obligations.OnlyLdimgChangesRom
  intro i s t h
  obtain ⟨hcfg, hreq, hans, hrep, hseed⟩ := setting_eq_iff.1 (exec_setting h)
  exact ⟨hcfg, hreq, hans, hrep, hseed, fun hi => (fixture_eq_iff.1 (exec_fixture h hi)).2⟩

/-! ## Every admitted request is answered -/

/-- R84, R200: what a completed operation may answer: OK, or an error of its own with the other fields 0. -/
def MayAnswer (i : Instr) (r : Response) : Prop :=
  (r.st = .ok ∨ (r.st = .schedViolation ∧ ∃ c, i = .rebase c ∨ i = .frend c) ∨
    (r.st = .loadError ∧ ∃ len, i = .ldimg len) ∨ (r.st = .serMismatch ∧ ∃ c len, i = .rstr c len)) ∧
  (r.st ≠ .ok → r.ua = false ∧ r.none = false ∧ r.v = 0)

theorem mayAnswer_of_ok {i : Instr} {r : Response} (h : r.st = .ok) : MayAnswer i r :=
  ⟨.inl h, fun hne => absurd h hne⟩

theorem mayAnswer_schedViolation {i : Instr} (h : ∃ c, i = .rebase c ∨ i = .frend c) :
    MayAnswer i (errorResponse .schedViolation) :=
  ⟨.inr (.inl ⟨rfl, h⟩), fun _ => ⟨rfl, rfl, rfl⟩⟩

theorem mayAnswer_loadError (len : Word) : MayAnswer (.ldimg len) (errorResponse .loadError) :=
  ⟨.inr (.inr (.inl ⟨rfl, len, rfl⟩)), fun _ => ⟨rfl, rfl, rfl⟩⟩

theorem mayAnswer_serMismatch (c len : Word) : MayAnswer (.rstr c len) (errorResponse .serMismatch) :=
  ⟨.inr (.inr (.inr ⟨rfl, c, len, rfl⟩)), fun _ => ⟨rfl, rfl, rfl⟩⟩

@[simp] theorem raiseError_response (st : Status) (what : LogRecord) (s : State) :
    (raiseError st what s).response = some (errorResponse st) := rfl

theorem okLevel_st (l : Level) : (okLevel l).st = .ok := by cases l <;> rfl

/-- R151: REBASE answers OK or a scheduling violation. -/
theorem rebaseAll_response (c : Int) (s : State) : (rebaseAll c s).response = some (okValue false 0) ∨
    (rebaseAll c s).response = some (errorResponse .schedViolation) := by
  unfold rebaseAll
  split
  · exact .inl rfl
  · exact .inr rfl

/-- R159: FREND answers as the REBASE in it. -/
theorem frameEnd_response (c : Int) (s : State) : (frameEnd c s).response = some (okValue false 0) ∨
    (frameEnd c s).response = some (errorResponse .schedViolation) := by
  unfold frameEnd
  dsimp only
  split
  · exact .inl rfl
  · exact .inr rfl

/-- R183, R184: LDIMG answers the size of ROM or a load error. -/
theorem loadImage_response (len : Word) (s : State) :
    (loadImage len s).response = some (okValue false (BitVec.ofNat 32 (max len.toNat 65536))) ∨
      (loadImage len s).response = some (errorResponse .loadError) := by
  unfold loadImage
  dsimp only
  split
  · exact .inl rfl
  · exact .inr rfl

/-- R188, R190: RSTR answers OK or a mismatch. -/
theorem restoreSnapshot_response (c : Int) (len : Word) (s : State) :
    (restoreSnapshot c len s).response = some (okValue false 0) ∨
      (restoreSnapshot c len s).response = some (errorResponse .serMismatch) := by
  unfold restoreSnapshot
  dsimp only
  split
  · exact .inl rfl
  · exact .inr rfl

/-- R12, R84: an admitted operation, for SAVE with room enough, completes with an answer it may give. -/
theorem exec_answers {i : Instr} {s : State} (ha : admission i s = none)
    (hsave : ∀ cap, i = .save cap → snapshotSize s ≤ cap.toNat) :
    ∃ t r, exec i s = .next t ∧ t.response = some r ∧ MayAnswer i r := by
  have hwf : i.wellFormed = true := (admission_none ha).2.2.2
  cases i with
  | rdb c a => exact ⟨_, _, exec_rdb c a s ha, respond_response _ _, mayAnswer_of_ok rfl⟩
  | rdh c a => exact ⟨_, _, exec_rdh c a s ha, respond_response _ _, mayAnswer_of_ok rfl⟩
  | wrb c a d => exact ⟨_, _, exec_wrb c a d s ha, respond_response _ _, mayAnswer_of_ok rfl⟩
  | wrh c a d => exact ⟨_, _, exec_wrh c a d s ha, respond_response _ _, mayAnswer_of_ok rfl⟩
  | setev cls T =>
    obtain ⟨p, hp⟩ := evClassOf_some hwf
    exact ⟨_, _, exec_setev T s ha hp, respond_response _ _, mayAnswer_of_ok rfl⟩
  | nextb => exact ⟨_, _, exec_nextb s ha, respond_response _ _, mayAnswer_of_ok rfl⟩
  | step c => exact ⟨_, _, exec_step c s ha, respond_response _ _, mayAnswer_of_ok rfl⟩
  | fupd c => exact ⟨_, _, exec_fupd c s ha, respond_response _ _, mayAnswer_of_ok rfl⟩
  | rebase c =>
    rcases rebaseAll_response c.toInt s with hr | hr
    · exact ⟨_, _, exec_rebase c s ha, hr, mayAnswer_of_ok rfl⟩
    · exact ⟨_, _, exec_rebase c s ha, hr, mayAnswer_schedViolation ⟨c, .inl rfl⟩⟩
  | fixne => exact ⟨_, _, exec_fixne s ha, respond_response _ _, mayAnswer_of_ok rfl⟩
  | frend c =>
    rcases frameEnd_response c.toInt s with hr | hr
    · exact ⟨_, _, exec_frend c s ha, hr, mayAnswer_of_ok rfl⟩
    · exact ⟨_, _, exec_frend c s ha, hr, mayAnswer_schedViolation ⟨c, .inr rfl⟩⟩
  | acarry c => exact ⟨_, _, exec_acarry c s ha, respond_response _ _, mayAnswer_of_ok rfl⟩
  | irqa src on =>
    obtain ⟨k, hk, -⟩ := sourceOf_some hwf
    exact ⟨_, _, exec_irqa on s ha hk, respond_response _ _, mayAnswer_of_ok (okLevel_st _)⟩
  | pwr => exact ⟨_, _, exec_pwr s ha, respond_response _ _, mayAnswer_of_ok rfl⟩
  | ldimg len =>
    rcases loadImage_response len s with hr | hr
    · exact ⟨_, _, exec_ldimg len s ha, hr, mayAnswer_of_ok rfl⟩
    · exact ⟨_, _, exec_ldimg len s ha, hr, mayAnswer_loadError len⟩
  | svsz => exact ⟨_, _, exec_svsz s ha, respond_response _ _, mayAnswer_of_ok rfl⟩
  | save cap => exact ⟨_, _, exec_save s ha (hsave cap rfl), respond_response _ _, mayAnswer_of_ok rfl⟩
  | rstr c len =>
    rcases restoreSnapshot_response c.toInt len s with hr | hr
    · exact ⟨_, _, exec_rstr c len s ha, hr, mayAnswer_of_ok rfl⟩
    · exact ⟨_, _, exec_rstr c len s ha, hr, mayAnswer_serMismatch c len⟩
  | expt r => exact ⟨_, _, exec_expt r s ha, respond_response _ _, mayAnswer_of_ok rfl⟩

/-- Settles O18: a ready block admits the request, and each operation answers in one of its own ways. -/
theorem everyAdmittedRequestIsAnswered : Obligations.EveryAdmittedRequestIsAnswered := by
  unfold Obligations.EveryAdmittedRequestIsAnswered
  intro i s hs hwf hc hsave
  exact exec_answers (admission_ready hs hc hwf) hsave

end Sys2Proof.Machine

/-! PROOFS. The state statements (10_state.md): the cold block, the invariants of the state and of the schedule through
every operation, IRQ, and the refusal of a negative cycle. -/

namespace Sys2Proof

/-- R155: FIXNE only makes due times later. -/
theorem Time.val_le_fixNonEvent (far : Int) (T : Time) : T.val ≤ (T.fixNonEvent far).val := by
  cases T with
  | none => exact le_rfl
  | fin t =>
    unfold Time.fixNonEvent
    dsimp only
    split
    · exact le_top
    · exact le_rfl

end Sys2Proof

namespace Sys2Proof.Machine

/-! ## Reset -/

/-- Settles O6: both latches are given by the definition. -/
theorem resetIsCold : Obligations.ResetIsCold := by
  unfold Obligations.ResetIsCold
  exact ⟨rfl, rfl⟩

/-- Settles O7: the cold buffers are empty, and the block is neither loaded nor halted. -/
theorem resetMeetsInvariant : Obligations.ResetMeetsInvariant where
  cfg := ⟨by decide, by decide⟩
  wram := ⟨Memory.wf_nil, List.forall_mem_nil _⟩
  ram := ⟨Memory.wf_nil, List.forall_mem_nil _⟩
  rom := ⟨Memory.wf_nil, List.forall_mem_nil _⟩
  image := fun h => nomatch h
  latch := fun h => nomatch h

/-! ## A negative cycle -/

/-- R87 test (4): on a ready block the sign of the cycle is the first test that can fail. -/
theorem exec_negativeCycle {i : Instr} {s : State} {c : Word} (hs : s.Ready) (hi : i.cycle = some c)
    (hc : c.toInt < 0) : exec i s = .refused .negativeCycle := by
  obtain ⟨hloaded, hhalted⟩ := hs
  exact exec_refused (by simp [admission, negativeCycle, hloaded, hhalted, hi, hc])

/-- Settles O16: each of the ten operations reads its cycle. -/
theorem negativeCycleRefused : Obligations.NegativeCycleRefused := by
  unfold Obligations.NegativeCycleRefused
  intro s c a b h hs hc
  have refused : ∀ i : Instr, i.cycle = some c → exec i s = .refused .negativeCycle :=
    fun i hi => exec_negativeCycle hs hi hc
  exact ⟨refused _ rfl, refused _ rfl, refused _ rfl, refused _ rfl, refused _ rfl, refused _ rfl, refused _ rfl,
    refused _ rfl, refused _ rfl, refused _ rfl⟩

/-! ## The invariant of the state -/

/-- R13: everything a step that answers can be: nothing waits and nothing changes, or the oldest request runs. -/
theorem step_next_cases {s t : State} (h : step s = .next t) : (s.requests = [] ∧ t = s) ∨
    ∃ w rest i, s.requests = w :: rest ∧ decode w = .ok i ∧ exec i { s with requests := rest } = .next t := by
  cases hr : s.requests with
  | nil =>
    rw [step_of_no_request hr] at h
    cases h
    exact .inl ⟨rfl, rfl⟩
  | cons w rest =>
    cases hd : decode w with
    | error e => cases e; simp [step, hr, hd] at h
    | ok i => exact .inr ⟨w, rest, i, rfl, hd, step_of_request hr hd ▸ h⟩

/-- R87 test (2): an admitted operation other than LDIMG finds the block loaded. -/
theorem loaded_of_admission {i : Instr} {s : State} (ha : admission i s = none) (hu : i.allowedUnloaded = false) :
    s.loaded = true :=
  (admission_none ha).1.resolve_right (by simp [hu])

theorem busRead_inv {s : State} (hi : s.Inv) (A : Word) (n : Width) (c : Int) : (busRead A n c s).Inv :=
  respond_inv (memRead_inv hi A n c) _

theorem busWrite_inv {s : State} (hi : s.Inv) (A : Word) (n : Width) (v : Half) (c : Int) : (busWrite A n v c s).Inv :=
  respond_inv (memWrite_inv hi A n v c) _

theorem audioCarry_inv {s : State} (hi : s.Inv) (c : Int) : (audioCarry c s).Inv := hi.congr rfl rfl rfl rfl rfl rfl

theorem stepEvents_inv {s : State} (hi : s.Inv) (c : Int) : (stepEvents c s).Inv :=
  respond_inv (((serviceIfDue_schedule _ _ _).trans ((serviceIfDue_schedule _ _ _).trans
    ((serviceIfDue_schedule _ _ _).trans (rearm_schedule _)))).inv hi) _

theorem rebaseAll_inv {s : State} (hi : s.Inv) (hl : s.loaded = true) (c : Int) : (rebaseAll c s).Inv := by
  unfold rebaseAll
  split
  · exact respond_inv ((rebaseEvents_schedule c s).inv hi) _
  · exact raiseError_inv hi _ (fun _ => hl) _

theorem frameEnd_inv {s : State} (hi : s.Inv) (hl : s.loaded = true) (c : Int) : (frameEnd c s).Inv := by
  have hs := (fixNonEvents_schedule s).trans (forceUpdateAll_schedule c _)
  have h3 : (audioCarry c (forceUpdateAll c (fixNonEvents s))).Inv := audioCarry_inv (hs.inv hi) c
  unfold frameEnd
  dsimp only
  split
  · exact respond_inv (((rebaseEvents_schedule c _).trans (rearm_schedule _)).inv h3) _
  · exact raiseError_inv h3 _ (fun _ => hs.loaded.trans hl) _

/-- R183, R184: an accepted image is as long as its buffer says; a refused one installs nothing. -/
theorem loadImage_inv {s : State} (hi : s.Inv) (len : Word) : (loadImage len s).Inv := by
  have h1 : (consume len.toNat s).Inv := consume_inv hi _
  unfold loadImage
  dsimp only
  split
  · rename_i hL
    exact respond_inv (powerOn_inv (installImage_inv h1 ((imageLengthOk_iff _).1 hL) (payload_length _ s))) _
  · exact raiseError_inv h1 .loadError (by simp) _

theorem validatePass_cfg (bs : List Byte) (s : State) : (validatePass bs s).cfg = s.cfg := by
  obtain ⟨l, h, -⟩ := validatePass_eq bs s
  rw [h]

/-- R188, R190: what passes the checks fits the two memories; what does not leaves the block alone. -/
theorem restoreSnapshot_inv {s : State} (hi : s.Inv) (c : Int) (len : Word) : (restoreSnapshot c len s).Inv := by
  have h1 : (validatePass (payload len.toNat s) (consume len.toNat s)).Inv := validatePass_inv (consume_inv hi _) _
  unfold restoreSnapshot
  dsimp only
  split
  · rename_i q hq
    obtain ⟨hwram, hcram⟩ := checkSnapshot_lengths hq
    exact respond_inv (commitSnapshot_inv h1 hwram (hcram.trans (by rw [validatePass_cfg, consume_cfg])) c) _
  · exact raiseError_inv h1 .serMismatch (by simp) _

/-- Every operation keeps the invariant. -/
theorem exec_keeps_inv {i : Instr} {s t : State} (hi : s.Inv) (h : exec i s = .next t) : t.Inv := by
  cases i with
  | rdb c a => obtain ⟨-, rfl⟩ := exec_rdb_inv c a h; exact busRead_inv hi _ _ _
  | rdh c a => obtain ⟨-, rfl⟩ := exec_rdh_inv c a h; exact busRead_inv hi _ _ _
  | wrb c a d => obtain ⟨-, rfl⟩ := exec_wrb_inv c a d h; exact busWrite_inv hi _ _ _ _
  | wrh c a d => obtain ⟨-, rfl⟩ := exec_wrh_inv c a d h; exact busWrite_inv hi _ _ _ _
  | setev cls T => obtain ⟨p, -, -, rfl⟩ := exec_setev_inv h; exact respond_inv ((setEvent_schedule p T s).inv hi) _
  | nextb => obtain ⟨-, rfl⟩ := exec_nextb_inv h; exact respond_inv hi _
  | step c => obtain ⟨-, rfl⟩ := exec_step_inv c h; exact stepEvents_inv hi _
  | fupd c => obtain ⟨-, rfl⟩ := exec_fupd_inv c h; exact respond_inv ((forceUpdateAll_schedule _ s).inv hi) _
  | rebase c => obtain ⟨ha, rfl⟩ := exec_rebase_inv c h; exact rebaseAll_inv hi (loaded_of_admission ha rfl) _
  | fixne => obtain ⟨-, rfl⟩ := exec_fixne_inv h; exact respond_inv ((fixNonEvents_schedule s).inv hi) _
  | frend c => obtain ⟨ha, rfl⟩ := exec_frend_inv c h; exact frameEnd_inv hi (loaded_of_admission ha rfl) _
  | acarry c => obtain ⟨-, rfl⟩ := exec_acarry_inv c h; exact respond_inv (audioCarry_inv hi _) _
  | irqa src on =>
    obtain ⟨k, -, -, rfl⟩ := exec_irqa_inv h
    exact respond_inv ((assertSource_schedule k on s).inv hi) _
  | pwr => obtain ⟨-, rfl⟩ := exec_pwr_inv h; exact respond_inv (powerOn_inv hi) _
  | ldimg len => obtain ⟨-, rfl⟩ := exec_ldimg_inv len h; exact loadImage_inv hi len
  | svsz =>
    obtain ⟨-, rfl⟩ := exec_svsz_inv h
    rw [querySize_eq]
    exact hi.congr rfl rfl rfl rfl rfl rfl
  | save cap =>
    obtain ⟨-, -, rfl⟩ := exec_save_inv h
    rw [saveSnapshot_eq]
    exact hi.congr rfl rfl rfl rfl rfl rfl
  | rstr c len => obtain ⟨-, rfl⟩ := exec_rstr_inv c len h; exact restoreSnapshot_inv hi _ len
  | expt r => obtain ⟨-, rfl⟩ := exec_expt_inv r h; exact respond_inv (emit_inv hi _) _

/-- Settles O8: the waiting requests are no part of the invariant, and the operation that runs keeps it. -/
theorem stepKeepsInvariant : Obligations.StepKeepsInvariant := by
  unfold Obligations.StepKeepsInvariant
  intro s t hi h
  obtain ⟨-, rfl⟩ | ⟨w, rest, i, -, -, hx⟩ := step_next_cases h
  · exact hi
  · have h1 : { s with requests := rest }.Inv := hi.congr rfl rfl rfl rfl rfl rfl
    exact exec_keeps_inv h1 hx

/-! ## The invariant of the schedule -/

theorem respond_haltBound {s : State} (h : s.HaltBound) (r : Response) : (respond r s).HaltBound :=
  h.congr rfl rfl rfl rfl

theorem writeLog_haltBound {s : State} (h : s.HaltBound) (r : LogRecord) : (writeLog r s).HaltBound :=
  h.congr rfl rfl rfl rfl

theorem raiseError_haltBound {s : State} (h : s.HaltBound) (st : Status) (what : LogRecord) :
    (raiseError st what s).HaltBound := h.congr rfl rfl rfl rfl

theorem audioCarry_haltBound {s : State} (h : s.HaltBound) (c : Int) : (audioCarry c s).HaltBound :=
  h.congr rfl rfl rfl rfl

theorem busRead_haltBound {s : State} (h : s.HaltBound) (A : Word) (n : Width) (c : Int) :
    (busRead A n c s).HaltBound := by
  refine respond_haltBound ?_ _
  rcases memRead_after A n c s with e | ⟨q, e⟩ | ⟨r, e⟩ <;> rw [e]
  · exact h
  · exact callPeriph_haltBound h q
  · exact writeLog_haltBound h r

theorem busWrite_haltBound {s : State} (h : s.HaltBound) (A : Word) (n : Width) (v : Half) (c : Int) :
    (busWrite A n v c s).HaltBound := by
  refine respond_haltBound ?_ _
  rcases memWrite_after A n v c s with e | ⟨q, e⟩ | ⟨r, e⟩ | ⟨x, e⟩ | ⟨m, e⟩ | ⟨m, e⟩ <;> rw [e]
  · exact h
  · exact callPeriph_haltBound h q
  · exact writeLog_haltBound h r
  all_goals exact h.congr rfl rfl rfl rfl

theorem fixNonEvents_ev (s : State) (p : EvClass) :
    (fixNonEvents s).ev p = (s.ev p).fixNonEvent s.cfg.farThreshold := by
  cases p <;> rfl

theorem fixNonEvents_haltBound {s : State} (h : s.HaltBound) : (fixNonEvents s).HaltBound := fun p => by
  rw [fixNonEvents_ev]
  exact (h p).trans (Time.val_le_fixNonEvent _ _)

theorem stepEvents_haltBound (c : Int) (s : State) : (stepEvents c s).HaltBound :=
  respond_haltBound (rearm_haltBound _) _

/-- R159: a frame end re-arms the halt point after its rebase, or stops short of the rebase after FUPD re-armed it. -/
theorem frameEnd_haltBound (c : Int) (s : State) : (frameEnd c s).HaltBound := by
  unfold frameEnd
  dsimp only
  split
  · exact respond_haltBound (rearm_haltBound _) _
  · exact raiseError_haltBound (audioCarry_haltBound (forceUpdateAll_haltBound _ _) _) _ _

theorem powerOn_haltBound (s : State) : (powerOn s).HaltBound := forceUpdateAll_haltBound _ _

theorem commitSnapshot_haltBound (q : Snapshot) (c : Int) (s : State) : (commitSnapshot q c s).HaltBound :=
  forceUpdateAll_haltBound _ _

theorem loadImage_haltBound {s : State} (h : s.HaltBound) (len : Word) : (loadImage len s).HaltBound := by
  unfold loadImage
  dsimp only
  split
  · exact respond_haltBound (powerOn_haltBound _) _
  · exact raiseError_haltBound (s := consume len.toNat s) (h.congr rfl rfl rfl rfl) _ _

theorem restoreSnapshot_haltBound {s : State} (h : s.HaltBound) (c : Int) (len : Word) :
    (restoreSnapshot c len s).HaltBound := by
  unfold restoreSnapshot
  dsimp only
  split
  · exact respond_haltBound (commitSnapshot_haltBound _ _ _) _
  · obtain ⟨l, hv, -⟩ := validatePass_eq (payload len.toNat s) (consume len.toNat s)
    refine raiseError_haltBound ?_ _ _
    rw [hv]
    exact h.congr rfl rfl rfl rfl

/-- R31, R141: every operation but REBASE keeps the halt point at or below every due time. -/
theorem exec_keeps_haltBound {i : Instr} {s t : State} (hi : ∀ c, i ≠ .rebase c) (hs : s.HaltBound)
    (h : exec i s = .next t) : t.HaltBound := by
  cases i with
  | rdb c a => obtain ⟨-, rfl⟩ := exec_rdb_inv c a h; exact busRead_haltBound hs _ _ _
  | rdh c a => obtain ⟨-, rfl⟩ := exec_rdh_inv c a h; exact busRead_haltBound hs _ _ _
  | wrb c a d => obtain ⟨-, rfl⟩ := exec_wrb_inv c a d h; exact busWrite_haltBound hs _ _ _ _
  | wrh c a d => obtain ⟨-, rfl⟩ := exec_wrh_inv c a d h; exact busWrite_haltBound hs _ _ _ _
  | setev cls T => obtain ⟨p, -, -, rfl⟩ := exec_setev_inv h; exact respond_haltBound (setEvent_haltBound hs p T) _
  | nextb => obtain ⟨-, rfl⟩ := exec_nextb_inv h; exact respond_haltBound hs _
  | step c => obtain ⟨-, rfl⟩ := exec_step_inv c h; exact stepEvents_haltBound _ s
  | fupd c => obtain ⟨-, rfl⟩ := exec_fupd_inv c h; exact respond_haltBound (forceUpdateAll_haltBound _ s) _
  | rebase c => exact absurd rfl (hi c)
  | fixne => obtain ⟨-, rfl⟩ := exec_fixne_inv h; exact respond_haltBound (fixNonEvents_haltBound hs) _
  | frend c => obtain ⟨-, rfl⟩ := exec_frend_inv c h; exact frameEnd_haltBound _ s
  | acarry c => obtain ⟨-, rfl⟩ := exec_acarry_inv c h; exact respond_haltBound (audioCarry_haltBound hs _) _
  | irqa src on =>
    obtain ⟨k, -, -, rfl⟩ := exec_irqa_inv h
    exact respond_haltBound (assertSource_haltBound hs k on) _
  | pwr => obtain ⟨-, rfl⟩ := exec_pwr_inv h; exact respond_haltBound (powerOn_haltBound s) _
  | ldimg len => obtain ⟨-, rfl⟩ := exec_ldimg_inv len h; exact loadImage_haltBound hs len
  | svsz =>
    obtain ⟨-, rfl⟩ := exec_svsz_inv h
    rw [querySize_eq]
    exact hs.congr rfl rfl rfl rfl
  | save cap =>
    obtain ⟨-, -, rfl⟩ := exec_save_inv h
    rw [saveSnapshot_eq]
    exact hs.congr rfl rfl rfl rfl
  | rstr c len => obtain ⟨-, rfl⟩ := exec_rstr_inv c len h; exact restoreSnapshot_haltBound hs _ len
  | expt r => obtain ⟨-, rfl⟩ := exec_expt_inv r h; exact hs.congr rfl rfl rfl rfl

/-- R31: a due time in the past has the halt point in the past with it. -/
theorem State.HaltBound.timely {s : State} (h : s.HaltBound) (c : Int) : s.Timely c := by
  by_cases hp : ∀ p, (c : WithTop Int) ≤ (s.ev p).val
  · exact .inl hp
  · obtain ⟨p, hlate⟩ := not_forall.1 hp
    exact .inr ((h p).trans (not_le.1 hlate).le)

/-- R161: a CPU run issues no REBASE. -/
theorem CpuAction.request_ne_rebase {c : Int} {a : CpuAction} {i : Instr} (h : i ∈ a.requests c) (c' : Word) :
    i ≠ .rebase c' := by
  rcases CpuAction.requests_cases h with rfl | ⟨x, rfl⟩
  · simp
  · cases x <;> simp [BusAccess.request]

/-- R161, R162: wherever a run stands or returns, the bound holds and the count has not gone back. -/
theorem cpuRun_haltBound {bs : List CpuBoundary} {c c' : Int} {s t : State} (hs : s.HaltBound)
    (h : cpuRun bs c s = .running c' t ∨ cpuRun bs c s = .returned c' t) : t.HaltBound ∧ c ≤ c' := by
  induction bs generalizing c s with
  | nil =>
    rcases h with h | h <;> cases h
    exact ⟨hs, le_rfl⟩
  | cons b rest ih =>
    rcases cpuRun_cons b rest c s with ⟨-, hr⟩ | ⟨-, -, hr⟩ | ⟨-, -, ⟨u, hx, hr⟩ | ⟨r, -, hr⟩ | ⟨f, -, hr⟩⟩ <;>
      rw [hr] at h
    · rcases h with h | h <;> cases h
    · rcases h with h | h <;> cases h
      exact ⟨hs, le_rfl⟩
    · have hu : u.HaltBound := execAll_keeps
        (fun i hi _ _ hv he => exec_keeps_haltBound (CpuAction.request_ne_rebase hi) hv he) hs hx
      obtain ⟨ht, hle⟩ := ih hu h
      exact ⟨ht, (CpuAction.le_cycleAfter c _).trans hle⟩
    · rcases h with h | h <;> cases h
    · rcases h with h | h <;> cases h

/-- R161, R247: the CPU executes an instruction only before every due time. -/
theorem executeOne_before_dueTimes {b : CpuBoundary} {c : Int} {s : State} {i : CpuInstruction} (hs : s.HaltBound)
    (h : cpuBoundary b c s = .executeOne i) :
    b.stop = false ∧ i = b.instruction ∧ ∀ p, (c : WithTop Int) < (s.ev p).val := by
  obtain ⟨hstop, hdue, rfl⟩ := (cpuBoundary_executeOne_iff b c s i).1 h
  have hlt : (c : WithTop Int) < s.halt.val := not_le.1 fun hle => by
    rw [(Time.dueBy_iff s.halt c).2 hle] at hdue
    cases hdue
  exact ⟨hstop, rfl, fun p => hlt.trans_le (hs p)⟩

/-- Settles O9: the bound through every operation, from it through a run by induction over the boundaries, and what it
says of the cycles. -/
theorem haltNeverLaterThanDueTimes : Obligations.HaltNeverLaterThanDueTimes := by
  unfold Obligations.HaltNeverLaterThanDueTimes
  exact ⟨fun _ _ _ => exec_keeps_haltBound, fun _ c hs => hs.timely c, fun _ _ _ _ _ => cpuRun_haltBound,
    fun _ _ _ _ => executeOne_before_dueTimes⟩

/-! ## IRQ and the contract calls -/

/-- R27, R234: the contract calls made on the way from `s` to `t`: none only if IRQ is as it was. -/
def CallsEachChange (s t : State) : Prop := ∃ l, t.calls = l ++ s.calls ∧ (l = [] → t.irq = s.irq)

theorem CallsEachChange.trans {s t u : State} (h : CallsEachChange s t) (k : CallsEachChange t u) :
    CallsEachChange s u := by
  obtain ⟨l, hl, hirq⟩ := h
  obtain ⟨m, hm, kirq⟩ := k
  refine ⟨m ++ l, by rw [hm, hl, List.append_assoc], fun e => ?_⟩
  obtain ⟨em, el⟩ := List.append_eq_nil_iff.1 e
  exact (kirq em).trans (hirq el)

theorem CallsEachChange.irq_eq {s t : State} (h : CallsEachChange s t) (hc : t.calls = s.calls) : t.irq = s.irq := by
  obtain ⟨l, hl, hirq⟩ := h
  exact hirq (List.append_left_eq_self.1 (hl.symm.trans hc))

theorem CallsEachChange.of_eq {s t : State} (hc : t.calls = s.calls) (hi : t.irq = s.irq) : CallsEachChange s t :=
  ⟨[], hc, fun _ => hi⟩

/-- Where a call is made, nothing is claimed of IRQ. -/
theorem CallsEachChange.of_cons {s t : State} (q : Call) (l : List Call) (hc : t.calls = q :: l ++ s.calls) :
    CallsEachChange s t :=
  ⟨q :: l, hc, fun e => nomatch e⟩

theorem CallsEachChange.respond {s t : State} (h : CallsEachChange s t) (r : Response) :
    CallsEachChange s (respond r t) := h

theorem callPeriph_callsEachChange (q : Call) (s : State) : CallsEachChange s (callPeriph q s) :=
  .of_cons q [] (callPeriph_calls q s)

theorem busRead_callsEachChange (A : Word) (n : Width) (c : Int) (s : State) : CallsEachChange s (busRead A n c s) := by
  refine .respond ?_ _
  rcases memRead_after A n c s with e | ⟨q, e⟩ | ⟨r, e⟩ <;> rw [e]
  · exact .of_eq rfl rfl
  · exact callPeriph_callsEachChange q s
  · exact .of_eq rfl rfl

theorem busWrite_callsEachChange (A : Word) (n : Width) (v : Half) (c : Int) (s : State) :
    CallsEachChange s (busWrite A n v c s) := by
  refine .respond ?_ _
  rcases memWrite_after A n v c s with e | ⟨q, e⟩ | ⟨r, e⟩ | ⟨x, e⟩ | ⟨m, e⟩ | ⟨m, e⟩ <;> rw [e]
  · exact .of_eq rfl rfl
  · exact callPeriph_callsEachChange q s
  all_goals exact .of_eq rfl rfl

theorem setEvent_irq (p : EvClass) (T : Time) (s : State) : (setEvent p T s).irq = s.irq := by
  unfold setEvent
  dsimp only
  split <;> simp

theorem serviceIfDue_callsEachChange (p : EvClass) (c : Int) (s : State) : CallsEachChange s (serviceIfDue p c s) := by
  unfold serviceIfDue
  split
  · exact .of_cons _ [] (service_calls p c s)
  · exact .of_eq rfl rfl

theorem stepEvents_callsEachChange (c : Int) (s : State) : CallsEachChange s (stepEvents c s) :=
  ((serviceIfDue_callsEachChange .video c s).trans ((serviceIfDue_callsEachChange .timer c _).trans
    ((serviceIfDue_callsEachChange .input c _).trans (.of_eq (rearm_calls _) (setHalt_irq _ _))))).respond _

theorem forceUpdateAll_callsEachChange (c : Int) (s : State) : CallsEachChange s (forceUpdateAll c s) :=
  .of_cons _ [_, _] (forceUpdateAll_calls c s)

theorem rebaseAll_callsEachChange (c : Int) (s : State) : CallsEachChange s (rebaseAll c s) := by
  unfold rebaseAll
  split <;> exact .of_eq rfl rfl

theorem frameEnd_callsEachChange (c : Int) (s : State) : CallsEachChange s (frameEnd c s) := by
  have h : CallsEachChange s (audioCarry c (forceUpdateAll c (fixNonEvents s))) :=
    .of_cons _ [_, _] (forceUpdateAll_calls c (fixNonEvents s))
  unfold frameEnd
  dsimp only
  generalize audioCarry c (forceUpdateAll c (fixNonEvents s)) = u at h ⊢
  split <;> exact h.trans (.of_eq rfl rfl)

theorem powerOn_callsEachChange (s : State) : CallsEachChange s (powerOn s) := .of_cons _ _ (powerOn_calls s)

theorem loadImage_callsEachChange (len : Word) (s : State) : CallsEachChange s (loadImage len s) := by
  unfold loadImage
  dsimp only
  split
  · refine .respond (.trans (.of_eq ?_ ?_) (powerOn_callsEachChange _)) _ <;> simp
  · exact .of_eq rfl rfl

theorem commitSnapshot_callsEachChange (q : Snapshot) (c : Int) (s : State) :
    CallsEachChange s (commitSnapshot q c s) := by
  refine .of_cons (.update .input c) [.update .timer c, .update .video c, .deserializeState .audio q.audio,
    .deserializeState .input q.input, .deserializeState .timer q.timer, .deserializeState .video q.video] ?_
  unfold commitSnapshot
  dsimp only
  rw [forceUpdateAll_calls]
  rfl

theorem restoreSnapshot_callsEachChange (c : Int) (len : Word) (s : State) :
    CallsEachChange s (restoreSnapshot c len s) := by
  have h : CallsEachChange s (validatePass (payload len.toNat s) (consume len.toNat s)) := by
    obtain ⟨l, hv, -⟩ := validatePass_eq (payload len.toNat s) (consume len.toNat s)
    rw [hv]
    exact .of_eq rfl rfl
  unfold restoreSnapshot
  dsimp only
  generalize validatePass (payload len.toNat s) (consume len.toNat s) = u at h ⊢
  split
  · exact h.trans ((commitSnapshot_callsEachChange _ c u).respond _)
  · exact h.trans (.of_eq rfl rfl)

/-- R27, R175: every operation but IRQA makes a contract call or leaves IRQ as it was. -/
theorem exec_callsEachChange {i : Instr} {s t : State} (hi : ∀ src on, i ≠ .irqa src on) (h : exec i s = .next t) :
    CallsEachChange s t := by
  cases i with
  | rdb c a => obtain ⟨-, rfl⟩ := exec_rdb_inv c a h; exact busRead_callsEachChange _ _ _ s
  | rdh c a => obtain ⟨-, rfl⟩ := exec_rdh_inv c a h; exact busRead_callsEachChange _ _ _ s
  | wrb c a d => obtain ⟨-, rfl⟩ := exec_wrb_inv c a d h; exact busWrite_callsEachChange _ _ _ _ s
  | wrh c a d => obtain ⟨-, rfl⟩ := exec_wrh_inv c a d h; exact busWrite_callsEachChange _ _ _ _ s
  | setev cls T => obtain ⟨p, -, -, rfl⟩ := exec_setev_inv h; exact .of_eq (setEvent_calls p T s) (setEvent_irq p T s)
  | nextb => obtain ⟨-, rfl⟩ := exec_nextb_inv h; exact .of_eq rfl rfl
  | step c => obtain ⟨-, rfl⟩ := exec_step_inv c h; exact stepEvents_callsEachChange _ s
  | fupd c => obtain ⟨-, rfl⟩ := exec_fupd_inv c h; exact (forceUpdateAll_callsEachChange _ s).respond _
  | rebase c => obtain ⟨-, rfl⟩ := exec_rebase_inv c h; exact rebaseAll_callsEachChange _ s
  | fixne => obtain ⟨-, rfl⟩ := exec_fixne_inv h; exact .of_eq rfl rfl
  | frend c => obtain ⟨-, rfl⟩ := exec_frend_inv c h; exact frameEnd_callsEachChange _ s
  | acarry c => obtain ⟨-, rfl⟩ := exec_acarry_inv c h; exact .of_eq rfl rfl
  | irqa src on => exact absurd rfl (hi src on)
  | pwr => obtain ⟨-, rfl⟩ := exec_pwr_inv h; exact (powerOn_callsEachChange s).respond _
  | ldimg len => obtain ⟨-, rfl⟩ := exec_ldimg_inv len h; exact loadImage_callsEachChange len s
  | svsz => obtain ⟨-, rfl⟩ := exec_svsz_inv h; rw [querySize_eq]; exact .of_eq rfl rfl
  | save cap => obtain ⟨-, -, rfl⟩ := exec_save_inv h; rw [saveSnapshot_eq]; exact .of_eq rfl rfl
  | rstr c len => obtain ⟨-, rfl⟩ := exec_rstr_inv c len h; exact restoreSnapshot_callsEachChange _ len s
  | expt r => obtain ⟨-, rfl⟩ := exec_expt_inv r h; exact .of_eq rfl rfl

/-- Settles O11: no new call on the way, so none of the operation's steps changed IRQ. -/
theorem irqOnlyByAssert : Obligations.IrqOnlyByAssert := by
  unfold Obligations.IrqOnlyByAssert
  exact fun _ _ _ h hi hc => (exec_callsEachChange hi h).irq_eq hc

end Sys2Proof.Machine

/-! PROOFS. The memory statements (20_memory.md): what an access to a buffer, to an absent CartRAM or to an unused segment
does, which addresses are one address, and a read after a write. -/

namespace Sys2Proof

/-! ## Byte buffers and words -/

/-- `BufWrite` leaves every index outside its own bytes as it was. -/
theorem read_bufWrite_of_outside {m : Memory} (h : Memory.wf m) {j x : Nat} {k : Width} (v : Half)
    (hx : x < j ∨ j + k.bytes ≤ x) : Memory.read (bufWrite m j k v) x = Memory.read m x := by
  have hpos : 1 ≤ k.bytes := by cases k <;> decide
  rw [read_bufWrite h, if_neg (by omega), if_neg]
  rintro ⟨rfl, rfl⟩
  have htwo : Width.half.bytes = 2 := rfl
  omega

/-- `BufRead` depends on the bytes of its width only. -/
theorem bufRead_congr {f g : Nat → Byte} {i : Nat} {n : Width} (h : ∀ d < n.bytes, f (i + d) = g (i + d)) :
    bufRead f i n = bufRead g i n := by
  have h0 : f i = g i := h 0 (by cases n <;> decide)
  cases n with
  | byte => simp only [bufRead, h0]
  | half =>
    have h1 : f (i + 1) = g (i + 1) := h 1 (by decide)
    simp only [bufRead, h0, h1]

/-- A read of bytes that a write did not touch. -/
theorem bufRead_bufWrite_of_disjoint {m : Memory} (h : Memory.wf m) {i j : Nat} {n k : Width} (v : Half)
    (hd : i + n.bytes ≤ j ∨ j + k.bytes ≤ i) :
    bufRead (Memory.read (bufWrite m j k v)) i n = bufRead (Memory.read m) i n :=
  bufRead_congr fun _ _ => read_bufWrite_of_outside h v (by omega)

theorem extractLsb'_8_8_eq_ofNat (d : Half) : d.extractLsb' 8 8 = BitVec.ofNat 8 (d.toNat / 256) := by
  apply BitVec.eq_of_toNat_eq
  simp [Nat.shiftRight_eq_div_pow]

theorem extractLsb'_0_8_eq_ofNat (d : Half) : d.extractLsb' 0 8 = BitVec.ofNat 8 d.toNat := by
  apply BitVec.eq_of_toNat_eq
  simp

end Sys2Proof

namespace Sys2Proof.Machine

/-! ## Which addresses are one address -/

/-- R100: a read depends on its address only through the address it acts on. -/
theorem busRead_congr {n : Width} {A B : Word} (h : busAddr n A = busAddr n B) (c : Int) (s : State) :
    busRead A n c s = busRead B n c s := by
  simp only [busRead, memRead, h]

theorem busWrite_congr {n : Width} {A B : Word} (h : busAddr n A = busAddr n B) (v : Half) (c : Int) (s : State) :
    busWrite A n v c s = busWrite B n v c s := by
  simp only [busWrite, memWrite, h]

/-- No admission test reads an address (R87), so neither does an operation but through the address it acts on. -/
theorem exec_readRequest_congr {n : Width} {A B : Word} (h : busAddr n A = busAddr n B) (c : Word) (s : State) :
    exec (readRequest n c A) s = exec (readRequest n c B) s := by
  have hb := busRead_congr h c.toInt s
  cases n with
  | byte => exact congrArg (runAdmitted (.rdb c A) s) hb
  | half => exact congrArg (runAdmitted (.rdh c A) s) hb

theorem exec_writeRequest_congr {n : Width} {A B : Word} (h : busAddr n A = busAddr n B) (c : Word) (v : Half)
    (s : State) : exec (writeRequest n c A v) s = exec (writeRequest n c B v) s := by
  have hb := busWrite_congr h (n.low v) c.toInt s
  cases n with
  | byte => exact congrArg (runAdmitted (.wrb c A _) s) hb
  | half => exact congrArg (runAdmitted (.wrh c A v) s) hb

/-- Every WRB is the write request of its byte. -/
theorem writeRequest_byte_setWidth (c A : Word) (b : Byte) : writeRequest .byte c A (b.setWidth 16) = .wrb c A b := by
  rw [writeRequest, BitVec.extractLsb'_setWidth_of_le (by omega), BitVec.extractLsb'_eq_self]

theorem busAddr_add_tile (n : Width) (A : Word) (k : Nat) :
    busAddr n (A + BitVec.ofNat 32 (k * 134217728)) = busAddr n A :=
  busAddr_congr (by rw [BitVec.toNat_add, BitVec.toNat_ofNat]; omega) n

theorem busAddr_half_or_one (A : Word) : busAddr .half (A ||| 1) = busAddr .half A := by
  apply BitVec.eq_of_toNat_eq
  have h : (A ||| 1).toNat / 2 = A.toNat / 2 := by simp [BitVec.toNat_or, Nat.or_div_two]
  rw [busAddr_half_toNat, busAddr_half_toNat]
  omega

/-- Settles O28: the tile is no part of the address an access acts on. -/
theorem busAddressesTile : Obligations.BusAddressesTile := by
  unfold Obligations.BusAddressesTile
  intro s c A k b h A'
  have tile : ∀ n, busAddr n A' = busAddr n A := fun n => busAddr_add_tile n A k
  have wrb := exec_writeRequest_congr (tile .byte) c (b.setWidth 16) s
  rw [writeRequest_byte_setWidth, writeRequest_byte_setWidth] at wrb
  exact ⟨exec_readRequest_congr (tile .byte) c s, exec_readRequest_congr (tile .half) c s, wrb,
    exec_writeRequest_congr (tile .half) c h s⟩

/-- Settles O29: a halfword access acts on the address with bit 0 cleared. -/
theorem halfwordIgnoresAddressBit0 : Obligations.HalfwordIgnoresAddressBit0 := by
  unfold Obligations.HalfwordIgnoresAddressBit0
  exact fun s c A h => ⟨exec_readRequest_congr (busAddr_half_or_one A) c s,
    exec_writeRequest_congr (busAddr_half_or_one A) c h s⟩

/-! ## An admitted access -/

/-- R103, R104: a ready block runs a read. -/
theorem exec_readRequest {s : State} {c : Word} (hs : s.Ready) (hc : 0 ≤ c.toInt) (n : Width) (A : Word) :
    exec (readRequest n c A) s = .next (busRead A n c.toInt s) := by
  cases n with
  | byte => exact exec_rdb c A s (admission_ready hs (by rintro _ ⟨⟩; exact hc) rfl)
  | half => exact exec_rdh c A s (admission_ready hs (by rintro _ ⟨⟩; exact hc) rfl)

/-- R105, R106: a ready block runs a write, of the low bits of the value. -/
theorem exec_writeRequest {s : State} {c : Word} (hs : s.Ready) (hc : 0 ≤ c.toInt) (n : Width) (A : Word) (v : Half) :
    exec (writeRequest n c A v) s = .next (busWrite A n (n.low v) c.toInt s) := by
  cases n with
  | byte => exact exec_wrb c A _ s (admission_ready hs (by rintro _ ⟨⟩; exact hc) rfl)
  | half => exact exec_wrh c A v s (admission_ready hs (by rintro _ ⟨⟩; exact hc) rfl)

theorem SameInterface.refl (s : State) : SameInterface s s := ⟨rfl, rfl, rfl, rfl, rfl, rfl, rfl, rfl⟩

/-! ## The two writable buffers -/

/-- R23, R25: the buffer of a region. -/
def State.region (s : State) (r : Region) : Memory :=
  match r with
  | .wram => s.wram
  | .cram => s.ram

/-- R23, R25: replace the buffer of a region. -/
def setRegion (r : Region) (m : Memory) (s : State) : State :=
  match r with
  | .wram => setWram m s
  | .cram => setRam m s

/-- R53: the segment of a region. -/
def regionSegment (r : Region) : Nat :=
  match r with
  | .wram => 5
  | .cram => 6

/-- R101, R102: an access of a width at an address is one to a region that is present. -/
def Reaches (n : Width) (A : Word) (r : Region) (s : State) : Prop :=
  accessAddr n A / 2 ^ 24 = regionSegment r ∧ regionLength r s ≠ 0

/-- R120, R25: the index in a region that an access acts on. -/
def regionIndex (n : Width) (A : Word) (r : Region) (s : State) : Nat := accessAddr n A % regionLength r s

/-- R120, R122: what a read of a region answers. -/
def loadRegion (n : Width) (A : Word) (r : Region) (s : State) : Half :=
  bufRead (Memory.read (s.region r)) (regionIndex n A r s) n

/-- R121, R123: what a write of a region leaves. -/
def storeRegion (n : Width) (A : Word) (r : Region) (v : Half) (s : State) : State :=
  setRegion r (bufWrite (s.region r) (regionIndex n A r s) n v) s

theorem memRead_of_reaches {n : Width} {A : Word} {r : Region} {s : State} (h : Reaches n A r s) (c : Int) :
    memRead A n c s = ⟨loadRegion n A r s, false, s⟩ := by
  obtain ⟨hseg, hlen⟩ := h
  rw [memRead_at]
  cases r with
  | wram =>
    simp only [regionSegment, Nat.reducePow] at hseg
    simp only [hseg, loadRegion, regionIndex, wramIndex_eq, busAddr_toNat]
    rfl
  | cram =>
    have hram : s.cfg.ramSize ≠ 0 := hlen
    simp only [regionSegment, Nat.reducePow] at hseg
    simp only [hseg, cartRamRead, if_neg hram, loadRegion, regionIndex, maskIndex_ram hram, busAddr_toNat]
    rfl

theorem memWrite_of_reaches {n : Width} {A : Word} {r : Region} {s : State} (h : Reaches n A r s) (v : Half) (c : Int) :
    memWrite A n v c s = ⟨false, storeRegion n A r v s⟩ := by
  obtain ⟨hseg, hlen⟩ := h
  rw [memWrite_at]
  cases r with
  | wram =>
    simp only [regionSegment, Nat.reducePow] at hseg
    simp only [hseg, storeRegion, regionIndex, wramIndex_eq, busAddr_toNat]
    rfl
  | cram =>
    have hram : s.cfg.ramSize ≠ 0 := hlen
    simp only [regionSegment, Nat.reducePow] at hseg
    simp only [hseg, cartRamWrite, if_neg hram, storeRegion, regionIndex, maskIndex_ram hram, busAddr_toNat]
    rfl

theorem reaches_wram_iff {n : Width} {A : Word} {s : State} :
    Reaches n A .wram s ↔ accessAddr n A / 2 ^ 24 = 5 := by
  simp [Reaches, regionSegment, regionLength]

theorem reaches_cram_iff {n : Width} {A : Word} {s : State} :
    Reaches n A .cram s ↔ accessAddr n A / 2 ^ 24 = 6 ∧ s.cfg.ramSize ≠ 0 := Iff.rfl

theorem exists_reaches_iff {n : Width} {A : Word} {s : State} :
    (∃ r, Reaches n A r s) ↔ accessAddr n A / 2 ^ 24 = 5 ∨ accessAddr n A / 2 ^ 24 = 6 ∧ s.cfg.ramSize ≠ 0 := by
  rw [← reaches_wram_iff (s := s), ← reaches_cram_iff]
  exact ⟨fun | ⟨.wram, h⟩ => .inl h | ⟨.cram, h⟩ => .inr h, fun | .inl h => ⟨_, h⟩ | .inr h => ⟨_, h⟩⟩

theorem region_wf {s : State} (hi : s.Inv) (r : Region) : Memory.wf (s.region r) := by
  cases r with
  | wram => exact hi.wram.1
  | cram => exact hi.ram.1

@[simp] theorem setRegion_region_same (r : Region) (m : Memory) (s : State) : (setRegion r m s).region r = m := by
  cases r <;> rfl

theorem setRegion_region_other {r r' : Region} (h : r ≠ r') (m : Memory) (s : State) :
    (setRegion r m s).region r' = s.region r' := by
  cases r with
  | wram => cases r' with
    | wram => exact absurd rfl h
    | cram => rfl
  | cram => cases r' with
    | wram => rfl
    | cram => exact absurd rfl h

theorem storeRegion_frame (n : Width) (A : Word) (r : Region) (v : Half) (s : State) :
    SameInterface s (storeRegion n A r v s) ∧ (storeRegion n A r v s).toBlock =
      { s.toBlock with wram := (storeRegion n A r v s).wram, ram := (storeRegion n A r v s).ram } := by
  cases r <;> exact ⟨SameInterface.refl s, rfl⟩

/-! ## Accesses that reach no region -/

/-- R110, R118: Audio and the unused segments read as zero. -/
theorem memRead_of_empty {n : Width} {A : Word}
    (h : accessAddr n A / 2 ^ 24 = 1 ∨ accessAddr n A / 2 ^ 24 = 3 ∨ accessAddr n A / 2 ^ 24 = 4) (c : Int) (s : State) :
    memRead A n c s = ⟨0, false, s⟩ := by
  simp only [Nat.reducePow] at h
  rw [memRead_at]
  rcases h with h | h | h <;> simp only [h]

/-- R122: an absent CartRAM reads as zero, and the access is unmapped. -/
theorem memRead_of_noRam {n : Width} {A : Word} {s : State} (h : accessAddr n A / 2 ^ 24 = 6 ∧ s.cfg.ramSize = 0)
    (c : Int) : memRead A n c s = ⟨0, true, logUnmapped .read (busAddr n A) s⟩ := by
  simp only [Nat.reducePow] at h
  obtain ⟨hseg, hram⟩ := h
  simp only [memRead_at, hseg, cartRamRead, if_pos hram]

/-- R124: CartROM reads the image, mirrored. -/
theorem memRead_of_rom {n : Width} {A : Word} {s : State} (h : accessAddr n A / 2 ^ 24 = 7) (hl : s.loaded = true)
    (hi : s.Inv) (c : Int) :
    memRead A n c s = ⟨bufRead s.rom.read (accessAddr n A % max s.rom.len 65536) n, false, s⟩ := by
  simp only [Nat.reducePow] at h
  simp only [memRead_at, h, maskIndex_rom hl hi, busAddr_toNat]

/-- R102, R118, R125: a write of an unused segment or of CartROM does nothing. -/
theorem memWrite_of_ignored {n : Width} {A : Word}
    (h : accessAddr n A / 2 ^ 24 = 3 ∨ accessAddr n A / 2 ^ 24 = 4 ∨ accessAddr n A / 2 ^ 24 = 7) (v : Half) (c : Int)
    (s : State) : memWrite A n v c s = ⟨false, s⟩ := by
  simp only [Nat.reducePow] at h
  rw [memWrite_at]
  rcases h with h | h | h <;> simp only [h]

/-- R123: a write of an absent CartRAM is unmapped. -/
theorem memWrite_of_noRam {n : Width} {A : Word} {s : State} (h : accessAddr n A / 2 ^ 24 = 6 ∧ s.cfg.ramSize = 0)
    (v : Half) (c : Int) : memWrite A n v c s = ⟨true, logUnmapped .write (busAddr n A) s⟩ := by
  simp only [Nat.reducePow] at h
  obtain ⟨hseg, hram⟩ := h
  simp only [memWrite_at, hseg, cartRamWrite, if_pos hram]

/-- R204: an unmapped access leaves the block and its interface alone. -/
theorem logUnmapped_sameInterface (dir : Dir) (a : Addr) (s : State) : SameInterface s (logUnmapped dir a s) :=
  SameInterface.refl s

theorem segment_le (n : Width) (A : Word) : accessAddr n A / 2 ^ 24 ≤ 7 := by
  have := accessAddr_lt n A
  omega

/-! ## Reads outside Video and HWControl -/

/-- R101: everything a read outside Video and HWControl can do: an absent CartRAM, or a plain value. -/
theorem memRead_memory_cases {n : Width} {A : Word} {s : State} (h0 : accessAddr n A / 2 ^ 24 ≠ 0)
    (h2 : accessAddr n A / 2 ^ 24 ≠ 2) (hl : s.loaded = true) (hi : s.Inv) (c : Int) :
    ((accessAddr n A / 2 ^ 24 = 6 ∧ s.cfg.ramSize = 0) ∧
      memRead A n c s = ⟨0, true, logUnmapped .read (busAddr n A) s⟩) ∨
    (¬ (accessAddr n A / 2 ^ 24 = 6 ∧ s.cfg.ramSize = 0) ∧ ∃ v, memRead A n c s = ⟨v, false, s⟩) := by
  by_cases habsent : accessAddr n A / 2 ^ 24 = 6 ∧ s.cfg.ramSize = 0
  · exact .inl ⟨habsent, memRead_of_noRam habsent c⟩
  · have segments : (accessAddr n A / 2 ^ 24 = 1 ∨ accessAddr n A / 2 ^ 24 = 3 ∨ accessAddr n A / 2 ^ 24 = 4) ∨
        (∃ r, Reaches n A r s) ∨ accessAddr n A / 2 ^ 24 = 7 := by
      have := segment_le n A
      rw [exists_reaches_iff]
      omega
    refine .inr ⟨habsent, ?_⟩
    rcases segments with h | ⟨r, h⟩ | h
    · exact ⟨_, memRead_of_empty h c s⟩
    · exact ⟨_, memRead_of_reaches h c⟩
    · exact ⟨_, memRead_of_rom h hl hi c⟩

/-- R103, R104, R204: such a read changes nothing but the response and the log, and is unmapped for an absent CartRAM
only. -/
theorem memRead_memory_frame {n : Width} {A : Word} {s : State} (h0 : accessAddr n A / 2 ^ 24 ≠ 0)
    (h2 : accessAddr n A / 2 ^ 24 ≠ 2) (hl : s.loaded = true) (hi : s.Inv) (c : Int) :
    (memRead A n c s).after.toBlock = s.toBlock ∧ SameInterface s (memRead A n c s).after ∧
      ((memRead A n c s).ua = true ↔ accessAddr n A / 2 ^ 24 = 6 ∧ s.cfg.ramSize = 0) := by
  rcases memRead_memory_cases h0 h2 hl hi c with ⟨habsent, hm⟩ | ⟨hpresent, v, hm⟩ <;> rw [hm]
  · exact ⟨rfl, logUnmapped_sameInterface _ _ s, iff_of_true rfl habsent⟩
  · exact ⟨rfl, SameInterface.refl s, iff_of_false Bool.false_ne_true hpresent⟩

/-- Settles O20: the frame of a read, and the value of each segment. -/
theorem rdhReadsMemory : Obligations.RdhReadsMemory := by
  unfold Obligations.RdhReadsMemory
  intro s c A hs hi hc n seg h0 h2
  obtain ⟨hblock, hface, hua⟩ := memRead_memory_frame (n := .half) (A := A) h0 h2 hs.1 hi c.toInt
  refine ⟨_, _, _, exec_readRequest hs hc .half A, hblock, hface, rfl, hua, fun h => ?_, fun h => ?_, fun h hram => ?_,
    fun h hram => ?_, fun h => ?_⟩
  · rw [memRead_of_empty (n := .half) (A := A) h]; rfl
  · rw [memRead_of_reaches (n := .half) (A := A) (reaches_wram_iff.2 h)]
    exact bufRead_half_toNat _ _
  · rw [memRead_of_noRam (n := .half) (A := A) ⟨h, hram⟩]; rfl
  · rw [memRead_of_reaches (n := .half) (A := A) (reaches_cram_iff.2 ⟨h, hram⟩)]
    exact bufRead_half_toNat _ _
  · rw [memRead_of_rom (n := .half) (A := A) h hs.1 hi]
    exact bufRead_half_toNat _ _

/-! ## Writes outside Video, Audio and HWControl -/

/-- R102: everything a write outside Video, Audio and HWControl can do: an absent CartRAM, a store, or nothing. -/
theorem memWrite_memory_cases {n : Width} {A : Word} (h3 : 3 ≤ accessAddr n A / 2 ^ 24) (v : Half) (c : Int)
    (s : State) :
    ((accessAddr n A / 2 ^ 24 = 6 ∧ s.cfg.ramSize = 0) ∧ (∀ r, ¬ Reaches n A r s) ∧
      memWrite A n v c s = ⟨true, logUnmapped .write (busAddr n A) s⟩) ∨
    (¬ (accessAddr n A / 2 ^ 24 = 6 ∧ s.cfg.ramSize = 0) ∧
      ((∃ r, Reaches n A r s ∧ memWrite A n v c s = ⟨false, storeRegion n A r v s⟩) ∨
        (∀ r, ¬ Reaches n A r s) ∧ memWrite A n v c s = ⟨false, s⟩)) := by
  by_cases habsent : accessAddr n A / 2 ^ 24 = 6 ∧ s.cfg.ramSize = 0
  · refine .inl ⟨habsent, not_exists.1 fun h => ?_, memWrite_of_noRam habsent v c⟩
    rw [exists_reaches_iff] at h
    omega
  · refine .inr ⟨habsent, ?_⟩
    by_cases hreach : ∃ r, Reaches n A r s
    · obtain ⟨r, h⟩ := hreach
      exact .inl ⟨r, h, memWrite_of_reaches h v c⟩
    · refine .inr ⟨not_exists.1 hreach, memWrite_of_ignored ?_ v c s⟩
      have := segment_le n A
      rw [exists_reaches_iff] at hreach
      omega

/-- R105, R106, R204: such a write changes no field but the two buffers, the response and the log, and is unmapped for an
absent CartRAM only. -/
theorem memWrite_memory_frame {n : Width} {A : Word} (h3 : 3 ≤ accessAddr n A / 2 ^ 24) (v : Half) (c : Int)
    (s : State) :
    SameInterface s (memWrite A n v c s).after ∧
      (memWrite A n v c s).after.toBlock =
        { s.toBlock with wram := (memWrite A n v c s).after.wram, ram := (memWrite A n v c s).after.ram } ∧
      (memWrite A n v c s).ua = decide (accessAddr n A / 2 ^ 24 = 6 ∧ s.cfg.ramSize = 0) := by
  rcases memWrite_memory_cases h3 v c s with ⟨habsent, -, hm⟩ | ⟨hpresent, ⟨r, -, hm⟩ | ⟨-, hm⟩⟩ <;> rw [hm]
  · exact ⟨logUnmapped_sameInterface _ _ s, rfl, (decide_eq_true habsent).symm⟩
  · obtain ⟨hface, hblock⟩ := storeRegion_frame n A r v s
    exact ⟨hface, hblock, (decide_eq_false hpresent).symm⟩
  · exact ⟨SameInterface.refl s, rfl, (decide_eq_false hpresent).symm⟩

/-- A write that does not reach a region leaves it as it was. -/
theorem memWrite_region_of_not_reaches {n : Width} {A : Word} {r : Region} {s : State}
    (h3 : 3 ≤ accessAddr n A / 2 ^ 24) (hr : ¬ Reaches n A r s) (v : Half) (c : Int) :
    (memWrite A n v c s).after.region r = s.region r := by
  rcases memWrite_memory_cases h3 v c s with ⟨-, -, hm⟩ | ⟨-, ⟨r', hr', hm⟩ | ⟨-, hm⟩⟩ <;> rw [hm]
  · cases r <;> rfl
  · exact setRegion_region_other (fun e : r' = r => hr (e ▸ hr')) _ s

/-- R121, R123: every byte of a region after such a write; `P` says that the write reaches it. -/
theorem read_region_memWrite {n : Width} {A : Word} {r : Region} {s : State} {P : Prop} [Decidable P] (hi : s.Inv)
    (h3 : 3 ≤ accessAddr n A / 2 ^ 24) (hP : Reaches n A r s ↔ P) (v : Half) (c : Int) (i : Nat) :
    Memory.read ((memWrite A n v c s).after.region r) i =
      if P ∧ i = regionIndex n A r s then BitVec.ofNat 8 v.toNat
      else if P ∧ n = .half ∧ i = regionIndex n A r s + 1 then BitVec.ofNat 8 (v.toNat / 256)
      else Memory.read (s.region r) i := by
  by_cases hreach : P
  · rw [memWrite_of_reaches (hP.2 hreach), storeRegion, setRegion_region_same, read_bufWrite (region_wf hi r)]
    simp only [hreach, true_and, extractLsb'_0_8_eq_ofNat, extractLsb'_8_8_eq_ofNat]
  · simp only [memWrite_region_of_not_reaches h3 (mt hP.1 hreach), hreach, false_and, if_false]

/-- Settles O22: the frame of a write, and the bytes of each buffer. -/
theorem wrhStoresTwoBytes : Obligations.WrhStoresTwoBytes := by
  unfold Obligations.WrhStoresTwoBytes
  intro s c A d hs hi hc n seg h3
  obtain ⟨hface, hblock, hua⟩ := memWrite_memory_frame (n := .half) (A := A) h3 d c.toInt s
  have wram := read_region_memWrite (n := .half) (A := A) hi h3 reaches_wram_iff d c.toInt
  have ram := read_region_memWrite (n := .half) (A := A) hi h3 reaches_cram_iff d c.toInt
  simp only [true_and, and_assoc] at wram ram
  exact ⟨_, exec_writeRequest hs hc .half A d, hface, hblock, congrArg (fun b => some (okValue b 0)) hua, wram, ram⟩

/-! ## A read after a write -/

/-- R103, R104: a read of a region only answers. -/
theorem exec_readRequest_of_reaches {n : Width} {c A : Word} {r : Region} {s : State} (hs : s.Ready)
    (hc : 0 ≤ c.toInt) (h : Reaches n A r s) :
    exec (readRequest n c A) s = .next (respond (okValue false ((loadRegion n A r s).setWidth 32)) s) := by
  rw [exec_readRequest hs hc, busRead, memRead_of_reaches h]

/-- R105, R106: what a write of a region leaves, answered. -/
def written (n : Width) (A : Word) (r : Region) (v : Half) (s : State) : State :=
  respond (okValue false 0) (storeRegion n A r (n.low v) s)

theorem exec_writeRequest_of_reaches {n : Width} {c A : Word} {r : Region} {s : State} (hs : s.Ready)
    (hc : 0 ≤ c.toInt) (h : Reaches n A r s) (v : Half) :
    exec (writeRequest n c A v) s = .next (written n A r v s) := by
  rw [exec_writeRequest hs hc, busWrite, memWrite_of_reaches h, written]

theorem written_ready {s : State} (h : s.Ready) (n : Width) (A : Word) (r : Region) (v : Half) :
    (written n A r v s).Ready := by
  cases r <;> exact h

theorem written_inv {n : Width} {A : Word} {r : Region} {s : State} (hi : s.Inv) (h : Reaches n A r s) (v : Half) :
    (written n A r v s).Inv := by
  have hstore := memWrite_inv hi A n (n.low v) 0
  rw [memWrite_of_reaches h] at hstore
  exact respond_inv hstore _

theorem written_region (n : Width) (A : Word) (r : Region) (v : Half) (s : State) :
    (written n A r v s).region r = bufWrite (s.region r) (regionIndex n A r s) n (n.low v) := by
  cases r <;> rfl

@[simp] theorem regionLength_written (n : Width) (A : Word) (r r' : Region) (v : Half) (s : State) :
    regionLength r' (written n A r v s) = regionLength r' s := by
  cases r <;> cases r' <;> rfl

theorem reaches_written {n k : Width} {A B : Word} {r r' : Region} {v : Half} {s : State} :
    Reaches n A r (written k B r' v s) ↔ Reaches n A r s := by
  simp only [Reaches, regionLength_written]

@[simp] theorem regionIndex_written (n k : Width) (A B : Word) (r r' : Region) (v : Half) (s : State) :
    regionIndex n A r (written k B r' v s) = regionIndex n A r s := by
  simp only [regionIndex, regionLength_written]

theorem loadRegion_written {s : State} (hi : s.Inv) (n : Width) (A : Word) (r : Region) (v : Half) :
    loadRegion n A r (written n A r v s) = n.low v := by
  rw [loadRegion, written_region, regionIndex_written, bufRead_bufWrite (region_wf hi r), low_low]

theorem loadRegion_written_of_disjoint {s : State} (hi : s.Inv) {n k : Width} {A B : Word} {r : Region} (v : Half)
    (hd : regionIndex n A r s + n.bytes ≤ regionIndex k B r s ∨ regionIndex k B r s + k.bytes ≤ regionIndex n A r s) :
    loadRegion n A r (written k B r v s) = loadRegion n A r s := by
  rw [loadRegion, written_region, regionIndex_written, bufRead_bufWrite_of_disjoint (region_wf hi r) _ hd, loadRegion]

/-- Settles O30: the region reached holds the low bits of the value, and gives them back. -/
theorem readAfterWriteInBuffers : Obligations.ReadAfterWriteInBuffers := by
  unfold Obligations.ReadAfterWriteInBuffers
  intro s n c c' A v hs hi hc hc' h
  obtain ⟨r, hr⟩ := exists_reaches_iff.2 h
  refine ⟨_, _, exec_writeRequest_of_reaches hs hc hr v,
    exec_readRequest_of_reaches (written_ready hs n A r v) hc' (reaches_written.2 hr), ?_⟩
  rw [loadRegion_written hi, low_setWidth_32]
  rfl

/-! ## The 32-bit pseudo-operations -/

/-- R92: the two halves of a word, each answered zero-extended, make the word. -/
theorem rdwValue_halves (d : Word) :
    rdwValue ((d.extractLsb' 0 16).setWidth 32) ((d.extractLsb' 16 16).setWidth 32) = d := by
  rw [rdwValue, BitVec.extractLsb'_setWidth_of_le (by omega), BitVec.extractLsb'_setWidth_of_le (by omega),
    BitVec.extractLsb'_eq_self, BitVec.extractLsb'_eq_self,
    BitVec.extractLsb'_append_extractLsb'_eq_extractLsb' (by omega), BitVec.extractLsb'_eq_self]

/-- A region with room for a word has a multiple of 4 bytes. -/
theorem four_dvd_regionLength {r : Region} {s : State} (h : 4 ≤ regionLength r s) : 4 ∣ regionLength r s := by
  cases r with
  | wram => exact ⟨16384, rfl⟩
  | cram =>
    change 4 ≤ s.cfg.ramSize at h
    change 4 ∣ s.cfg.ramSize
    rcases s.cfg.ramSize_pow with h0 | ⟨k, -, -, hk⟩
    · omega
    · have hk2 : 2 ≤ k := by
        by_contra hlt
        have : 2 ^ k ≤ 2 ^ 1 := Nat.pow_le_pow_right (by omega) (by omega)
        omega
      exact hk ▸ pow_dvd_pow 2 hk2

theorem execAll_pair {i j : Instr} {s t u : State} (hi : exec i s = .next t) (hj : exec j t = .next u) :
    execAll [i, j] s = .next u := by
  simp only [execAll, hi, hj]

theorem reaches_respond {n : Width} {A : Word} {r : Region} {q : Response} {s : State} :
    Reaches n A r (respond q s) ↔ Reaches n A r s := by
  cases r <;> exact Iff.rfl

theorem loadRegion_respond (n : Width) (A : Word) (r : Region) (q : Response) (s : State) :
    loadRegion n A r (respond q s) = loadRegion n A r s := by
  cases r <;> rfl

theorem accessAddr_half_of_aligned {A : Word} (hA : A.toNat % 4 = 0) :
    accessAddr .half A = A.toNat % 2 ^ 27 ∧ accessAddr .half (A + 2) = A.toNat % 2 ^ 27 + 2 := by
  have h2 : (A + 2).toNat = A.toNat + 2 := by
    have := A.isLt
    rw [BitVec.toNat_add, show (2 : Word).toNat = 2 from rfl]
    omega
  simp only [accessAddr, h2]
  omega

/-- R57: the second halfword of an aligned word is the next one of the same region. -/
theorem reaches_second_half {A : Word} {r : Region} {s : State} (hA : A.toNat % 4 = 0) (hlen : 4 ≤ regionLength r s)
    (h : Reaches .half A r s) :
    Reaches .half (A + 2) r s ∧ regionIndex .half (A + 2) r s = regionIndex .half A r s + 2 := by
  obtain ⟨h1, h2⟩ := accessAddr_half_of_aligned hA
  obtain ⟨hseg, hne⟩ := h
  obtain ⟨k, hk⟩ := four_dvd_regionLength hlen
  refine ⟨⟨?_, hne⟩, ?_⟩
  · rw [h2, ← hseg, h1]
    omega
  · have h4 : A.toNat % 2 ^ 27 % regionLength r s % 4 = 0 := by
      rw [hk, Nat.mod_mul_right_mod]
      omega
    have hlt := Nat.mod_lt (A.toNat % 2 ^ 27) (Nat.pos_of_ne_zero hne)
    rw [regionIndex, regionIndex, h1, h2, Nat.add_mod, Nat.mod_eq_of_lt (a := 2) (by omega), Nat.mod_eq_of_lt (by omega)]

/-- R92: what `wrw` leaves: the low half at its address, then the high half at the next. -/
def wordWritten (A : Word) (r : Region) (d : Word) (s : State) : State :=
  written .half (A + 2) r (d.extractLsb' 16 16) (written .half A r (d.extractLsb' 0 16) s)

theorem wordWritten_ready {s : State} (h : s.Ready) (A : Word) (r : Region) (d : Word) : (wordWritten A r d s).Ready :=
  written_ready (written_ready h ..) ..

theorem reaches_wordWritten {n : Width} {A B : Word} {r r' : Region} {d : Word} {s : State} :
    Reaches n A r (wordWritten B r' d s) ↔ Reaches n A r s :=
  reaches_written.trans reaches_written

theorem execAll_wrw {c A : Word} {r : Region} {s : State} (hs : s.Ready) (hc : 0 ≤ c.toInt) (hlo : Reaches .half A r s)
    (hhi : Reaches .half (A + 2) r s) (d : Word) : execAll (expand (.wrw c A d)) s = .next (wordWritten A r d s) :=
  execAll_pair (exec_writeRequest_of_reaches hs hc hlo _)
    (exec_writeRequest_of_reaches (written_ready hs ..) hc (reaches_written.2 hhi) _)

/-- The second store is beside the first half, so both halves are there. -/
theorem loadRegion_wordWritten {A : Word} {r : Region} {s : State} (hi : s.Inv) (hlo : Reaches .half A r s)
    (hnext : regionIndex .half (A + 2) r s = regionIndex .half A r s + 2) (d : Word) :
    loadRegion .half A r (wordWritten A r d s) = d.extractLsb' 0 16 ∧
      loadRegion .half (A + 2) r (wordWritten A r d s) = d.extractLsb' 16 16 := by
  have hi1 : (written .half A r (d.extractLsb' 0 16) s).Inv := written_inv hi hlo _
  refine ⟨?_, loadRegion_written hi1 ..⟩
  calc
    _ = loadRegion .half A r (written .half A r (d.extractLsb' 0 16) s) :=
      loadRegion_written_of_disjoint hi1 _ (.inl (by rw [regionIndex_written, regionIndex_written, hnext]; rfl))
    _ = _ := loadRegion_written hi ..

/-- Settles O31: both halves are stored, and the first read leaves the second half to read. -/
theorem wordWriteThenWordRead : Obligations.WordWriteThenWordRead := by
  unfold Obligations.WordWriteThenWordRead
  intro s c c' A d hs hi hc hc' hA h
  obtain ⟨r, hlo, hlen⟩ : ∃ r, Reaches .half A r s ∧ 4 ≤ regionLength r s := by
    rw [← (accessAddr_half_of_aligned hA).1] at h
    rcases h with h | ⟨h, h4⟩
    · exact ⟨.wram, reaches_wram_iff.2 h, by simp [regionLength]⟩
    · exact ⟨.cram, reaches_cram_iff.2 ⟨h, by omega⟩, h4⟩
  obtain ⟨hhi, hnext⟩ := reaches_second_half hA hlen hlo
  obtain ⟨loadLo, loadHi⟩ := loadRegion_wordWritten hi hlo hnext d
  have ready := wordWritten_ready hs A r d
  have readLo := exec_readRequest_of_reaches ready hc' (reaches_wordWritten.2 hlo)
  have readHi := fun q => exec_readRequest_of_reaches (s := respond q (wordWritten A r d s)) ready hc'
    (reaches_respond.2 (reaches_wordWritten.2 hhi))
  simp only [loadRegion_respond, loadLo, loadHi] at readLo readHi
  exact ⟨_, _, _, _, _, execAll_wrw hs hc hlo hhi d, readLo, rfl, readHi _, rfl, execAll_pair readLo (readHi _),
    rdwValue_halves d⟩

end Sys2Proof.Machine

/-! PROOFS. The encoding statements (30_encoding.md): the operand fields of each opcode, the round trip, the reserved
opcodes, the admission tests in their order, and the response word. -/

namespace Sys2Proof

/-! ## Request words -/

/-- Settles O1: each word of the table is decoded. -/
theorem specWordsDecode : Obligations.SpecWordsDecode := by
  unfold Obligations.SpecWordsDecode
  exact ⟨by decide, by decide, by decide, by decide, by decide, by decide, by decide, by decide, by decide, by decide⟩

/-- R81, R86: the decoder undoes the encoder, on the operations with a reserved operand as well: it is admission that
refuses those (R87 test 5). -/
theorem decode_encode (i : Instr) : decode (encode i) = .ok i := by
  cases i with
  | wrb c a d =>
    refine (decode_pack _ c a _).trans ?_
    rw [low_byte]
    rfl
  | wrh c a d =>
    refine (decode_pack _ c a _).trans ?_
    rw [low_half]
    rfl
  | setev cls T =>
    obtain ⟨hcls, htag⟩ := setev_class_bits T.tag cls
    refine (decode_pack _ 0 _ T.bits).trans ?_
    rw [hcls, htag, timeOfWire_tag_bits]
    rfl
  | irqa src on =>
    refine (decode_pack _ 0 _ _).trans ?_
    rw [irqa_source_bits, low_bit]
    rfl
  | expt r =>
    refine (decode_pack _ 0 _ 0).trans ?_
    rw [low_bit, regionOfWire_bit]
    rfl
  | rdb | rdh | nextb | step | fupd | rebase | fixne | frend | acarry | pwr | ldimg | svsz | save | rstr =>
    exact decode_pack _ _ _ _

/-- Settles O2: the decoder undoes the encoder. -/
theorem decodeEncodeRoundTrip : Obligations.DecodeEncodeRoundTrip := by
  unfold Obligations.DecodeEncodeRoundTrip
  exact fun i _ => decode_encode i

/-! The bits of an operand as arithmetic on the field. -/

theorem extractLsb'_zero_eq_ofNat {n k : Nat} (h : k ≤ n) (x : BitVec n) :
    x.extractLsb' 0 k = BitVec.ofNat k x.toNat := by
  rw [BitVec.ofNat_toNat, BitVec.setWidth_eq_extractLsb' h]

theorem getLsbD_eq_decide {n : Nat} (x : BitVec n) (k : Nat) : x.getLsbD k = decide (x.toNat / 2 ^ k % 2 = 1) :=
  Nat.testBit_eq_decide_div_mod_eq

theorem timeOfWire_decide (p : Prop) [Decidable p] (t : Word) :
    timeOfWire (decide p) t = if p then .none else .fin t := by
  simp [timeOfWire]

theorem regionOfWire_decide (p : Prop) [Decidable p] : regionOfWire (decide p) = if p then .cram else .wram := by
  simp [regionOfWire]

/-- Settles O3: the decoder's table at each of the nineteen opcodes, its operand bits as arithmetic. -/
theorem operandFieldsOfEachOpcode : Obligations.OperandFieldsOfEachOpcode := by
  unfold Obligations.OperandFieldsOfEachOpcode
  intro c a d
  refine ⟨decode_pack 0x00 c a d, decode_pack 0x01 c a d, ?wrb, ?wrh, ?setev, decode_pack 0x11 c a d,
    decode_pack 0x12 c a d, decode_pack 0x13 c a d, decode_pack 0x14 c a d, decode_pack 0x15 c a d,
    decode_pack 0x16 c a d, decode_pack 0x17 c a d, ?irqa, decode_pack 0x30 c a d, decode_pack 0x31 c a d,
    decode_pack 0x32 c a d, decode_pack 0x33 c a d, decode_pack 0x34 c a d, ?expt⟩
  case wrb => rw [← extractLsb'_zero_eq_ofNat (by omega) d]; exact decode_pack 0x02 c a d
  case wrh => rw [← extractLsb'_zero_eq_ofNat (by omega) d]; exact decode_pack 0x03 c a d
  case setev =>
    have none : a.getLsbD 2 = decide (a.toNat / 4 % 2 = 1) := getLsbD_eq_decide a 2
    rw [← extractLsb'_zero_eq_ofNat (by omega) a, ← timeOfWire_decide, ← none]
    exact decode_pack 0x10 c a d
  case irqa =>
    have on : d.getLsbD 0 = decide (d.toNat % 2 = 1) := by simpa using getLsbD_eq_decide d 0
    rw [← extractLsb'_zero_eq_ofNat (by omega) a, ← on]
    exact decode_pack 0x20 c a d
  case expt =>
    have cram : a.getLsbD 0 = decide (a.toNat % 2 = 1) := by simpa using getLsbD_eq_decide a 0
    rw [← regionOfWire_decide, ← cram]
    exact decode_pack 0x35 c a d

/-! ## Reserved opcodes -/

/-- R88: the only way a word is no operation. -/
theorem decode_error {w : Request} {e : DecodeError} (h : decode w = .error e) : e = .reservedOpcode (fieldOp w) := by
  unfold decode at h
  dsimp only at h
  split at h <;> cases h
  rfl

/-- R80, R88: the nineteen opcodes and the ranges between and above them share out the byte. -/
theorem reserved_opcode_iff {op : Nat} (h : op < 256) :
    op ∉ [0x00, 0x01, 0x02, 0x03, 0x10, 0x11, 0x12, 0x13, 0x14, 0x15, 0x16, 0x17, 0x20, 0x30, 0x31, 0x32, 0x33, 0x34,
        0x35] ↔
      (0x04 ≤ op ∧ op ≤ 0x0F) ∨ (0x18 ≤ op ∧ op ≤ 0x1F) ∨ (0x21 ≤ op ∧ op ≤ 0x2F) ∨ (0x36 ≤ op ∧ op ≤ 0xFF) := by
  simp only [List.mem_cons, List.not_mem_nil, or_false]
  omega

end Sys2Proof

namespace Sys2Proof.Machine

/-- R87 test (1): a reserved opcode is refused before the state is looked at. -/
theorem step_of_reserved_opcode {s : State} {w : Request} {rest : List Request} {op : BitVec 8}
    (hr : s.requests = w :: rest) (hd : decode w = .error (.reservedOpcode op)) :
    step s = .refused (.reservedOpcode op) := by
  simp [step, hr, hd]

/-- Settles O4: the decoder rejects exactly the reserved ranges, and names the byte. -/
theorem reservedOpcodesRefused : Obligations.ReservedOpcodesRefused := by
  unfold Obligations.ReservedOpcodesRefused
  intro w s rest hr
  dsimp only
  rw [← fieldOp_toNat w, BitVec.ofNat_toNat, BitVec.setWidth_eq]
  have reserved := (decode_error_iff w).trans (reserved_opcode_iff (fieldOp w).isLt)
  split
  case isTrue h =>
    obtain ⟨e, he⟩ := reserved.2 h
    exact step_of_reserved_opcode hr (decode_error he ▸ he)
  case isFalse h =>
    cases hd : decode w with
    | error e => exact absurd (reserved.1 ⟨e, hd⟩) h
    | ok i => exact ⟨i, rfl, step_of_request hr hd⟩

/-! ## Admission -/

/-- R87 test (2) fails. -/
def FailsLoaded (i : Instr) (s : State) : Prop := s.loaded = false ∧ ∀ len, i ≠ .ldimg len

/-- R87 test (3) fails. -/
def FailsHalted (i : Instr) (s : State) : Prop :=
  s.halted = true ∧ i ≠ .pwr ∧ (∀ len, i ≠ .ldimg len) ∧ ∀ r, i ≠ .expt r

/-- R87 test (4) fails. -/
def FailsCycle (i : Instr) : Prop := ∃ c, i.cycle = some c ∧ c.toInt < 0

/-- R87 test (5) fails. -/
def FailsOperand (i : Instr) : Prop := (∃ T, i = .setev 3 T) ∨ ∃ src on, i = .irqa src on ∧ 5 ≤ src.toNat

theorem failsLoaded_iff (i : Instr) (s : State) : (!s.loaded && !i.allowedUnloaded) = true ↔ FailsLoaded i s := by
  cases i <;> simp [FailsLoaded, Instr.allowedUnloaded]

theorem failsHalted_iff (i : Instr) (s : State) : (s.halted && !i.allowedHalted) = true ↔ FailsHalted i s := by
  cases i <;> simp [FailsHalted, Instr.allowedHalted]

theorem failsCycle_iff (i : Instr) : negativeCycle i.cycle = true ↔ FailsCycle i := by
  unfold FailsCycle
  cases i.cycle <;> simp [negativeCycle]

theorem failsOperand_iff (i : Instr) : (!i.wellFormed) = true ↔ FailsOperand i := by
  cases i <;> simp [FailsOperand, Instr.wellFormed, classOk, sourceOk]

open Classical in
/-- R87: tests (2) to (5) in their order. -/
theorem admission_eq (i : Instr) (s : State) : admission i s =
    if FailsLoaded i s then some .notLoaded
    else if FailsHalted i s then some .halted
    else if FailsCycle i then some .negativeCycle
    else if FailsOperand i then some .reservedOperand
    else none :=
  if_congr (failsLoaded_iff i s) rfl (if_congr (failsHalted_iff i s) rfl (if_congr (failsCycle_iff i) rfl
    (if_congr (failsOperand_iff i) rfl rfl)))

/-- Settles O17: on a ready block neither operation fails a test before its operands are looked at. -/
theorem reservedOperandsRefused : Obligations.ReservedOperandsRefused := by
  unfold Obligations.ReservedOperandsRefused
  intro s hs
  obtain ⟨hloaded, hhalted⟩ := hs
  have refused : ∀ i : Instr, i.cycle = none → FailsOperand i → exec i s = .refused .reservedOperand :=
    fun i hc hi => exec_refused (by simp [admission_eq, FailsLoaded, FailsHalted, FailsCycle, hloaded, hhalted, hc, hi])
  exact ⟨fun T => refused _ rfl (.inl ⟨T, rfl⟩), fun src on h => refused _ rfl (.inr ⟨src, on, rfl, h⟩)⟩

/-- R185: the size SAVE compares with is the number of bytes it writes. -/
theorem snapshot_length (s : State) : (snapshot s).length = snapshotSize s := by
  have hperiph : ∀ p, (namePeriph p).length = 8 := fun p => by cases p <;> rfl
  have hregion : nameBusreg.length = 8 ∧ nameWram.length = 8 ∧ nameCram.length = 8 := ⟨rfl, rfl, rfl⟩
  simp only [snapshot, snapshotSize, List.length_append, snapRecord_length, Memory.toBytes_length, hperiph, hregion,
    show (busregData s).length = 3 from rfl]
  omega

/-- R187: the one refusal of an operation's own rule. -/
theorem exec_save_tooSmall {cap : Word} {s : State} (h : admission (.save cap) s = none)
    (hc : cap.toNat < snapshotSize s) : exec (.save cap) s = .refused .bufferTooSmall := by
  simp [exec, execSave, h, hc]

/-- R87, R187: what becomes of a request that passes the tests: it completes, or it is a SAVE into too small a buffer. -/
theorem exec_admitted_cases {i : Instr} {s : State} (ha : admission i s = none) :
    (∃ t r, exec i s = .next t ∧ t.response = some r ∧ MayAnswer i r) ∨
      ∃ cap, i = .save cap ∧ cap.toNat < (snapshot s).length ∧ exec i s = .refused .bufferTooSmall := by
  by_cases hsave : ∀ cap, i = .save cap → snapshotSize s ≤ cap.toNat
  · exact .inl (exec_answers ha hsave)
  · push Not at hsave
    obtain ⟨cap, rfl, hcap⟩ := hsave
    exact .inr ⟨cap, rfl, by rwa [snapshot_length], exec_save_tooSmall ha hcap⟩

/-- Settles O14: the tests of `admission` one by one, then what an admitted request can become. -/
theorem admissionTestsInOrder : Obligations.AdmissionTestsInOrder := by
  unfold Obligations.AdmissionTestsInOrder
  intro s w rest hr
  refine ⟨fun op => step_of_reserved_opcode hr, fun i hd => ?_, fun r h => by rw [h]; rfl⟩
  rw [step_of_request hr hd]
  have tests : admission i { s with requests := rest } = _ := admission_eq i s
  refine ⟨fun (hu : FailsLoaded i s) => exec_refused ?_,
    fun (hu : ¬ FailsLoaded i s) (hs : FailsHalted i s) => exec_refused ?_,
    fun (hu : ¬ FailsLoaded i s) (hs : ¬ FailsHalted i s) (hn : FailsCycle i) => exec_refused ?_,
    fun (hu : ¬ FailsLoaded i s) (hs : ¬ FailsHalted i s) (hn : ¬ FailsCycle i) (ho : FailsOperand i) =>
      exec_refused ?_,
    fun (hu : ¬ FailsLoaded i s) (hs : ¬ FailsHalted i s) (hn : ¬ FailsCycle i) (ho : ¬ FailsOperand i) => ?_⟩
  · rw [tests, if_pos hu]
  · rw [tests, if_neg hu, if_pos hs]
  · rw [tests, if_neg hu, if_neg hs, if_pos hn]
  · rw [tests, if_neg hu, if_neg hs, if_neg hn, if_pos ho]
  · rw [if_neg hu, if_neg hs, if_neg hn, if_neg ho] at tests
    obtain ⟨t, -, ht, -⟩ | ⟨cap, hi, hcap, hx⟩ := exec_admitted_cases tests
    · exact .inl ⟨t, ht⟩
    · exact .inr ⟨cap, hi, hcap, hx⟩

/-! ## The response word -/

/-- R84: the four fields side by side, as a number. -/
theorem Response.word_toNat (r : Response) : r.word.toNat =
    r.v.toNat + 2 ^ 32 * r.none.toNat + 2 ^ 33 * r.st.code.toNat + 2 ^ 37 * r.ua.toNat := by
  have hv := r.v.isLt
  have hn := (BitVec.ofBool r.none).isLt
  have hs := r.st.code.isLt
  simp only [Response.word, BitVec.toNat_append]
  rw [← Nat.shiftLeft_add_eq_or_of_lt hv, ← Nat.shiftLeft_add_eq_or_of_lt hn, ← Nat.shiftLeft_add_eq_or_of_lt hs]
  simp only [Nat.shiftLeft_eq, BitVec.toNat_ofBool]
  omega

/-- R12, R84: a request that is not refused completes, with an answer its operation may give. -/
theorem exec_refused_or_answers (i : Instr) (s : State) :
    (∃ why, exec i s = .refused why) ∨ ∃ t r, exec i s = .next t ∧ t.response = some r ∧ MayAnswer i r := by
  cases ha : admission i s with
  | some why => exact .inl ⟨why, exec_refused ha⟩
  | none =>
    obtain h | ⟨-, -, -, h⟩ := exec_admitted_cases ha
    · exact .inr h
    · exact .inl ⟨_, h⟩

/-- Settles O15: the word field by field, and the answer of a refused and of a completed request. -/
theorem responseWordLayout : Obligations.ResponseWordLayout := by
  unfold Obligations.ResponseWordLayout
  refine ⟨fun r => ?_, fun i s => ?_⟩
  · rw [Response.word_toNat]
    cases r.st <;> rfl
  · obtain ⟨why, h⟩ | ⟨t, r, h, hr, -, hzero⟩ := exec_refused_or_answers i s
    · exact ⟨errorResponse .refused, by rw [h]; rfl, fun _ => ⟨rfl, rfl, rfl⟩⟩
    · exact ⟨r, by rw [h]; exact hr, hzero⟩

end Sys2Proof.Machine

/-! PROOFS. The bus dispatch statements (40_bus_dispatch.md): bytes of the memories, accesses forwarded to a peripheral,
the HWControl segment, and bus traffic that calls nothing back. -/

namespace Sys2Proof

/-! ## Values -/

/-- A byte answered through a halfword is the byte, zero-extended. -/
theorem setWidth_byte_half_word (b : Byte) : (b.setWidth 16).setWidth 32 = b.setWidth 32 :=
  BitVec.setWidth_setWidth (by omega)

/-- R101: a byte of a buffer, zero-extended to the response. -/
theorem bufRead_byte_setWidth (f : Nat → Byte) (i : Nat) : (bufRead f i .byte).setWidth 32 = (f i).setWidth 32 :=
  setWidth_byte_half_word (f i)

/-- A byte in a halfword is its low byte. -/
theorem ofNat_setWidth_byte (d : Byte) : BitVec.ofNat 8 (d.setWidth 16).toNat = d := by
  rw [BitVec.ofNat_toNat, BitVec.setWidth_setWidth_of_le _ (by omega), BitVec.setWidth_eq]

/-- R113: the low byte of an access's value, whatever its width. -/
theorem low_byte_low (n : Width) (v : Half) : Width.byte.low (n.low v) = Width.byte.low v := by
  cases n with
  | byte => exact low_low .byte v
  | half => rfl

/-! ## The HWControl decode -/

theorem hwKindOf_nil (a : Addr) : hwKindOf [] a = .none := rfl

/-- R112: the first pair that names the low address byte counts. -/
theorem hwKindOf_cons (b : Byte) (k : HwKind) (m : List (Byte × HwKind)) (a : Addr) :
    hwKindOf ((b, k) :: m) a = if a.toNat % 256 = b.toNat then k else hwKindOf m a := by
  have hbyte : b = a.extractLsb' 0 8 ↔ a.toNat % 256 = b.toNat := by
    rw [← BitVec.toNat_inj, BitVec.extractLsb'_toNat]
    exact eq_comm
  by_cases h : a.toNat % 256 = b.toNat
  · simp [hwKindOf, h, hbyte]
  · simp [hwKindOf, h, hbyte]

/-- R112: the decode reads the low address byte only. -/
theorem hwKindOf_congr {a b : Addr} (h : a.toNat % 256 = b.toNat % 256) (m : List (Byte × HwKind)) :
    hwKindOf m a = hwKindOf m b := by
  induction m with
  | nil => rfl
  | cons e m ih => rw [hwKindOf_cons, hwKindOf_cons, h, ih]

/-- Settles O27: the decode tests the low byte against the map's pairs one after another. -/
theorem hwControlDecodesLowByte : Obligations.HwControlDecodesLowByte := by
  unfold Obligations.HwControlDecodesLowByte
  refine ⟨fun m a b h => hwKindOf_congr h m, fun a => ?_⟩
  simp only [Config.default, hwKindOf_cons, hwKindOf_nil, ite_or]
  rfl

end Sys2Proof

namespace Sys2Proof.Machine

/-! ## Byte accesses to the memories -/

theorem busRead_response {A : Word} {n : Width} {c : Int} {s u : State} {x : Half} {ua : Bool}
    (h : memRead A n c s = ⟨x, ua, u⟩) : (busRead A n c s).response = some (okValue ua (x.setWidth 32)) := by
  rw [busRead, h]
  rfl

/-- R103: a byte of a buffer as RDB answers it. -/
theorem busRead_response_byte {A : Word} {c : Int} {s u : State} {f : Nat → Byte} {i : Nat} {ua : Bool}
    (h : memRead A .byte c s = ⟨bufRead f i .byte, ua, u⟩) :
    (busRead A .byte c s).response = some (okValue ua ((f i).setWidth 32)) := by
  rw [busRead_response h, bufRead_byte_setWidth]

/-- Settles O19: the frame of a read, and the value of each segment. -/
theorem rdbReadsMemory : Obligations.RdbReadsMemory := by
  unfold Obligations.RdbReadsMemory
  intro s c A hs hi hc n seg h0 h2
  obtain ⟨hblock, hface, -⟩ := memRead_memory_frame (n := .byte) (A := A) h0 h2 hs.1 hi c.toInt
  refine ⟨_, exec_readRequest hs hc .byte A, hblock, hface, fun h => ?_, fun h => ?_, fun h hram => ?_,
    fun h hram => ?_, fun h => ?_⟩
  · exact busRead_response (memRead_of_empty (n := .byte) (A := A) h c.toInt s)
  · exact busRead_response_byte (memRead_of_reaches (n := .byte) (A := A) (reaches_wram_iff.2 h) c.toInt)
  · exact busRead_response (memRead_of_noRam (n := .byte) (A := A) ⟨h, hram⟩ c.toInt)
  · exact busRead_response_byte (memRead_of_reaches (n := .byte) (A := A) (reaches_cram_iff.2 ⟨h, hram⟩) c.toInt)
  · exact busRead_response_byte (f := s.rom.read) (memRead_of_rom (n := .byte) (A := A) h hs.1 hi c.toInt)

/-- Settles O21: the frame of a write, and the byte of each buffer. -/
theorem wrbStoresOneByte : Obligations.WrbStoresOneByte := by
  unfold Obligations.WrbStoresOneByte
  intro s c A d hs hi hc n seg h3
  have hexec := exec_wrb c A d s (admission_ready hs (by rintro _ ⟨⟩; exact hc) rfl)
  obtain ⟨hface, hblock, hua⟩ := memWrite_memory_frame (n := .byte) (A := A) h3 (d.setWidth 16) c.toInt s
  have wram := read_region_memWrite (n := .byte) (A := A) hi h3 reaches_wram_iff (d.setWidth 16) c.toInt
  have ram := read_region_memWrite (n := .byte) (A := A) hi h3 reaches_cram_iff (d.setWidth 16) c.toInt
  simp only [reduceCtorEq, false_and, and_false, if_false, and_assoc, ofNat_setWidth_byte] at wram ram
  exact ⟨_, hexec, hface, hblock, congrArg (fun b => some (okValue b 0)) hua, wram, ram⟩

/-! ## Accesses forwarded to a peripheral -/

/-- R107, R108: a read that goes to a peripheral's register is that one contract call, and answers the low bits of the
value. -/
theorem busRead_of_forwardRead {A : Word} {n k : Width} {c : Int} {s : State} {p : Periph} {a : Addr}
    (h : memRead A n c s = forwardRead p c a k s) :
    let q := Call.readRegister p c a k
    Forwarded q s (busRead A n c s) ∧ (busRead A n c s).response =
      some ⟨false, .ok, false, BitVec.ofNat 32 ((s.answer q).value.toNat % 2 ^ (8 * k.bytes))⟩ := by
  intro q
  constructor
  · rw [busRead, h]
    exact callPeriph_forwarded _ s _
  · rw [busRead_response h, low_setWidth_32]
    rfl

/-- R107, R109, R111, R115: a write that goes to a peripheral's register is that one contract call, with the low bits of
the value. -/
theorem busWrite_of_forwardWrite {A : Word} {n k : Width} {v : Half} {c ts : Int} {s : State} {p : Periph} {a : Addr}
    (h : memWrite A n v c s = forwardWrite p ts a k v s) :
    Forwarded (.writeRegister p ts a k (k.low v)) s (busWrite A n v c s) ∧
      (busWrite A n v c s).response = some ⟨false, .ok, false, 0⟩ := by
  rw [busWrite, h]
  exact ⟨callPeriph_forwarded _ s _, rfl⟩

theorem memRead_of_video {n : Width} {A : Word} (h : accessAddr n A / 2 ^ 24 = 0) (c : Int) (s : State) :
    memRead A n c s = forwardRead .video c (busAddr n A) n s := by
  simp only [Nat.reducePow] at h
  simp only [memRead_at, h]

theorem memWrite_of_video {n : Width} {A : Word} (h : accessAddr n A / 2 ^ 24 = 0) (v : Half) (c : Int) (s : State) :
    memWrite A n v c s = forwardWrite .video c (busAddr n A) n v s := by
  simp only [Nat.reducePow] at h
  simp only [memWrite_at, h]

theorem memWrite_of_audio {n : Width} {A : Word} (h : accessAddr n A / 2 ^ 24 = 1) (v : Half) (c : Int) (s : State) :
    memWrite A n v c s = forwardWrite .audio (audioTime c s.acf) (busAddr n A) n v s := by
  simp only [Nat.reducePow] at h
  simp only [memWrite_at, h]

/-- Settles O23: the Video segment forwards its reads. -/
theorem videoReadIsForwarded : Obligations.VideoReadIsForwarded := by
  unfold Obligations.VideoReadIsForwarded
  intro s n c A hs hc h q
  refine ⟨_, exec_readRequest hs hc n A, ?_⟩
  simp only [q, busAddr_ofNat]
  exact busRead_of_forwardRead (memRead_of_video h c.toInt s)

/-- Settles O24: the Video and the Audio segment forward their writes, Audio at the quarter-rate time. -/
theorem videoAndAudioWritesAreForwarded : Obligations.VideoAndAudioWritesAreForwarded := by
  unfold Obligations.VideoAndAudioWritesAreForwarded
  intro s n c A v hs hc a w
  have hw : w = n.low (n.low v) := by rw [low_low, low_eq_ofNat]
  simp only [a, busAddr_ofNat, hw, ← audioTime_eq s.acf hc]
  have hexec := exec_writeRequest hs hc n A v
  refine ⟨fun h => ⟨_, hexec, And.symm ?_⟩, fun h => ⟨_, hexec, And.symm ?_⟩⟩
  · exact busWrite_of_forwardWrite (memWrite_of_video h (n.low v) c.toInt s)
  · exact busWrite_of_forwardWrite (memWrite_of_audio h (n.low v) c.toInt s)

/-! ## The HWControl segment -/

theorem memRead_of_hwControl {n : Width} {A : Word} (h : accessAddr n A / 2 ^ 24 = 2) (c : Int) (s : State) :
    memRead A n c s = hwRead c (busAddr n A) s := by
  simp only [Nat.reducePow] at h
  simp only [memRead_at, h]

theorem memWrite_of_hwControl {n : Width} {A : Word} (h : accessAddr n A / 2 ^ 24 = 2) (v : Half) (c : Int)
    (s : State) : memWrite A n v c s = hwWrite c (busAddr n A) v s := by
  simp only [Nat.reducePow] at h
  simp only [memWrite_at, h]

/-- R112: a kind of offset that selects a register of a peripheral. -/
def SelectsPeriph (kind : HwKind) (p : Periph) : Prop :=
  kind = .timer ∧ p = Periph.timer ∨ kind = .input ∧ p = Periph.input

/-- R113, R114: a Timer or Input offset forwards the read, one byte wide. -/
theorem hwRead_of_periph {a : Addr} {s : State} {p : Periph} (h : SelectsPeriph (hwKindOf s.cfg.hwmap a) p) (c : Int) :
    hwRead c a s = forwardRead p c a .byte s := by
  rcases h with ⟨hk, rfl⟩ | ⟨hk, rfl⟩ <;> simp only [hwRead, hk]

/-- R116: the read value of WCR, with the parameter's bits set. -/
theorem hwRead_of_wcr {a : Addr} {s : State} (h : hwKindOf s.cfg.hwmap a = .wcr) (c : Int) :
    hwRead c a s = ⟨(wcrByte s).setWidth 16, false, s⟩ := by
  simp only [hwRead, h]

/-- R119: an offset that selects nothing reads as zero, and the access is unmapped. -/
theorem hwRead_of_none {a : Addr} {s : State} (h : hwKindOf s.cfg.hwmap a = .none) (c : Int) :
    hwRead c a s = ⟨0, true, logUnmapped .read a s⟩ := by
  simp only [hwRead, h]

/-- R113, R115: a Timer or Input offset forwards the write, one byte wide. -/
theorem hwWrite_of_periph {a : Addr} {s : State} {p : Periph} (h : SelectsPeriph (hwKindOf s.cfg.hwmap a) p) (c : Int)
    (v : Half) : hwWrite c a v s = forwardWrite p c a .byte v s := by
  rcases h with ⟨hk, rfl⟩ | ⟨hk, rfl⟩ <;> simp only [hwWrite, hk]

/-- R116: WCR keeps the two low bits. -/
theorem hwWrite_of_wcr {a : Addr} {s : State} (h : hwKindOf s.cfg.hwmap a = .wcr) (c : Int) (v : Half) :
    hwWrite c a v s = ⟨false, setWcr (v.extractLsb' 0 2) s⟩ := by
  simp only [hwWrite, h]

/-- R119: a write at an offset that selects nothing is unmapped. -/
theorem hwWrite_of_none {a : Addr} {s : State} (h : hwKindOf s.cfg.hwmap a = .none) (c : Int) (v : Half) :
    hwWrite c a v s = ⟨true, logUnmapped .write a s⟩ := by
  simp only [hwWrite, h]

/-- R119: a HWControl write is unmapped where the map selects nothing, and nowhere else. -/
theorem hwWrite_ua (c : Int) (a : Addr) (v : Half) (s : State) :
    (hwWrite c a v s).ua = decide (hwKindOf s.cfg.hwmap a = .none) := by
  cases h : hwKindOf s.cfg.hwmap a with
  | timer => rw [hwWrite_of_periph (.inl ⟨h, rfl⟩)]; rfl
  | input => rw [hwWrite_of_periph (.inr ⟨h, rfl⟩)]; rfl
  | wcr => rw [hwWrite_of_wcr h]; rfl
  | none => rw [hwWrite_of_none h]; rfl

/-- Settles O25: the segment's read is what its offset's kind makes it, one clause for each kind. -/
theorem hwControlReads : Obligations.HwControlReads := by
  unfold Obligations.HwControlReads
  intro s n c A hs hc h a kind
  have ha : a = busAddr n A := busAddr_ofNat n A
  have hm : memRead A n c.toInt s = hwRead c.toInt a s := by rw [ha]; exact memRead_of_hwControl h c.toInt s
  refine ⟨_, exec_readRequest hs hc n A, fun p hp => ?_, fun hk => ?_, fun hk => ?_⟩
  · exact busRead_of_forwardRead (hm.trans (hwRead_of_periph hp c.toInt))
  · have hwcr := hm.trans (hwRead_of_wcr hk c.toInt)
    have hv := busRead_response hwcr
    rw [setWidth_byte_half_word] at hv
    refine ⟨?_, ?_, hv⟩ <;> rw [busRead, hwcr]
    · rfl
    · exact SameInterface.refl s
  · rw [busRead, hm, hwRead_of_none hk]
    exact ⟨rfl, logUnmapped_sameInterface .read a s, rfl⟩

/-- Settles O26: so is its write, and the low byte of the value is the same at both widths. -/
theorem hwControlWrites : Obligations.HwControlWrites := by
  unfold Obligations.HwControlWrites
  intro s n c A v hs hc h a kind
  have ha : a = busAddr n A := busAddr_ofNat n A
  have hm : memWrite A n (n.low v) c.toInt s = hwWrite c.toInt a (n.low v) s := by
    rw [ha]; exact memWrite_of_hwControl h (n.low v) c.toInt s
  refine ⟨_, exec_writeRequest hs hc n A v, ?_, fun p hp => ?_, fun hk => ?_, fun hk => ?_⟩
  · rw [busWrite, hm, hwWrite_ua]; rfl
  · have hlow : BitVec.ofNat 16 (v.toNat % 256) = Width.byte.low (n.low v) := by rw [low_byte_low, low_eq_ofNat]; rfl
    rw [hlow]
    exact (busWrite_of_forwardWrite (hm.trans (hwWrite_of_periph hp c.toInt _))).1
  · rw [busWrite, hm, hwWrite_of_wcr hk, low_bits_2]
    exact ⟨rfl, SameInterface.refl s⟩
  · rw [busWrite, hm, hwWrite_of_none hk]
    exact ⟨rfl, logUnmapped_sameInterface .write a s⟩

/-! ## Bus traffic that calls nothing back -/

/-- R128 (e): the sequencer and the arbiter are as before. -/
def SameSchedule (s t : State) : Prop :=
  (∀ p, t.ev p = s.ev p) ∧ t.halt = s.halt ∧ t.irq = s.irq ∧ t.levels = s.levels

/-- R11: the one contract call on the way from `s` to `t`, if there was one, was answered without callbacks. -/
def AnsweredQuietly (s t : State) : Prop := ∀ q, t.calls = q :: s.calls → (s.answer q).callbacks = []

theorem SameSchedule.refl (s : State) : SameSchedule s s := ⟨fun _ => rfl, rfl, rfl, rfl⟩

theorem callPeriph_sameSchedule {q : Call} {s : State} (h : AnsweredQuietly s (callPeriph q s)) :
    SameSchedule s (callPeriph q s) := by
  rw [callPeriph_quiet (h q (callPeriph_calls q s))]
  exact ⟨fun _ => rfl, rfl, rfl, rfl⟩

theorem memRead_sameSchedule {A : Word} {n : Width} {c : Int} {s : State}
    (h : AnsweredQuietly s (memRead A n c s).after) : SameSchedule s (memRead A n c s).after := by
  rcases memRead_after A n c s with e | ⟨q, e⟩ | ⟨r, e⟩ <;> rw [e] at h ⊢
  · exact SameSchedule.refl s
  · exact callPeriph_sameSchedule h
  · exact SameSchedule.refl s

theorem memWrite_sameSchedule {A : Word} {n : Width} {v : Half} {c : Int} {s : State}
    (h : AnsweredQuietly s (memWrite A n v c s).after) : SameSchedule s (memWrite A n v c s).after := by
  rcases memWrite_after A n v c s with e | ⟨q, e⟩ | ⟨r, e⟩ | ⟨x, e⟩ | ⟨m, e⟩ | ⟨m, e⟩ <;> rw [e] at h ⊢
  · exact SameSchedule.refl s
  · exact callPeriph_sameSchedule h
  all_goals exact SameSchedule.refl s

/-- R103, R104: a read that has a next state has the one its rule gives. -/
theorem exec_readRequest_inv {n : Width} {c A : Word} {s t : State} (h : exec (readRequest n c A) s = .next t) :
    t = busRead A n c.toInt s := by
  cases n with
  | byte => exact (exec_rdb_inv c A h).2
  | half => exact (exec_rdh_inv c A h).2

/-- R105, R106: a write that has a next state has the one its rule gives. -/
theorem exec_writeRequest_inv {n : Width} {c A : Word} {v : Half} {s t : State}
    (h : exec (writeRequest n c A v) s = .next t) : t = busWrite A n (n.low v) c.toInt s := by
  cases n with
  | byte => exact (exec_wrb_inv c A _ h).2
  | half => exact (exec_wrh_inv c A v h).2

/-- Settles O32: an access makes one contract call at most, and everything else it does keeps the schedule. -/
theorem busTrafficWithoutCallbacks : Obligations.BusTrafficWithoutCallbacks := by
  unfold Obligations.BusTrafficWithoutCallbacks
  intro s t n c A v h quiet
  rcases h with h | h
  · obtain rfl := exec_readRequest_inv h
    exact memRead_sameSchedule quiet
  · obtain rfl := exec_writeRequest_inv h
    exact memWrite_sameSchedule quiet

end Sys2Proof.Machine

/-! PROOFS. The sequencer statements (41_scheduler.md): a stored due time, the boundary, the services of STEP and FUPD,
the rebase, the audio carry, and the frame end made of them. -/

namespace Sys2Proof

/-! ## Due times through a rebase -/

/-- R151: what the subtraction does to each kind of due time. -/
theorem Time.rebase_cases {T : Time} {c : Int} (hc : 0 ≤ c) (h : (c : WithTop Int) < T.val) :
    (T = .none → T.rebase c = .none) ∧
      ∀ w, T = .fin w → ∃ w', T.rebase c = .fin w' ∧ w'.toInt = w.toInt - c := by
  refine ⟨?_, ?_⟩
  · rintro rfl
    rfl
  · rintro w rfl
    exact ⟨_, rfl, Time.rebase_fin_toInt hc (by simpa [Time.val] using h)⟩

/-- R151: subtracting one count from two times keeps their order. -/
theorem Time.rebase_before {T U : Time} {c : Int} (hc : 0 ≤ c) (hT : (c : WithTop Int) < T.val)
    (hU : (c : WithTop Int) < U.val) : (T.rebase c).before (U.rebase c) = T.before U := by
  cases T with
  | none => rfl
  | fin a =>
    cases U with
    | none => rfl
    | fin b =>
      have ha := Time.rebase_fin_toInt hc (by simpa [Time.val] using hT)
      have hb := Time.rebase_fin_toInt hc (by simpa [Time.val] using hU)
      simp [Time.rebase, Time.before, ha, hb]

theorem Time.rebase_minT {T U : Time} {c : Int} (hc : 0 ≤ c) (hT : (c : WithTop Int) < T.val)
    (hU : (c : WithTop Int) < U.val) : (T.rebase c).minT (U.rebase c) = (T.minT U).rebase c := by
  unfold Time.minT
  rw [Time.rebase_before hc hU hT]
  split <;> rfl

/-! ## The audio carry -/

/-- R158: the carry of an exact sum, as an integer. -/
theorem acfCarry_toInt (c : Int) (a : BitVec 2) : ((acfCarry c a).toNat : Int) = (c + a.toNat) % 4 := by
  rw [acfCarry, BitVec.toNat_ofInt, Int.toNat_of_nonneg (Int.emod_nonneg _ (by decide))]
  rfl

/-- R158: after a carry the quarter-rate time counts on from where it was. -/
theorem audioTime_acfCarry (x c : Int) (a : BitVec 2) :
    audioTime x (acfCarry c a) = audioTime (c + x) a - audioTime c a := by
  unfold audioTime
  rw [acfCarry_toInt]
  omega

/-- R158: two carries are one by the sum. -/
theorem acfCarry_acfCarry (c c' : Int) (a : BitVec 2) : acfCarry c' (acfCarry c a) = acfCarry (c + c') a := by
  have h1 := acfCarry_toInt c a
  have h2 := acfCarry_toInt c' (acfCarry c a)
  have h3 := acfCarry_toInt (c + c') a
  apply BitVec.eq_of_toNat_eq
  omega

end Sys2Proof

namespace Sys2Proof.Machine

/-! ## Admission -/

/-- R87: a ready block admits a well-formed operation that reads no cycle. -/
theorem admission_without_cycle {i : Instr} {s : State} (hs : s.Ready) (hi : i.cycle = none)
    (hw : i.wellFormed = true) : admission i s = none :=
  admission_ready hs (fun c h => by rw [hi] at h; cases h) hw

/-- R87: a ready block admits a well-formed operation at a cycle that is not negative. -/
theorem admission_at_cycle {i : Instr} {s : State} {c : Word} (hs : s.Ready) (hi : i.cycle = some c)
    (hw : i.wellFormed = true) (hc : 0 ≤ c.toInt) : admission i s = none :=
  admission_ready hs (fun c' h => by rw [hi] at h; cases h; exact hc) hw

/-- R87 tests (2), (3): an admitted operation that neither an unloaded nor a halted block admits finds it ready. -/
theorem ready_of_admission {i : Instr} {s : State} (ha : admission i s = none) (hu : i.allowedUnloaded = false)
    (hh : i.allowedHalted = false) : s.Ready := by
  obtain ⟨-, hhalted, -, -⟩ := admission_none ha
  exact ⟨loaded_of_admission ha hu, hhalted.resolve_right (by simp [hh])⟩

theorem cycle_nonneg_of_admission {i : Instr} {s : State} {c : Word} (ha : admission i s = none)
    (hi : i.cycle = some c) : 0 ≤ c.toInt := by
  obtain ⟨-, -, hcycle, -⟩ := admission_none ha
  exact hcycle c hi

/-! ## What the sequencer's operations leave alone -/

theorem ScheduleOnly.sameStorage {s t : State} (h : ScheduleOnly s t) : SameStorage s t :=
  ⟨h.wram, h.rom, h.ram, h.wcr, h.loaded, h.cfg, h.requests, h.payloadIn, h.payloadOut, h.queries, h.env⟩

theorem ScheduleOnly.ready {s t : State} (h : ScheduleOnly s t) (hs : s.Ready) : t.Ready :=
  ⟨h.loaded.trans hs.1, h.halted.trans hs.2⟩

theorem rearm_sameInterface (s : State) : SameInterface s (rearm s) := SameInterface.refl s

theorem rearm_toBlock (s : State) : (rearm s).toBlock = { s.toBlock with halt := (rearm s).halt } := rfl

theorem respond_ready {s : State} (hs : s.Ready) (r : Response) : (respond r s).Ready := hs

/-! ## A time as a response -/

/-- R82, R84: a time is answered by its value, `None` by the none tag. -/
theorem okTime_eq (T : Time) : okTime T = match T with
    | .none => ⟨false, .ok, true, 0⟩
    | .fin w => ⟨false, .ok, false, w⟩ := by
  cases T <;> rfl

theorem okTime_eq_none_iff (T : Time) : okTime T = ⟨false, .ok, true, 0⟩ ↔ T = .none := by
  cases T <;> simp [okTime, Time.tag, Time.bits]

theorem okTime_eq_fin_iff (T : Time) (b : Word) : okTime T = ⟨false, .ok, false, b⟩ ↔ T = .fin b := by
  cases T <;> simp [okTime, Time.tag, Time.bits]

/-! ## Storing a due time -/

theorem setEvent_of_lt {T : Time} {s : State} (h : T.val < s.halt.val) (p : EvClass) :
    setEvent p T s = setHalt T (setEv p T s) := by
  unfold setEvent
  exact if_pos ((Time.before_iff _ _).2 (by rwa [setEv_halt]))

theorem setEvent_of_not_lt {T : Time} {s : State} (h : ¬ T.val < s.halt.val) (p : EvClass) :
    setEvent p T s = setEv p T s := by
  unfold setEvent
  exact if_neg fun hb => h (by rw [← setEv_halt p T s]; exact (Time.before_iff _ _).1 hb)

/-- R141: the lowered halt point aside, a stored due time is a write of one event register. -/
theorem setEvent_eq (p : EvClass) (T : Time) (s : State) :
    setEvent p T s = setHalt (setEvent p T s).halt (setEv p T s) := by
  by_cases h : T.val < s.halt.val
  · rw [setEvent_of_lt h p]; rfl
  · rw [setEvent_of_not_lt h p]; rfl

theorem setEv_toBlock (p : EvClass) (T : Time) (s : State) : (setEv p T s).toBlock = { s.toBlock with
    evVideo := (setEv p T s).evVideo, evTimer := (setEv p T s).evTimer, evInput := (setEv p T s).evInput } := by
  cases p <;> rfl

theorem setEv_sameInterface (p : EvClass) (T : Time) (s : State) : SameInterface s (setEv p T s) := by
  cases p <;> exact SameInterface.refl s

theorem setEvent_sameInterface (p : EvClass) (T : Time) (s : State) : SameInterface s (setEvent p T s) := by
  rw [setEvent_eq]
  exact setEv_sameInterface p T s

/-- R141: the event register stored, the halt point lowered if the time is earlier, and the rest of the block. -/
theorem setEvent_block (p : EvClass) (T : Time) (s : State) :
    (setEvent p T s).ev p = T ∧ (∀ q, q ≠ p → (setEvent p T s).ev q = s.ev q) ∧
      (T.val < s.halt.val → (setEvent p T s).halt = T) ∧
      (¬ T.val < s.halt.val → (setEvent p T s).halt = s.halt) ∧
      (setEvent p T s).toBlock = { s.toBlock with
        evVideo := (setEvent p T s).evVideo, evTimer := (setEvent p T s).evTimer,
        evInput := (setEvent p T s).evInput, halt := (setEvent p T s).halt } := by
  refine ⟨?_, fun q hq => ?_, fun h => ?_, fun h => ?_, ?_⟩
  · rw [setEvent_eq]
    exact setEv_ev_same p T s
  · rw [setEvent_eq]
    exact setEv_ev_other p q hq T s
  · rw [setEvent_of_lt h, setHalt_halt]
  · rw [setEvent_of_not_lt h, setEv_halt]
  · rw [setEvent_eq]
    exact congrArg (fun b : Block => { b with halt := (setEvent p T s).halt }) (setEv_toBlock p T s)

/-- R83: the class numbers 0, 1, 2 of the three event registers. -/
theorem evClassOf_of_toNat {cls : BitVec 2} {p : EvClass}
    (h : cls.toNat = (match p with | .video => 0 | .timer => 1 | .input => 2)) :
    evClassOf cls = some p ∧ classOk cls = true := by
  cases p <;> exact ⟨by simp [evClassOf, h], by simp [classOk, ← BitVec.toNat_inj, h]⟩

/-- Settles O33: SETEV is a stored due time, answered. -/
theorem setevStoresAndLowersHalt : Obligations.SetevStoresAndLowersHalt := by
  unfold Obligations.SetevStoresAndLowersHalt
  intro s p cls T hs hcls
  obtain ⟨hp, hok⟩ := evClassOf_of_toNat hcls
  exact ⟨_, exec_setev T s (admission_without_cycle hs rfl hok) hp, rfl, setEvent_sameInterface p T s,
    setEvent_block p T s⟩

/-! ## The boundary -/

theorem nextBoundary_le (s : State) (p : EvClass) : (nextBoundary s).val ≤ (s.ev p).val := rearm_haltBound s p

theorem lt_nextBoundary {c : Int} {s : State} (h : ∀ p, (c : WithTop Int) < (s.ev p).val) :
    (c : WithTop Int) < (nextBoundary s).val := by
  obtain ⟨p, hp⟩ := nextBoundary_mem s
  exact hp ▸ h p

/-- Settles O34: the boundary is a due time and bounds all three. -/
theorem nextbAnswersLeastDueTime : Obligations.NextbAnswersLeastDueTime := by
  unfold Obligations.NextbAnswersLeastDueTime
  intro s hs
  exact ⟨_, nextBoundary s, exec_nextb s (admission_without_cycle hs rfl rfl), rfl, SameInterface.refl s,
    nextBoundary_mem s, nextBoundary_le s, congrArg some (okTime_eq _)⟩

/-! ## Services -/

/-- R144: the state after the three tests of a STEP. -/
def afterTests (c : Int) (s : State) : State :=
  serviceIfDue .input c (serviceIfDue .timer c (serviceIfDue .video c s))

theorem stepEvents_eq (c : Int) (s : State) :
    stepEvents c s = respond (okTime (nextBoundary (afterTests c s))) (rearm (afterTests c s)) := rfl

theorem afterTests_schedule (c : Int) (s : State) : ScheduleOnly s (afterTests c s) :=
  (serviceIfDue_schedule .video c s).trans
    ((serviceIfDue_schedule .timer c _).trans (serviceIfDue_schedule .input c _))

/-- Settles O35: the three tests one after another, then the boundary of the state they left. -/
theorem stepServicesWhatIsDue : Obligations.StepServicesWhatIsDue := by
  unfold Obligations.StepServicesWhatIsDue
  intro s c hs hc
  have hsched := afterTests_schedule c.toInt s
  exact ⟨serviceIfDue .video c.toInt s, serviceIfDue .timer c.toInt (serviceIfDue .video c.toInt s),
    afterTests c.toInt s, stepEvents c.toInt s, exec_step c s (admission_at_cycle hs rfl rfl hc),
    serviceIfDue_eq .video c.toInt s, serviceIfDue_eq .timer c.toInt _, serviceIfDue_eq .input c.toInt _, rfl,
    rearm_sameInterface _, nextBoundary_val _, congrArg some (okTime_eq _), hsched.sameStorage, hsched.acf,
    hsched.halted⟩

theorem serviceIfDue_of_lt {p : EvClass} {c : Int} {s : State} (h : (c : WithTop Int) < (s.ev p).val) :
    serviceIfDue p c s = s := by
  have := serviceIfDue_eq p c s
  rwa [if_neg (not_le.2 h)] at this

/-- R144: where nothing is due the three tests do nothing. -/
theorem afterTests_of_lt {c : Int} {s : State} (h : ∀ p, (c : WithTop Int) < (s.ev p).val) : afterTests c s = s := by
  rw [afterTests, serviceIfDue_of_lt (h .video), serviceIfDue_of_lt (h .timer), serviceIfDue_of_lt (h .input)]

/-- Settles O37: the three tests leave the state as it was, and re-arming writes HALT only. -/
theorem stepWithNothingDue : Obligations.StepWithNothingDue := by
  unfold Obligations.StepWithNothingDue
  intro s c hs hc h
  refine ⟨_, exec_step c s (admission_at_cycle hs rfl rfl hc), ?_⟩
  rw [stepEvents_eq, afterTests_of_lt h]
  exact ⟨rfl, rfl, nextBoundary_val s⟩

/-- R143: a service is what the callbacks of its Update leave, the call noted and the returned time stored last. -/
theorem service_eq (p : EvClass) (c : Int) (s : State) : service p c s = setEv p (s.answer (.update p c)).time
    (recordCall (.update p c) (applyCallbacks (s.answer (.update p c)).callbacks s)) := by
  rw [service, callPeriph_eq]

/-- R171: the bits of IRQ after an Assert. -/
theorem irqAssert_getLsbD (irq : BitVec 5) (src : Fin 5) (on : Bool) {k : Nat} (hk : k < 5) :
    (irqAssert irq src on).getLsbD k = if k = src.val then on else irq.getLsbD k := by
  have hmask : (sourceMask src).getLsbD k = decide (k = src.val) := by
    rw [show sourceMask src = BitVec.twoPow 5 src.val from rfl, BitVec.getLsbD_twoPow]
    simp [src.isLt, eq_comm]
  unfold irqAssert
  cases on with
  | false =>
    rw [if_neg Bool.false_ne_true, BitVec.getLsbD_and, BitVec.getLsbD_not, hmask]
    by_cases h : k = src.val <;> simp [h, hk]
  | true =>
    rw [if_pos rfl, BitVec.getLsbD_or, hmask]
    by_cases h : k = src.val <;> simp [h]

/-- Settles O36: a service, a contract call, and the two kinds of callback at the head of a list. -/
theorem serviceStoresReturnedTimeLast : Obligations.ServiceStoresReturnedTimeLast := by
  unfold Obligations.ServiceStoresReturnedTimeLast
  refine ⟨fun p c s => ?_, fun q s => rfl, applyCallbacks_nil, fun p T cbs s => ?_, fun src on cbs s => ?_⟩
  · have hsched := service_schedule p c s
    refine ⟨service_ev p c s, service_calls p c s, fun q hq => ?_, ?_, ?_, ?_, hsched.sameStorage, hsched.acf,
      hsched.halted⟩ <;> rw [service_eq]
    · exact setEv_ev_other p q hq _ _
    · rw [setEv_halt, recordCall_halt]
    · rw [setEv_irq, recordCall_irq]
    · rw [setEv_levels, recordCall_levels]
  · obtain ⟨hev, hother, hlow, hkeep, hblock⟩ := setEvent_block p T s
    have hsched := setEvent_schedule p T s
    exact ⟨setEvent p T s, rfl, hev, hother, hlow, hkeep, hblock, setEvent_sameInterface p T s, hsched.response,
      hsched.log⟩
  · exact ⟨assertSource src on s, rfl, fun k hk => irqAssert_getLsbD s.irq src on hk, rfl⟩

/-- R148: Updates that call nothing back leave the returned due times, and the arbiter as it was. -/
theorem forceUpdateAll_quiet_result {c : Int} {s : State} (h : QuietUpdates c s) :
    (∀ p, (forceUpdateAll c s).ev p = returnedTime c s p) ∧ (forceUpdateAll c s).irq = s.irq ∧
      (forceUpdateAll c s).levels = s.levels := by
  refine ⟨forceUpdateAll_quiet_ev h, ?_⟩
  rw [forceUpdateAll_quiet h]
  constructor <;> simp [rearm]

/-- Settles O38: the three services, then the re-armed halt point. -/
theorem fupdUpdatesAllThree : Obligations.FupdUpdatesAllThree := by
  unfold Obligations.FupdUpdatesAllThree
  intro s c hs hc s3
  have hexec := exec_fupd c s (admission_at_cycle hs rfl rfl hc)
  have hrearm : forceUpdateAll c.toInt s = rearm s3 := by rw [forceUpdateAll]
  have hsched := forceUpdateAll_schedule c.toInt s
  have hcalls := forceUpdateAll_calls c.toInt s
  have hhalt := forceUpdateAll_halt c.toInt s
  have hquiet := forceUpdateAll_quiet_result (c := c.toInt) (s := s)
  clear_value s3
  generalize forceUpdateAll c.toInt s = u at *
  exact ⟨_, hexec, rfl, hrearm ▸ rearm_toBlock s3, hrearm ▸ rearm_sameInterface s3, hcalls, hhalt, hsched.sameStorage,
    hsched.acf, hsched.halted, hquiet⟩

/-! ## The rebase -/

theorem rebaseAll_of_after {c : Int} {s : State} (h : ∀ p, (c : WithTop Int) < (s.ev p).val) :
    rebaseAll c s = respond (okValue false 0) (rebaseEvents c s) :=
  if_pos ((rebaseOk_iff c s).2 h)

theorem not_rebaseOk_of_due {c : Int} {s : State} (h : ∃ p, (s.ev p).val ≤ (c : WithTop Int)) :
    ¬ rebaseOk c s = true := fun hok =>
  let ⟨p, hp⟩ := h
  not_lt.2 hp ((rebaseOk_iff c s).1 hok p)

theorem rebaseAll_of_due {c : Int} {s : State} (h : ∃ p, (s.ev p).val ≤ (c : WithTop Int)) :
    rebaseAll c s = raiseViolation c s :=
  if_neg (not_rebaseOk_of_due h)

/-- R152: a violation sets the latch and changes nothing else of the block. -/
theorem raiseViolation_toBlock (c : Int) (s : State) : (raiseViolation c s).toBlock = { s.toBlock with halted := true } :=
  congrArg (fun b => { s.toBlock with halted := b }) (Bool.or_true s.halted)

theorem raiseViolation_halted (c : Int) (s : State) : (raiseViolation c s).halted = true := Bool.or_true s.halted

theorem raiseViolation_sameInterface (c : Int) (s : State) : SameInterface s (raiseViolation c s) :=
  SameInterface.refl s

/-- Every due time is after the count, or some is not. -/
theorem after_or_due (c : Int) (s : State) :
    (∀ p, (c : WithTop Int) < (s.ev p).val) ∨ ∃ p, (s.ev p).val ≤ (c : WithTop Int) := by
  simpa only [not_forall, not_lt] using Classical.em (∀ p, (c : WithTop Int) < (s.ev p).val)

/-- Settles O39: the two arms of REBASE, each of which rules the other out. -/
theorem rebaseSubtractsOrHalts : Obligations.RebaseSubtractsOrHalts := by
  unfold Obligations.RebaseSubtractsOrHalts
  intro s c hs hc
  refine ⟨_, exec_rebase c s (admission_at_cycle hs rfl rfl hc), ?_⟩
  obtain hafter | ⟨p, hdue⟩ := after_or_due c.toInt s
  · rw [rebaseAll_of_after hafter]
    refine ⟨SameInterface.refl s, fun _ => ⟨rfl, rfl, fun p => ?_⟩, fun p hp => absurd (hafter p) (not_lt.2 hp)⟩
    have hev : (respond (okValue false 0) (rebaseEvents c.toInt s)).ev p = (s.ev p).rebase c.toInt :=
      rebaseEvents_ev c.toInt s p
    rw [hev]
    exact Time.rebase_cases hc (hafter p)
  · rw [rebaseAll_of_due ⟨p, hdue⟩]
    exact ⟨raiseViolation_sameInterface _ s, fun h => absurd (h p) (not_lt.2 hdue),
      fun _ _ => ⟨rfl, raiseViolation_toBlock _ s⟩⟩

/-- R151: a REBASE that did not halt the block found every due time after its count and subtracted it. -/
theorem exec_rebase_ok_inv {c : Word} {s t : State} (h : exec (.rebase c) s = .next t) (ht : t.halted = false) :
    s.Ready ∧ 0 ≤ c.toInt ∧ (∀ p, (c.toInt : WithTop Int) < (s.ev p).val) ∧
      t = respond (okValue false 0) (rebaseEvents c.toInt s) := by
  obtain ⟨ha, rfl⟩ := exec_rebase_inv c h
  refine ⟨ready_of_admission ha rfl rfl, cycle_nonneg_of_admission ha rfl, ?_⟩
  obtain hafter | hdue := after_or_due c.toInt s
  · exact ⟨hafter, rebaseAll_of_after hafter⟩
  · rw [rebaseAll_of_due hdue, raiseViolation_halted] at ht
    cases ht

/-- R151: what two REBASEs, both successful, found and left. -/
theorem exec_rebase_twice_inv {c1 c2 : Word} {s s1 s2 : State} (h1 : exec (.rebase c1) s = .next s1)
    (k1 : s1.halted = false) (h2 : exec (.rebase c2) s1 = .next s2) (k2 : s2.halted = false) :
    (s.Ready ∧ 0 ≤ c1.toInt ∧ 0 ≤ c2.toInt) ∧ (∀ p, (c1.toInt : WithTop Int) < (s.ev p).val) ∧
      (∀ p, (c2.toInt : WithTop Int) < ((rebaseEvents c1.toInt s).ev p).val) ∧
      s2 = respond (okValue false 0) (rebaseEvents c2.toInt (rebaseEvents c1.toInt s)) := by
  obtain ⟨hs, hc1, hafter1, rfl⟩ := exec_rebase_ok_inv h1 k1
  obtain ⟨-, hc2, hafter2, rfl⟩ := exec_rebase_ok_inv h2 k2
  exact ⟨⟨hs, hc1, hc2⟩, hafter1, hafter2, rfl⟩

/-- Settles O41: register by register, two subtractions are one. -/
theorem rebaseComposes : Obligations.RebaseComposes := by
  unfold Obligations.RebaseComposes
  intro s s1 s2 c1 c2 hsum h1 k1 h2 k2
  obtain ⟨⟨hs, hc1, hc2⟩, hafter1, hafter2, rfl⟩ := exec_rebase_twice_inv h1 k1 h2 k2
  have hadd := toInt_add_of_lt hc1 hc2 hsum
  have hboth : ∀ p, ((c1.toInt + c2.toInt : Int) : WithTop Int) < (s.ev p).val ∧
      ((s.ev p).rebase c1.toInt).rebase c2.toInt = (s.ev p).rebase (c1.toInt + c2.toInt) := fun p =>
    rebase_rebase hc1 (hafter1 p) (rebaseEvents_ev c1.toInt s p ▸ hafter2 p)
  have hexec := exec_rebase (c1 + c2) s (admission_at_cycle hs rfl rfl (by omega))
  rw [hadd, rebaseAll_of_after fun p => (hboth p).1] at hexec
  refine ⟨_, hexec, hs.2, fun p => ?_⟩
  calc (rebaseEvents (c1.toInt + c2.toInt) s).ev p
    _ = ((s.ev p).rebase c1.toInt).rebase c2.toInt := by rw [rebaseEvents_ev, (hboth p).2]
    _ = (rebaseEvents c2.toInt (rebaseEvents c1.toInt s)).ev p := by rw [rebaseEvents_ev, rebaseEvents_ev]

/-- R142, R151: the boundary moves down with the due times. -/
theorem nextBoundary_rebaseEvents {c : Int} {s : State} (hc : 0 ≤ c) (h : ∀ p, (c : WithTop Int) < (s.ev p).val) :
    nextBoundary (rebaseEvents c s) = (nextBoundary s).rebase c := by
  have hinner : (c : WithTop Int) < (s.evTimer.minT s.evInput).val := by
    rw [Time.minT_val]
    exact lt_min (h .timer) (h .input)
  calc nextBoundary (rebaseEvents c s)
    _ = (s.evVideo.rebase c).minT ((s.evTimer.rebase c).minT (s.evInput.rebase c)) := rfl
    _ = (s.evVideo.rebase c).minT ((s.evTimer.minT s.evInput).rebase c) :=
      congrArg _ (Time.rebase_minT hc (h .timer) (h .input))
    _ = (nextBoundary s).rebase c := Time.rebase_minT hc (h .video) hinner

/-- Settles O42: the boundary is subtracted from twice. -/
theorem framesWithoutRescheduling : Obligations.FramesWithoutRescheduling := by
  unfold Obligations.FramesWithoutRescheduling
  intro s s1 s2 c1 c2 h1 k1 h2 k2
  obtain ⟨⟨hs, hc1, hc2⟩, hafter1, hafter2, rfl⟩ := exec_rebase_twice_inv h1 k1 h2 k2
  have hB1 := nextBoundary_rebaseEvents hc1 hafter1
  have hB2 := nextBoundary_rebaseEvents hc2 hafter2
  obtain ⟨hnone1, hfin1⟩ := Time.rebase_cases hc1 (lt_nextBoundary hafter1)
  obtain ⟨hnone2, hfin2⟩ := Time.rebase_cases hc2 (lt_nextBoundary hafter2)
  rw [← hB1] at hnone1 hfin1
  rw [← hB2] at hnone2 hfin2
  refine ⟨_, _, exec_nextb s (admission_without_cycle hs rfl rfl),
    exec_nextb _ (admission_without_cycle hs rfl rfl), fun ht => ?_, fun b ht => ?_⟩
  · have hB := (okTime_eq_none_iff _).1 (Option.some.inj ht)
    exact congrArg some ((okTime_eq_none_iff _).2 (hnone2 (hnone1 hB)))
  · have hB := (okTime_eq_fin_iff _ b).1 (Option.some.inj ht)
    obtain ⟨b1, hb1, hv1⟩ := hfin1 b hB
    obtain ⟨b2, hb2, hv2⟩ := hfin2 b1 hb1
    exact ⟨b2, congrArg some ((okTime_eq_fin_iff _ b2).2 hb2), by rw [hv2, hv1]⟩

/-! ## The other steps of a frame end -/

/-- Settles O43: FIXNE rewrites each event register and nothing else. -/
theorem fixneClearsFarTimes : Obligations.FixneClearsFarTimes := by
  unfold Obligations.FixneClearsFarTimes
  intro s hs
  exact ⟨_, exec_fixne s (admission_without_cycle hs rfl rfl), rfl, SameInterface.refl s, rfl, fixNonEvents_ev s⟩

/-- R158: the carry of a cycle count that is not negative. -/
theorem audioCarry_acf {c : Word} (hc : 0 ≤ c.toInt) (s : State) :
    (audioCarry c.toInt s).acf.toNat = (c.toNat + s.acf.toNat) % 4 := by
  rw [audioCarry, setAcf_acf, toInt_eq_toNat hc, acfCarry_toNat]

/-- Settles O44: ACARRY writes ACF, with the exact sum's remainder. -/
theorem acarryCarriesLowBits : Obligations.AcarryCarriesLowBits := by
  unfold Obligations.AcarryCarriesLowBits
  intro s c hs hc
  exact ⟨_, exec_acarry c s (admission_at_cycle hs rfl rfl hc), rfl, SameInterface.refl s, rfl, audioCarry_acf hc s⟩

/-- Settles O45: both laws are laws of the carry. -/
theorem audioTimeIsContinuous : Obligations.AudioTimeIsContinuous := by
  unfold Obligations.AudioTimeIsContinuous
  intro s t c h
  obtain ⟨ha, rfl⟩ := exec_acarry_inv c h
  refine ⟨fun x _ => audioTime_acfCarry x c.toInt s.acf, fun c' u hsum h' => ?_⟩
  obtain ⟨ha', rfl⟩ := exec_acarry_inv c' h'
  have hc := cycle_nonneg_of_admission ha rfl
  have hc' := cycle_nonneg_of_admission ha' rfl
  have hadd := toInt_add_of_lt hc hc' hsum
  have hs : s.Ready := ready_of_admission ha rfl rfl
  refine ⟨_, exec_acarry (c + c') s (admission_at_cycle hs rfl rfl (by omega)), ?_⟩
  rw [hadd]
  exact (acfCarry_acfCarry c.toInt c'.toInt s.acf).symm

/-! ## The frame end -/

/-- R159: the state the first three steps of a frame end leave, which the rebase is then tried on. -/
def beforeRebase (c : Int) (s : State) : State := audioCarry c (forceUpdateAll c (fixNonEvents s))

theorem audioCarry_respond (r : Response) (c : Int) (s : State) :
    audioCarry c (respond r s) = respond r (audioCarry c s) := rfl

theorem audioCarry_ev (c : Int) (s : State) (p : EvClass) : (audioCarry c s).ev p = s.ev p := by cases p <;> rfl

theorem audioCarry_halted (c : Int) (s : State) : (audioCarry c s).halted = s.halted := rfl

theorem audioCarry_sameStorage {s t : State} (h : SameStorage s t) (c : Int) : SameStorage s (audioCarry c t) := h

theorem audioCarry_irq (c : Int) (s : State) : (audioCarry c s).irq = s.irq := rfl

theorem frameEnd_of_after {c : Int} {s : State} (h : ∀ p, (c : WithTop Int) < ((beforeRebase c s).ev p).val) :
    frameEnd c s = respond (okValue false 0) (rearm (rebaseEvents c (beforeRebase c s))) :=
  if_pos ((rebaseOk_iff c _).2 h)

theorem frameEnd_of_due {c : Int} {s : State} (h : ∃ p, ((beforeRebase c s).ev p).val ≤ (c : WithTop Int)) :
    frameEnd c s = raiseViolation c (beforeRebase c s) :=
  if_neg (not_rebaseOk_of_due h)

/-- R155, R148: the first two steps change the schedule only, and the third ACF only. -/
theorem fixAndUpdate_schedule (c : Int) (s : State) : ScheduleOnly s (forceUpdateAll c (fixNonEvents s)) :=
  (fixNonEvents_schedule s).trans (forceUpdateAll_schedule c _)

theorem beforeRebase_halted (c : Int) (s : State) : (beforeRebase c s).halted = s.halted := by
  rw [beforeRebase, audioCarry_halted, (fixAndUpdate_schedule c s).halted]

theorem beforeRebase_sameStorage (c : Int) (s : State) : SameStorage s (beforeRebase c s) :=
  audioCarry_sameStorage (fixAndUpdate_schedule c s).sameStorage c

/-- Settles O40: REBASE and FREND on a late due time, and the test that refuses what follows. -/
theorem rebaseViolationHaltsTheBlock : Obligations.RebaseViolationHaltsTheBlock := by
  unfold Obligations.RebaseViolationHaltsTheBlock
  intro s c hs hc s3
  refine ⟨fun hdue => ⟨_, exec_rebase c s (admission_at_cycle hs rfl rfl hc), ?_⟩,
    fun hdue => ⟨_, exec_frend c s (admission_at_cycle hs rfl rfl hc), ?_⟩,
    fun t hloaded hhalted i hpwr hldimg hexpt => exec_refused ?_⟩
  · rw [rebaseAll_of_due hdue]
    exact ⟨raiseViolation_toBlock _ s, rfl⟩
  · rw [frameEnd_of_due hdue]
    exact ⟨raiseViolation_toBlock _ s3, rfl⟩
  · rw [admission_eq, if_neg (by simp [FailsLoaded, hloaded]), if_pos ⟨hhalted, hpwr, hldimg, hexpt⟩]

theorem execAll_cons {i : Instr} {s t : State} (h : exec i s = .next t) (is : List Instr) :
    execAll (i :: is) s = execAll is t := by
  simp only [execAll, h]

/-- R84: the rebase does not read the latest response and writes its own. -/
theorem rebaseAll_respond (r : Response) (c : Int) (s : State) : rebaseAll c (respond r s) = rebaseAll c s := by
  obtain hafter | hdue := after_or_due c s
  · rw [rebaseAll_of_after hafter, rebaseAll_of_after (s := respond r s) hafter]; rfl
  · rw [rebaseAll_of_due hdue, rebaseAll_of_due (s := respond r s) hdue]; rfl

/-- R158, R151: the last two of the four operations. -/
theorem execAll_carry_rebase {s : State} {c : Word} (hs : s.Ready) (hc : 0 ≤ c.toInt) :
    execAll [.acarry c, .rebase c] s = .next (rebaseAll c.toInt (audioCarry c.toInt s)) := by
  have hacarry := exec_acarry c s (admission_at_cycle hs rfl rfl hc)
  have hrebase := exec_rebase c (respond (okValue false 0) (audioCarry c.toInt s)) (admission_at_cycle hs rfl rfl hc)
  rw [execAll_cons hacarry, execAll_cons hrebase, rebaseAll_respond]
  rfl

/-- R159: the four operations in a row are the rebase of what the first three leave. -/
theorem execAll_frameEnd {s : State} {c : Word} (hs : s.Ready) (hc : 0 ≤ c.toInt) :
    execAll [.fixne, .fupd c, .acarry c, .rebase c] s = .next (rebaseAll c.toInt (beforeRebase c.toInt s)) := by
  have hfixne := exec_fixne s (admission_without_cycle hs rfl rfl)
  have hfupd := exec_fupd c (respond (okValue false 0) (fixNonEvents s)) (admission_at_cycle hs rfl rfl hc)
  have hready := respond_ready (respond_ready ((fixAndUpdate_schedule c.toInt s).ready hs) (okValue false 0))
    (okValue false 0)
  rw [execAll_cons hfixne, execAll_cons hfupd, forceUpdateAll_respond, execAll_carry_rebase hready hc,
    audioCarry_respond, audioCarry_respond, rebaseAll_respond, rebaseAll_respond, beforeRebase]

/-- Settles O46: both are the rebase of one state, and FREND re-arms HALT after it unless it failed. -/
theorem frendIsTheSequence : Obligations.FrendIsTheSequence := by
  unfold Obligations.FrendIsTheSequence
  intro s c hs hc
  have hall := execAll_frameEnd hs hc
  have hexec := exec_frend c s (admission_at_cycle hs rfl rfl hc)
  have hhalted := (beforeRebase_halted c.toInt s).trans hs.2
  obtain hafter | hdue := after_or_due c.toInt (beforeRebase c.toInt s)
  · rw [rebaseAll_of_after hafter] at hall
    rw [frameEnd_of_after hafter] at hexec
    generalize beforeRebase c.toInt s = u at *
    exact ⟨_, _, hall, hexec, rfl, rearm_sameInterface (rebaseEvents c.toInt u),
      fun h => absurd (hhalted.symm.trans h) Bool.false_ne_true, fun _ => ⟨rfl, nextBoundary_val _⟩⟩
  · rw [rebaseAll_of_due hdue] at hall
    rw [frameEnd_of_due hdue] at hexec
    exact ⟨_, _, hall, hexec, rfl, SameInterface.refl _, fun _ => rfl,
      fun h => absurd (h.symm.trans (raiseViolation_halted _ _)) Bool.false_ne_true⟩

/-- R148, R159: Updates that call nothing back leave the returned due times for the rebase, and IRQ as it was. -/
theorem beforeRebase_quiet {c : Int} {s : State} (h : QuietUpdates c s) :
    (∀ p, (beforeRebase c s).ev p = returnedTime c s p) ∧ (beforeRebase c s).irq = s.irq := by
  have quiet : QuietUpdates c (fixNonEvents s) := h.congr rfl rfl rfl
  obtain ⟨hev, hirq, -⟩ := forceUpdateAll_quiet_result quiet
  refine ⟨fun p => ?_, ?_⟩
  · rw [beforeRebase, audioCarry_ev, hev]
    exact returnedTime_congr rfl rfl rfl p
  · rw [beforeRebase, audioCarry_irq, hirq, fixNonEvents_irq]

/-- R158, R159: ACF is carried by the frame's length. -/
theorem beforeRebase_acf {c : Word} (hc : 0 ≤ c.toInt) (s : State) :
    (beforeRebase c.toInt s).acf.toNat = (c.toNat + s.acf.toNat) % 4 := by
  rw [beforeRebase, audioCarry_acf hc, (fixAndUpdate_schedule c.toInt s).acf]

/-- Settles O47: what the rebase meets are the returned times, which are after the frame's end. -/
theorem frendSucceedsWhenScheduledAhead : Obligations.FrendSucceedsWhenScheduledAhead := by
  unfold Obligations.FrendSucceedsWhenScheduledAhead
  intro s c hs hc hahead
  obtain ⟨quiet, hlater⟩ := hahead
  obtain ⟨hev, hirq⟩ := beforeRebase_quiet quiet
  have hafter : ∀ p, (c.toInt : WithTop Int) < ((beforeRebase c.toInt s).ev p).val := fun p => by
    rw [hev]; exact hlater p
  have hexec := exec_frend c s (admission_at_cycle hs rfl rfl hc)
  rw [frameEnd_of_after hafter] at hexec
  have hhalted := (beforeRebase_halted c.toInt s).trans hs.2
  have hacf := beforeRebase_acf hc s
  have hstorage := beforeRebase_sameStorage c.toInt s
  generalize beforeRebase c.toInt s = u at *
  refine ⟨_, hexec, hhalted, rfl, fun p => ?_, nextBoundary_val _, hacf, hirq, hstorage⟩
  calc ((rebaseEvents c.toInt u).ev p).val + (c.toInt : WithTop Int)
    _ = (u.ev p).val := by rw [rebaseEvents_ev, Time.rebase_val hc (hafter p)]
    _ = (returnedTime c.toInt s p).val := by rw [hev]

end Sys2Proof.Machine

/-! PROOFS. The interrupt arbiter's statements (42_interrupt.md): the bit IRQA writes, an Assert undone, and the priority
scan of the level. -/

namespace Sys2Proof.Machine

/-! ## IRQA -/

/-- R171: IRQA changes IRQ, and no other register or memory of the block. -/
theorem irqaRule_toBlock (src : Fin 5) (on : Bool) (s : State) :
    (irqaRule src on s).toBlock = { s.toBlock with irq := irqAssert s.irq src on } := rfl

theorem irqaRule_irq (src : Fin 5) (on : Bool) (s : State) : (irqaRule src on s).irq = irqAssert s.irq src on := rfl

/-- R171, R173: the level driven, on every call, is that of the new IRQ. -/
theorem irqaRule_levels (src : Fin 5) (on : Bool) (s : State) :
    (irqaRule src on s).levels = level (irqaRule src on s).irq :: s.levels := rfl

/-- R86, R171: the level of the new IRQ is the answer. -/
theorem irqaRule_response (src : Fin 5) (on : Bool) (s : State) :
    (irqaRule src on s).response = some (okLevel (level (irqaRule src on s).irq)) := rfl

/-- Settles O48: a ready block admits the request, and the bit, the level and the answer are those of `irqaRule`. -/
theorem irqaWritesOneBit : Obligations.IrqaWritesOneBit := by
  unfold Obligations.IrqaWritesOneBit
  intro s src on hs hsrc
  have hok : sourceOk src = true := decide_eq_true hsrc
  obtain ⟨k, hk, hval⟩ := sourceOf_some hok
  refine ⟨irqaRule k on s, exec_irqa on s (admission_without_cycle hs rfl hok) hk, irqaRule_toBlock k on s,
    fun j hj => ?_, irqaRule_levels k on s, irqaRule_response k on s, rfl, rfl, rfl, rfl, rfl, rfl, rfl⟩
  rw [irqaRule_irq, irqAssert_getLsbD s.irq k on hj, hval]

/-- R174 (a): a source that was clear is clear again after an Assert on and an Assert off of it. -/
theorem irqAssert_off_on {irq : BitVec 5} {src : Fin 5} (h : irq.getLsbD src.val = false) :
    irqAssert (irqAssert irq src true) src false = irq := by
  refine BitVec.eq_of_getLsbD_eq fun j hj => ?_
  rw [irqAssert_getLsbD _ _ _ hj, irqAssert_getLsbD _ _ _ hj]
  by_cases hsrc : j = src.val
  · rw [if_pos hsrc, hsrc, h]
  · rw [if_neg hsrc, if_neg hsrc]

theorem sourceOf_val {src : BitVec 3} {k : Fin 5} (h : sourceOf src = some k) : k.val = src.toNat := by
  unfold sourceOf at h
  split at h
  · cases h; rfl
  · cases h

/-- Settles O50: both requests act on one source, and the second undoes the first; the level is a function of IRQ. -/
theorem assertThenDeassertRestores : Obligations.AssertThenDeassertRestores := by
  unfold Obligations.AssertThenDeassertRestores
  intro s t u src hclear hon hoff
  obtain ⟨k, -, hk, rfl⟩ := exec_irqa_inv hon
  obtain ⟨k', -, hk', rfl⟩ := exec_irqa_inv hoff
  obtain rfl : k = k' := Option.some.inj (hk.symm.trans hk')
  have hirq : (irqaRule k false (irqaRule k true s)).irq = s.irq := by
    rw [irqaRule_irq, irqaRule_irq]
    exact irqAssert_off_on (sourceOf_val hk ▸ hclear)
  exact ⟨hirq, congrArg level hirq⟩

/-! ## The aggregate level -/

/-- R172: source `k` is asserted, and none above it. -/
def HighestAsserted (irq : BitVec 5) (k : Fin 5) : Prop :=
  irq.getLsbD k.val = true ∧ ∀ j : Fin 5, k < j → irq.getLsbD j.val = false

/-- R172: there are no equal priorities. -/
theorem HighestAsserted.unique {irq : BitVec 5} {k l : Fin 5} (hk : HighestAsserted irq k)
    (hl : HighestAsserted irq l) : k = l := by
  obtain ⟨hkset, hkabove⟩ := hk
  obtain ⟨hlset, hlabove⟩ := hl
  obtain h | h | h := lt_trichotomy k l
  · exact absurd hlset (Bool.eq_false_iff.1 (hkabove l h))
  · exact h
  · exact absurd hkset (Bool.eq_false_iff.1 (hlabove k h))

/-- R172: what the scan can give, and what it has then found, one arm after another. -/
theorem level_cases (irq : BitVec 5) :
    (∃ k, level irq = some k ∧ HighestAsserted irq k) ∨ (level irq = none ∧ ∀ j : Fin 5, irq.getLsbD j.val = false) := by
  unfold level HighestAsserted
  split_ifs with h4 h3 h2 h1 h0
  · exact .inl ⟨4, rfl, h4, by simp [Fin.forall_fin_succ]⟩
  · exact .inl ⟨3, rfl, h3, by simp_all [Fin.forall_fin_succ]⟩
  · exact .inl ⟨2, rfl, h2, by simp_all [Fin.forall_fin_succ]⟩
  · exact .inl ⟨1, rfl, h1, by simp_all [Fin.forall_fin_succ]⟩
  · exact .inl ⟨0, rfl, h0, by simp_all [Fin.forall_fin_succ]⟩
  · exact .inr ⟨rfl, by simp_all [Fin.forall_fin_succ]⟩

theorem level_eq_some_iff (irq : BitVec 5) (k : Fin 5) : level irq = some k ↔ HighestAsserted irq k := by
  obtain ⟨l, hlevel, hl⟩ | ⟨hlevel, hclear⟩ := level_cases irq
  · rw [hlevel, Option.some.injEq]
    exact ⟨fun h => h ▸ hl, hl.unique⟩
  · rw [hlevel]
    exact ⟨nofun, fun ⟨hset, _⟩ => absurd hset (Bool.eq_false_iff.1 (hclear k))⟩

theorem level_eq_none_iff (irq : BitVec 5) : level irq = none ↔ irq = 0 := by
  refine ⟨fun h => ?_, fun h => h ▸ rfl⟩
  obtain ⟨k, hlevel, -⟩ | ⟨-, hclear⟩ := level_cases irq
  · rw [hlevel] at h
    cases h
  · refine BitVec.eq_of_getLsbD_eq fun j hj => ?_
    rw [hclear ⟨j, hj⟩, BitVec.ofNat_eq_ofNat, BitVec.getLsbD_zero]

/-- Settles O49: the scan finds the highest asserted source, and the wires are read off the level it gives. -/
theorem levelIsHighestAsserted : Obligations.LevelIsHighestAsserted := by
  unfold Obligations.LevelIsHighestAsserted
  exact fun irq => ⟨level_eq_none_iff irq, level_eq_some_iff irq, fun h => h ▸ rfl, fun k h => h ▸ rfl⟩

end Sys2Proof.Machine

/-! PROOFS. The host port's statements (43_host_state.md): power-on and the image load, the snapshot's bytes, and the
operations that hand them out and take them back. -/

namespace Sys2Proof.Machine

/-! ## Admission -/

/-- R87: what the tests of an operation that reads no cycle ask of the state. -/
theorem admission_of_tests {i : Instr} {s : State} (hloaded : s.loaded = true ∨ i.allowedUnloaded = true)
    (hhalted : s.halted = false ∨ i.allowedHalted = true) (hi : i.cycle = none) (hw : i.wellFormed = true) :
    admission i s = none := by
  have test2 : (!s.loaded && !i.allowedUnloaded) = false := by rcases hloaded with h | h <;> simp [h]
  have test3 : (s.halted && !i.allowedHalted) = false := by rcases hhalted with h | h <;> simp [h]
  simp [admission, negativeCycle, test2, test3, hi, hw]

/-! ## Power-on -/

/-- R181: what power-on clears, and what it leaves alone. -/
theorem powerOn_frame (s : State) :
    ((powerOn s).halted = false ∧ (∀ i, Memory.read (powerOn s).wram i = 0) ∧ (powerOn s).wcr = 0 ∧
      (powerOn s).acf = 0) ∧
    ((powerOn s).rom = s.rom ∧ (powerOn s).ram = s.ram ∧ (powerOn s).loaded = s.loaded ∧ (powerOn s).cfg = s.cfg ∧
      (powerOn s).requests = s.requests ∧ (powerOn s).payloadIn = s.payloadIn ∧
      (powerOn s).payloadOut = s.payloadOut ∧ (powerOn s).queries = s.queries ∧ (powerOn s).env = s.env) := by
  have h := powerOn_schedule s
  exact ⟨⟨h.halted, fun i => by rw [h.wram]; rfl, h.wcr, h.acf⟩, h.rom, h.ram, h.loaded, h.cfg, h.requests,
    h.payloadIn, h.payloadOut, h.queries, h.env⟩

/-- R148: an update of all three is the three services, then the re-armed halt point. -/
theorem forceUpdateAll_rearms (c : Int) (s : State) :
    let s3 := service .input c (service .timer c (service .video c s))
    (forceUpdateAll c s).toBlock = { s3.toBlock with halt := (forceUpdateAll c s).halt } ∧
      SameInterface s3 (forceUpdateAll c s) ∧
      (forceUpdateAll c s).halt.val = min s3.evVideo.val (min s3.evTimer.val s3.evInput.val) := by
  intro s3
  have h : forceUpdateAll c s = rearm s3 := by rw [forceUpdateAll]
  rw [h]
  exact ⟨rearm_toBlock s3, rearm_sameInterface s3, nextBoundary_val s3⟩

/-- Settles O51: a loaded block admits PWR, halted or not, and its rule is power-on, answered. -/
theorem pwrRebuildsTheBlock : Obligations.PwrRebuildsTheBlock := by
  unfold Obligations.PwrRebuildsTheBlock
  intro s hloaded s0 s1 s3
  have hexec := exec_pwr s (admission_of_tests (.inl hloaded) (.inr rfl) rfl rfl)
  have hs1 : powerPeripherals (clearBlock s) = s1 := rfl
  have hs3 : service .input 0 (service .timer 0 (service .video 0 (pushLevel s1))) = s3 := rfl
  obtain ⟨hblock, hface, -⟩ := forceUpdateAll_rearms 0 (pushLevel s1)
  rw [hs3, ← hs1, ← powerOn] at hblock hface
  obtain ⟨⟨hhalted, hwram, hwcr, hacf⟩, hrom, hram, hload, hcfg, hreq, hin, hout, hqueries, henv⟩ := powerOn_frame s
  have hcalls := powerOn_calls s
  have hhalt := powerOn_halt s
  have hquiet := @powerOn_quiet s
  clear_value s3
  generalize powerOn s = u at *
  exact ⟨_, hexec, rfl, hblock, hface, hhalted, hwram, hwcr, hacf, hrom, hram, hload.trans hloaded, hcfg, hreq, hin, hout,
    hqueries, henv, hcalls, hhalt, hquiet⟩

/-! ## LDIMG -/

/-- R183: the state LDIMG powers on. -/
def withPayloadImage (L : Nat) (s : State) : State := installImage (payload L s) L (consume L s)

theorem loadImage_of_imageLength {len : Word} (h : ImageLength len.toNat) (s : State) :
    loadImage len s =
      respond (okValue false (BitVec.ofNat 32 (max len.toNat 65536))) (powerOn (withPayloadImage len.toNat s)) :=
  if_pos ((imageLengthOk_iff _).2 h)

theorem loadImage_of_not_imageLength {len : Word} (h : ¬ ImageLength len.toNat) (s : State) :
    loadImage len s = raiseError .loadError (.loadError len) (consume len.toNat s) :=
  if_neg fun hok => h ((imageLengthOk_iff _).1 hok)

theorem imageLength_pos {L : Nat} (h : ImageLength L) : 0 < L := by
  obtain ⟨k, -, -, rfl⟩ := h
  exact Nat.two_pow_pos k

/-- R85: the bytes of a payload that are on the stream. -/
theorem payload_getD {n k : Nat} {s : State} (hn : k < n) (hk : k < s.payloadIn.length) :
    (payload n s).getD k 0 = s.payloadIn.getD k 0 := by
  rw [payload, List.getD_append _ _ _ _ (by rw [List.length_take]; omega)]
  simp [List.getD, hn]

/-- R24, R183: the image is repeated. -/
theorem withPayloadImage_rom_read {L i : Nat} {s : State} (hL : 0 < L) (hi : i % L < s.payloadIn.length) :
    (withPayloadImage L s).rom.read i = s.payloadIn.getD (i % L) 0 := by
  calc (withPayloadImage L s).rom.read i
    _ = (payload L s).getD (i % L) 0 := Memory.read_ofBytes _ _
    _ = s.payloadIn.getD (i % L) 0 := payload_getD (Nat.mod_lt i hL) hi

theorem admission_ldimg (len : Word) (s : State) : admission (.ldimg len) s = none :=
  admission_of_tests (.inr rfl) (.inr rfl) rfl rfl

/-- Settles O52: LDIMG and the PWR compared with it are one power-on, of the state with the image installed. -/
theorem ldimgInstallsTheImage : Obligations.LdimgInstallsTheImage := by
  unfold Obligations.LdimgInstallsTheImage
  intro s len hL
  have hexec := exec_ldimg len s (admission_ldimg len s)
  rw [loadImage_of_imageLength hL] at hexec
  have hpwr := exec_pwr (withPayloadImage len.toNat s) (admission_of_tests (.inl rfl) (.inr rfl) rfl rfl)
  obtain ⟨⟨hhalted, hwram, hwcr, hacf⟩, hrom, hram, hload, -⟩ := powerOn_frame (withPayloadImage len.toNat s)
  have hcalls := powerOn_calls (withPayloadImage len.toNat s)
  have hhalt := powerOn_halt (withPayloadImage len.toNat s)
  have hquiet := @powerOn_quiet (withPayloadImage len.toNat s)
  generalize powerOn (withPayloadImage len.toNat s) = u at *
  refine ⟨_, withPayloadImage len.toNat s, _, hexec, rfl, rfl, rfl,
    fun i hi => withPayloadImage_rom_read (imageLength_pos hL) hi, rfl, rfl, rfl, rfl, rfl, rfl, rfl, rfl, hpwr, rfl,
    SameInterface.refl _, hload, hhalted, hrom, hram, hwram, hwcr, hacf, hcalls, hhalt, fun hpowers hupdates => ?_⟩
  obtain ⟨hirq, hlevels, hev⟩ := hquiet (hpowers.congr rfl rfl rfl) (hupdates.congr rfl rfl rfl)
  exact ⟨hirq, hlevels, fun p => (hev p).trans (returnedTime_congr rfl rfl rfl p)⟩

/-- R184, R190: the two errors that set no latch leave the block as it was. -/
theorem raiseError_toBlock {st : Status} (h : st ≠ .schedViolation) (what : LogRecord) (s : State) :
    (raiseError st what s).toBlock = s.toBlock := by
  have hlatch : (s.halted || decide (st = .schedViolation)) = s.halted := by simp [h]
  exact congrArg (fun b => { s.toBlock with halted := b }) hlatch

/-- Settles O53: LDIMG is admitted in every state, and on such a length raises the error with the payload consumed. -/
theorem ldimgRejectsBadLength : Obligations.LdimgRejectsBadLength := by
  unfold Obligations.LdimgRejectsBadLength
  intro s len hL
  refine ⟨_, exec_ldimg len s (admission_ldimg len s), ?_⟩
  rw [loadImage_of_not_imageLength hL]
  exact ⟨raiseError_toBlock (by decide) _ _, rfl, rfl, rfl, rfl, rfl, rfl, rfl, rfl⟩

/-! ## EXPT -/

/-- R191: the bytes of a region are those of its buffer. -/
theorem regionBytes_eq (r : Region) (s : State) :
    regionBytes r s = Memory.toBytes (s.region r) (regionLength r s) := by
  cases r <;> rfl

theorem regionBytes_length (r : Region) (s : State) : (regionBytes r s).length = regionLength r s := by
  rw [regionBytes_eq, Memory.toBytes_length]

theorem regionBytes_getD {r : Region} {s : State} {i : Nat} (h : i < (regionBytes r s).length) :
    (regionBytes r s).getD i 0 = Memory.read (s.region r) i := by
  rw [regionBytes_length] at h
  rw [regionBytes_eq, Memory.toBytes_getD _ _ _ h]

/-- Settles O60: a loaded block admits EXPT, halted or not, and its rule writes the outgoing stream only. -/
theorem exptEmitsRegion : Obligations.ExptEmitsRegion := by
  unfold Obligations.ExptEmitsRegion
  intro s r hloaded
  have hlen := regionBytes_length r s
  refine ⟨_, regionBytes r s, exec_expt r s (admission_of_tests (.inl hloaded) (.inr rfl) rfl rfl), rfl, rfl, rfl, rfl,
    rfl, rfl, rfl, rfl, rfl, hlen.trans ?length, fun i hi => (regionBytes_getD hi).trans ?byte, ?response⟩
  case length => cases r <;> rfl
  case byte => cases r <;> rfl
  case response => rw [hlen]; rfl

/-! ## The snapshot's bytes -/

/-- Settles O55: the sum of the seven records. -/
theorem snapshotTotalSize : Obligations.SnapshotTotalSize := by
  unfold Obligations.SnapshotTotalSize
  exact snapshot_length

/-- R11, R180: a peripheral's block depends on the environment and on the calls made. -/
theorem stateBlock_congr {s t : State} (henv : t.env = s.env) (hcalls : t.calls = s.calls) (p : Periph) :
    t.stateBlock p = s.stateBlock p :=
  congrArg Reply.bytes (reply_congr (congrArg Env.replies henv) (congrArg Env.seed henv) hcalls _)

/-- R185: what a snapshot depends on. -/
theorem snapshot_congr {s t : State} (hblock : t.toBlock = s.toBlock) (hcfg : t.cfg = s.cfg) (henv : t.env = s.env)
    (hcalls : t.calls = s.calls) : snapshot t = snapshot s := by
  simp only [snapshot, busregData, hblock, hcfg, stateBlock_congr henv hcalls]

/-- R185: record 1 in full. -/
theorem snapRecord_busreg (s : State) : snapRecord nameBusreg (busregData s) =
    [0x42, 0x55, 0x53, 0x52, 0x45, 0x47, 0x00, 0x00, 0x03, 0x00, 0x00, 0x00,
      BitVec.ofNat 8 s.wcr.toNat, BitVec.ofNat 8 s.irq.toNat, BitVec.ofNat 8 s.acf.toNat] := by
  have hlen : le32 3 = [0x03, 0x00, 0x00, 0x00] := by decide
  simp [snapRecord, busregData, nameBusreg, hlen]

/-- R185: record 2, whose length is a constant. -/
theorem snapRecord_wram {w : List Byte} (h : w.length = 65536) : snapRecord nameWram w =
    [0x57, 0x52, 0x41, 0x4D, 0x00, 0x00, 0x00, 0x00, 0x00, 0x00, 0x01, 0x00] ++ w := by
  have hlen : le32 65536 = [0x00, 0x00, 0x01, 0x00] := by decide
  rw [snapRecord, h, hlen, nameWram]
  rfl

/-- R185: the records of the four peripherals. -/
def State.periphRecords (s : State) : List Byte :=
  snapRecord (namePeriph .video) (s.stateBlock .video) ++ (snapRecord (namePeriph .timer) (s.stateBlock .timer) ++
    (snapRecord (namePeriph .input) (s.stateBlock .input) ++ snapRecord (namePeriph .audio) (s.stateBlock .audio)))

theorem snapshot_eq_append (s : State) : snapshot s = snapRecord nameBusreg (busregData s) ++
    (snapRecord nameWram (Memory.toBytes s.wram 65536) ++
      (snapRecord nameCram (Memory.toBytes s.ram s.cfg.ramSize) ++ s.periphRecords)) := by
  simp only [snapshot, State.periphRecords, List.append_assoc]

/-- R185: the data of a record stands after its name and the four bytes of its length. -/
theorem getD_snapRecord {pre name data post : List Byte} {k i : Nat} (hk : pre.length + (name.length + 4) = k)
    (hi : i < data.length) : (pre ++ (snapRecord name data ++ post)).getD (k + i) 0 = data.getD i 0 := by
  have hhead : (name ++ le32 data.length).length = name.length + 4 := List.length_append
  rw [snapRecord, List.append_assoc, List.getD_append_right _ _ _ _ (by omega),
    List.getD_append_right _ _ _ _ (by omega), List.getD_append _ _ _ _ (by omega)]
  congr 1
  omega

/-- R185, P4: WorkRAM's bytes stand after the 15 bytes of BUSREG and 12 of their own record. -/
theorem snapshot_getD_wram (s : State) {i : Nat} (hi : i < 65536) :
    (snapshot s).getD (27 + i) 0 = Memory.read s.wram i := by
  rw [snapshot_eq_append, getD_snapRecord (k := 27) rfl (by rwa [Memory.toBytes_length]), Memory.toBytes_getD _ _ i hi]

/-- R185, P4: CartRAM's bytes stand after those two records and 12 bytes of their own. -/
theorem snapshot_getD_cram (s : State) {i : Nat} (hi : i < s.cfg.ramSize) :
    (snapshot s).getD (65575 + i) 0 = Memory.read s.ram i := by
  have hk : (snapRecord nameBusreg (busregData s) ++ snapRecord nameWram (Memory.toBytes s.wram 65536)).length +
      (nameCram.length + 4) = 65575 := by
    simp [snapRecord_length, busregData, nameBusreg, nameWram, nameCram]
  rw [snapshot_eq_append, ← List.append_assoc, getD_snapRecord hk (by rwa [Memory.toBytes_length]),
    Memory.toBytes_getD _ _ i hi]

/-- Settles O56: the seven records written out, and the two buffers found among them. -/
theorem snapshotLayout : Obligations.SnapshotLayout := by
  unfold Obligations.SnapshotLayout
  intro s u32 block
  have hw := Memory.toBytes_length s.wram 65536
  have hr := Memory.toBytes_length s.ram s.cfg.ramSize
  refine ⟨⟨_, _, hw, hr, fun i hi => Memory.toBytes_getD _ _ i hi, fun i hi => Memory.toBytes_getD _ _ i hi, ?_⟩,
    fun _ => snapshot_getD_wram s, fun _ => snapshot_getD_cram s⟩
  rw [snapshot, snapRecord_busreg]
  generalize Memory.toBytes s.wram 65536 = w at hw ⊢
  generalize Memory.toBytes s.ram s.cfg.ramSize = r at hr ⊢
  have hu32 : ∀ n, u32 n = le32 n := fun _ => rfl
  rw [snapRecord_wram hw]
  simp only [snapRecord, nameCram, namePeriph, hr, block, hu32, List.append_assoc]

/-! ## SVSZ and SAVE -/

/-- R186: a total that 32 bits hold is answered as it is. -/
theorem sizeWord_toNat {s : State} (h : snapshotSize s < 2 ^ 32) : (sizeWord s).toNat = snapshotSize s := by
  unfold sizeWord
  rw [if_pos (by omega), BitVec.toNat_ofNat, Nat.mod_eq_of_lt h]

/-- Settles O54: SVSZ is one pass of pure calls and the size as a word. -/
theorem svszAnswersSnapshotLength : Obligations.SvszAnswersSnapshotLength := by
  unfold Obligations.SvszAnswersSnapshotLength
  intro s hs n
  have hexec := exec_svsz s (admission_without_cycle hs rfl rfl)
  rw [querySize_eq] at hexec
  refine ⟨_, sizeWord s, hexec, rfl, rfl, rfl, rfl, rfl, rfl, rfl, rfl, rfl, rfl, fun h => ?_⟩
  rw [snapshot_length] at h ⊢
  exact sizeWord_toNat h

/-- Settles O57: SAVE is two passes of pure calls and the snapshot on the stream, where the buffer has room for it. -/
theorem saveEmitsSnapshot : Obligations.SaveEmitsSnapshot := by
  unfold Obligations.SaveEmitsSnapshot
  intro s cap hs n pass
  have hadm : admission (.save cap) s = none := admission_without_cycle hs rfl rfl
  rw [snapshot_length]
  refine ⟨fun hcap => ?_, exec_save_tooSmall hadm⟩
  have hexec := exec_save s hadm hcap
  rw [saveSnapshot_eq] at hexec
  exact ⟨_, hexec, rfl, rfl, rfl, rfl, rfl, rfl, rfl, rfl, rfl, snapshot_congr rfl rfl rfl rfl, rfl⟩

/-! ## RSTR -/

/-- R188: the payloads that pass the checks with the data `q`. -/
theorem checkSnapshot_payload_iff (len : Word) (s : State) (q : Snapshot) :
    checkSnapshot (payload len.toNat s) s = .ok q ↔ payload len.toNat s = q.records ∧
      q.busreg.length = 3 ∧ q.wram.length = 65536 ∧ q.cram.length = s.cfg.ramSize ∧
      (q.busreg.getD 0 0).toNat ≤ 3 ∧ (q.busreg.getD 1 0).toNat ≤ 31 ∧ (q.busreg.getD 2 0).toNat ≤ 3 ∧
      ∀ p, (s.reply (.validateState p (q.block p))).ok = true := by
  rw [checkSnapshot_ok_iff (by rw [payload_length]; exact len.isLt), snapshotMismatch_none_iff]

/-- R188 phase 1: the four ValidateState calls of a payload that passes. -/
def validated (q : Snapshot) (s : State) : State :=
  recordQuery (.validateState .audio q.audio) (recordQuery (.validateState .input q.input)
    (recordQuery (.validateState .timer q.timer) (recordQuery (.validateState .video q.video) s)))

/-- R188 phase 2: everything before the closing FUPD. -/
def committed (q : Snapshot) (s : State) : State :=
  pushLevel (clearSchedule (deserialize q .audio (deserialize q .input (deserialize q .timer
    (deserialize q .video (commitBlock q s))))))

theorem commitSnapshot_eq (q : Snapshot) (c : Int) (s : State) :
    commitSnapshot q c s = forceUpdateAll c (committed q s) := rfl

/-- R188: the state a valid payload leaves before the closing FUPD. -/
def restored (q : Snapshot) (n : Nat) (s : State) : State := committed q (validated q (consume n s))

theorem restoreSnapshot_of_valid {c : Int} {len : Word} {s : State} {q : Snapshot}
    (h : checkSnapshot (payload len.toNat s) s = .ok q) :
    restoreSnapshot c len s = respond (okValue false 0) (forceUpdateAll c (restored q len.toNat s)) := by
  obtain ⟨-, -, -, -, -, -, -, haccepts⟩ := (checkSnapshot_payload_iff len s q).1 h
  have hall : ∀ p, (consume len.toNat s).accepts q p = true := haccepts
  rw [restoreSnapshot_ok h, commitSnapshot_eq, validateBlocks_all hall, restored, validated]

theorem restored_toBlock (q : Snapshot) (n : Nat) (s : State) : (restored q n s).toBlock = { s.toBlock with
    wcr := BitVec.ofNat 2 (q.busreg.getD 0 0).toNat, irq := BitVec.ofNat 5 (q.busreg.getD 1 0).toNat
    acf := BitVec.ofNat 2 (q.busreg.getD 2 0).toNat, wram := Memory.ofBytes q.wram, ram := Memory.ofBytes q.cram
    evVideo := .none, evTimer := .none, evInput := .none, halt := .none } := by
  simp only [← extractLsb'_zero_eq_ofNat (show 2 ≤ 8 by omega), ← extractLsb'_zero_eq_ofNat (show 5 ≤ 8 by omega)]
  rfl

theorem restored_calls (q : Snapshot) (n : Nat) (s : State) : (restored q n s).calls =
    ([.deserializeState .audio (q.block .audio), .deserializeState .input (q.block .input),
      .deserializeState .timer (q.block .timer), .deserializeState .video (q.block .video)] : List Call) ++ s.calls := rfl

theorem restored_queries (q : Snapshot) (n : Nat) (s : State) : (restored q n s).queries =
    ([(s.calls.length, .validateState .audio q.audio), (s.calls.length, .validateState .input q.input),
      (s.calls.length, .validateState .timer q.timer), (s.calls.length, .validateState .video q.video)] :
      List (Nat × Query)) ++ s.queries := rfl

theorem restored_levels (q : Snapshot) (n : Nat) (s : State) :
    (restored q n s).levels = level (restored q n s).irq :: s.levels := rfl

theorem restored_interface (q : Snapshot) (n : Nat) (s : State) :
    (restored q n s).cfg = s.cfg ∧ (restored q n s).requests = s.requests ∧
      (restored q n s).payloadIn = s.payloadIn.drop n ∧ (restored q n s).payloadOut = s.payloadOut ∧
      (restored q n s).env = (consume n s).env := ⟨rfl, rfl, rfl, rfl, rfl⟩

theorem restored_wram_ram (q : Snapshot) (n : Nat) (s : State) :
    (restored q n s).wram = Memory.ofBytes q.wram ∧ (restored q n s).ram = Memory.ofBytes q.cram := ⟨rfl, rfl⟩

/-- Settles O58: the checks pass for exactly the valid payloads; what passes is committed, and what fails is an error that
leaves the block as it was. -/
theorem restoreIsAllOrNothing : Obligations.RestoreIsAllOrNothing := by
  unfold Obligations.RestoreIsAllOrNothing
  intro s c len hs hc n valid
  have hvalid : ∀ q, checkSnapshot (payload len.toNat s) s = .ok q ↔ valid q := checkSnapshot_payload_iff len s
  refine ⟨restoreSnapshot c.toInt len s, exec_rstr c len s (admission_at_cycle hs rfl rfl hc), fun q hq => ?_,
    fun hnone => ?_⟩
  · rw [restoreSnapshot_of_valid ((hvalid q).2 hq)]
    have hblock := restored_toBlock q len.toNat s
    have hcalls := restored_calls q len.toNat s
    have hqueries := restored_queries q len.toNat s
    have hlevels := restored_levels q len.toNat s
    obtain ⟨hwram, hram⟩ := restored_wram_ram q len.toNat s
    obtain ⟨hcfg, hreq, hin, hout, henv⟩ := restored_interface q len.toNat s
    refine ⟨rfl, restored q len.toNat s, ?_⟩
    generalize restored q len.toNat s = s2 at *
    have hupdated := forceUpdateAll_rearms c.toInt s2
    generalize forceUpdateAll c.toInt s2 = u at *
    refine ⟨?_, fun i => ?_, fun i => ?_, hcalls, hqueries, hlevels, hcfg, hreq, hin, hout, ?_, hupdated⟩
    · rw [hwram, hram, hblock]
    · rw [hwram, Memory.read_ofBytes]
    · rw [hram, Memory.read_ofBytes]
    · rw [henv]; rfl
  · obtain ⟨why, hwhy⟩ : ∃ why, checkSnapshot (payload len.toNat s) s = .error why := by
      cases h : checkSnapshot (payload len.toNat s) s with
      | ok q => exact absurd ⟨q, (hvalid q).1 h⟩ hnone
      | error why => exact ⟨why, rfl⟩
    obtain ⟨l, hr, hl⟩ := restoreSnapshot_error (c := c.toInt) hwhy
    rw [hr]
    exact ⟨rfl, raiseError_toBlock (by decide) _ _, rfl, rfl, rfl, rfl, rfl, rfl, l, rfl, hl⟩

/-! ## A restore of a saved snapshot -/

/-- R185: the data of the seven records of a state's snapshot. -/
def State.saved (s : State) : Snapshot :=
  ⟨busregData s, Memory.toBytes s.wram 65536, Memory.toBytes s.ram s.cfg.ramSize, s.stateBlock .video,
    s.stateBlock .timer, s.stateBlock .input, s.stateBlock .audio⟩

theorem snapshot_eq_records (s : State) : snapshot s = s.saved.records := by
  simp only [snapshot, Snapshot.records, State.saved]

theorem saved_block (s : State) (p : Periph) : s.saved.block p = s.stateBlock p := by
  cases p <;> simp only [Snapshot.block, State.saved]

theorem saved_busreg (s : State) : s.saved.busreg = busregData s := by simp only [State.saved]

theorem saved_wram (s : State) : s.saved.wram = Memory.toBytes s.wram 65536 := by simp only [State.saved]

theorem saved_cram (s : State) : s.saved.cram = Memory.toBytes s.ram s.cfg.ramSize := by simp only [State.saved]

/-- A register that a byte holds whole. -/
theorem ofNat_setWidth_8 {k : Nat} (h : k ≤ 8) (v : BitVec k) : BitVec.ofNat k (v.setWidth 8).toNat = v := by
  rw [BitVec.ofNat_toNat, BitVec.setWidth_setWidth_of_le _ h, BitVec.setWidth_eq]

/-- R85: a stream that begins with the bytes asked for. -/
theorem payload_of_prefix {s : State} {bs rest : List Byte} (h : s.payloadIn = bs ++ rest) :
    payload bs.length s = bs := by
  simp [payload, h]

theorem consume_of_prefix {s : State} {bs rest : List Byte} (h : s.payloadIn = bs ++ rest) :
    consume bs.length s = { s with payloadIn := rest } := by
  simp [consume, h]

/-- R188: the snapshot of a state passes the checks of a block of the same parameters whose peripherals accept it. -/
theorem checkSnapshot_saved {s s' : State} {len : Word} {rest : List Byte} (hcfg : s'.cfg = s.cfg)
    (hlen : len.toNat = (snapshot s).length) (hin : s'.payloadIn = snapshot s ++ rest)
    (haccepts : ∀ p, (s'.reply (.validateState p (s.stateBlock p))).ok = true) :
    checkSnapshot (payload len.toNat s') s' = .ok s.saved := by
  have hpayload : payload len.toNat s' = s.saved.records := by
    rw [hlen, payload_of_prefix hin, snapshot_eq_records]
  have hwcr : (s.wcr.setWidth 8).toNat ≤ 3 := by rw [BitVec.toNat_setWidth_of_le (by omega)]; omega
  have hirq : (s.irq.setWidth 8).toNat ≤ 31 := by rw [BitVec.toNat_setWidth_of_le (by omega)]; omega
  have hacf : (s.acf.setWidth 8).toNat ≤ 3 := by rw [BitVec.toNat_setWidth_of_le (by omega)]; omega
  rw [checkSnapshot_payload_iff, saved_busreg, saved_wram, saved_cram, Memory.toBytes_length, Memory.toBytes_length, hcfg]
  exact ⟨hpayload, rfl, rfl, rfl, hwcr, hirq, hacf, fun p => by rw [saved_block]; exact haccepts p⟩

/-- R192: the registers and memories come back as they were saved, and ROM and the latches stay. -/
theorem restored_saved {s : State} (hi : s.Inv) (n : Nat) (s' : State) :
    ((restored s.saved n s').wcr = s.wcr ∧ (restored s.saved n s').irq = s.irq ∧
      (restored s.saved n s').acf = s.acf ∧ (restored s.saved n s').wram = s.wram ∧
      (restored s.saved n s').ram = s.ram) ∧
    (restored s.saved n s').rom = s'.rom ∧ (restored s.saved n s').loaded = s'.loaded ∧
      (restored s.saved n s').halted = s'.halted := by
  obtain ⟨hwf, hbelow⟩ := hi.wram
  obtain ⟨hwf', hbelow'⟩ := hi.ram
  simp only [restored_toBlock, saved_busreg, saved_wram, saved_cram, Memory.ofBytes_toBytes hwf hbelow,
    Memory.ofBytes_toBytes hwf' hbelow', and_true]
  exact ⟨ofNat_setWidth_8 (by omega) s.wcr, ofNat_setWidth_8 (by omega) s.irq, ofNat_setWidth_8 (by omega) s.acf⟩

/-- R148: what three Updates without callbacks leave, whichever state with those calls made they are asked about. -/
theorem forceUpdateAll_quiet_of_calls {c : Int} {u s1 : State} (henv : s1.env = (forceUpdateAll c u).env)
    (hcalls : (forceUpdateAll c u).calls = .update .input c :: .update .timer c :: .update .video c :: s1.calls)
    (hquiet : QuietUpdates c s1) :
    (forceUpdateAll c u).irq = u.irq ∧ ∀ p, (forceUpdateAll c u).ev p = returnedTime c s1 p := by
  have henv' : u.env = s1.env := (henv.trans (forceUpdateAll_schedule c u).env).symm
  have hcalls' : u.calls = s1.calls := by simpa using hcalls
  have hans := congrArg Env.answers henv'
  have hseed := congrArg Env.seed henv'
  obtain ⟨hev, hirq, -⟩ := forceUpdateAll_quiet_result (hquiet.congr hans hseed hcalls')
  exact ⟨hirq, fun p => (hev p).trans (returnedTime_congr hans hseed hcalls' p)⟩

/-- Settles O59: the snapshot is a valid payload, what is committed is the saved state, and the Updates at the end change
the schedule and the interrupt state only. -/
theorem saveThenRestoreRoundTrip : Obligations.SaveThenRestoreRoundTrip := by
  unfold Obligations.SaveThenRestoreRoundTrip
  intro s s' c len rest hi hs' hcfg hc hlen hin haccepts
  have hexec := exec_rstr c len s' (admission_at_cycle hs' rfl rfl hc)
  rw [restoreSnapshot_of_valid (checkSnapshot_saved hcfg hlen hin haccepts)] at hexec
  obtain ⟨⟨hwcr, hirq, hacf, hwram, hram⟩, hrom, hload, hhalted⟩ := restored_saved hi len.toNat s'
  have hcalls := restored_calls s.saved len.toNat s'
  have hlevels := restored_levels s.saved len.toNat s'
  obtain ⟨hucfg, hureq, huin, huout, huenv⟩ := restored_interface s.saved len.toNat s'
  have hrest : s'.payloadIn.drop len.toNat = rest := by rw [hlen, hin, List.drop_left]
  have henv' : (consume len.toNat s').env = s'.env := by rw [hlen, consume_of_prefix hin]
  generalize restored s.saved len.toNat s' = u at *
  have h := forceUpdateAll_schedule c.toInt u
  have htcalls := forceUpdateAll_calls c.toInt u
  have hhalt := forceUpdateAll_halt c.toInt u
  obtain ⟨l, hl, -⟩ := forceUpdateAll_drives c.toInt u
  have hquiet := @forceUpdateAll_quiet_of_calls c.toInt u
  rw [hcalls, saved_block, saved_block, saved_block, saved_block] at htcalls
  rw [hlevels, hirq] at hl
  generalize forceUpdateAll c.toInt u = t at *
  refine ⟨_, hexec, rfl, h.wcr.trans hwcr, h.acf.trans hacf, h.wram.trans hwram, h.ram.trans hram, h.rom.trans hrom,
    (h.loaded.trans hload).trans hs'.1, (h.halted.trans hhalted).trans hs'.2, h.payloadIn.trans (huin.trans hrest),
    h.payloadOut.trans huout, h.cfg.trans hucfg, h.requests.trans hureq, h.env.trans (huenv.trans henv'), htcalls, hhalt,
    ⟨l, hl⟩, fun s1 henv hc1 hq => ?_⟩
  obtain ⟨hirq', hev⟩ := hquiet henv hc1 hq
  exact ⟨hirq'.trans hirq, hev⟩

end Sys2Proof.Machine

/-! PROOFS. The statements on errors and the halted state (60_exceptions.md): what an unloaded and a halted block refuse, and
which operations end the halted state. -/

namespace Sys2Proof.Machine

/-- R87 test (2): no other test comes before it in `exec`. -/
theorem exec_of_failsLoaded {i : Instr} {s : State} (h : FailsLoaded i s) : exec i s = .refused .notLoaded :=
  exec_refused (by rw [admission_eq, if_pos h])

/-- R87 test (3): on a loaded block it is the first that can fail. -/
theorem exec_of_failsHalted {i : Instr} {s : State} (hloaded : s.loaded = true) (h : FailsHalted i s) :
    exec i s = .refused .halted := by
  have hpasses : ¬ FailsLoaded i s := by simp [FailsLoaded, hloaded]
  exact exec_refused (by rw [admission_eq, if_neg hpasses, if_pos h])

/-- R184: a rejected LDIMG completes in every state, on the block as it was. -/
theorem exec_ldimg_rejected {len : Word} (hL : ¬ ImageLength len.toNat) (s : State) :
    ∃ t, exec (.ldimg len) s = .next t ∧ t.toBlock = s.toBlock := by
  refine ⟨_, exec_ldimg len s (admission_ldimg len s), ?_⟩
  rw [loadImage_of_not_imageLength hL]
  exact raiseError_toBlock (by decide) _ _

/-- R183, R206: an accepted LDIMG ends in power-on, which clears HALTED. -/
theorem loadImage_halted {len : Word} (hL : ImageLength len.toNat) (s : State) : (loadImage len s).halted = false := by
  rw [loadImage_of_imageLength hL, respond_halted]
  exact (powerOn_schedule _).halted

/-- Settles O12: test (2) refuses the other operations, and a rejected LDIMG leaves the whole block, LOADED with it. -/
theorem unloadedRefusesAllButLdimg : Obligations.UnloadedRefusesAllButLdimg := by
  unfold Obligations.UnloadedRefusesAllButLdimg
  refine ⟨fun i s hloaded hi => exec_of_failsLoaded ⟨hloaded, hi⟩, fun len s hL => ?_⟩
  obtain ⟨t, ht, hblock⟩ := exec_ldimg_rejected hL s
  exact ⟨t, ht, congrArg Block.loaded hblock⟩

/-- Settles O13: test (3) refuses the other operations, power-on clears the latch for PWR and an accepted LDIMG, and a
rejected LDIMG and EXPT leave it. -/
theorem haltedBlockRecoversByResetOnly : Obligations.HaltedBlockRecoversByResetOnly := by
  unfold Obligations.HaltedBlockRecoversByResetOnly
  intro s hloaded hhalted
  refine ⟨fun i hpwr hldimg hexpt => exec_of_failsHalted hloaded ⟨hhalted, hpwr, hldimg, hexpt⟩, ?pwr,
    fun len hL => ?accepted, fun len hL => ?rejected, fun r => ?expt⟩
  case pwr => exact ⟨_, exec_pwr s (admission_of_tests (.inl hloaded) (.inr rfl) rfl rfl), (powerOn_schedule s).halted⟩
  case accepted => exact ⟨_, exec_ldimg len s (admission_ldimg len s), loadImage_halted hL s⟩
  case rejected =>
    obtain ⟨t, ht, hblock⟩ := exec_ldimg_rejected hL s
    exact ⟨t, ht, (congrArg Block.halted hblock).trans hhalted⟩
  case expt => exact ⟨_, exec_expt r s (admission_of_tests (.inl hloaded) (.inr rfl) rfl rfl), hhalted⟩

end Sys2Proof.Machine
